-- ==== Sys2Proof/Word.lean ====
section
/-! DEFINITION. The word types: registers are 32 bits wide (R9 `REG_WIDTH`), bytes are 8 bits (R11). -/

namespace Sys2Proof

/-- A register word, an unsigned integer below 2^32 (R11, R100). -/
abbrev Word := BitVec 32

/-- A byte, an unsigned integer below 256 (R11, R100). -/
abbrev Byte := BitVec 8

/-- A pin number, an integer in [0, 53] (R9 `NPINS`, R100). -/
abbrev Pin := Fin 54

/-- The index of one of the two UARTs (R9 `NUART`, R25). -/
abbrev UartIx := Fin 2

/-- A clock in hertz, a positive integer: 0 cannot be written down (R100). -/
abbrev Clock := { hz : Nat // 0 < hz }

end Sys2Proof
end

