-- ==== Sys2Proof/Syntax.lean ====
section
/-! DEFINITION. The operand types (R100) and the instructions: one constructor per row of the operation map,
the ten operations of format OP (R105) and the thirteen micro-operations of format UOP (R106). -/

namespace Sys2Proof

/-- The eight pin functions (R9 `NFUNCTION`, R100; conflict C1). -/
inductive Function where
  | input | output | alt0 | alt1 | alt2 | alt3 | alt4 | alt5
deriving DecidableEq, Repr

/-- The three pull modes (R9 `NPULL`, R100); no operation takes one as an operand. -/
inductive PullMode where
  | off | pullDown | pullUp
deriving DecidableEq, Repr

/-- A UART device descriptor: register base address, TX pin, RX pin, required pin function (R15, R100). -/
structure Descriptor where
  base : Nat
  tx   : Pin
  rx   : Pin
  fn   : Function
deriving DecidableEq, Repr

/-- The operations and micro-operations. The pin operand of `setFunction` and `enablePin` and the index of
`getByIndex` are integers, because the spec says what a pin outside [0, 53] (R161) and an index outside the
table (R220) do. -/
inductive Instr where
  /-- `extract_field(word, bit_offset, width)`, R150. -/
  | extractField (word : Word) (bitOffset width : Nat)
  /-- `merge_field(word, bit_offset, width, value)`, R151. -/
  | mergeField (word : Word) (bitOffset width : Nat) (value : Word)
  /-- `set_function(pin, function)`, R160. -/
  | setFunction (pin : Int) (function : Function)
  /-- `enable_pin(pin)`, R162. -/
  | enablePin (pin : Int)
  /-- `baud_divisor(F, baudrate)`, R180. -/
  | baudDivisor (clock : Clock) (baudrate : Word)
  /-- `init(d, baudrate)`, R190. -/
  | init (d : Descriptor) (baudrate : Word)
  /-- `send(d, byte)`, R194. -/
  | send (d : Descriptor) (byte : Byte)
  /-- `recv(d)`, R196. -/
  | recv (d : Descriptor)
  /-- `send_string(d, bytes)`, R198. -/
  | sendString (d : Descriptor) (bytes : List Byte)
  /-- `get_by_index(i)`, R220. -/
  | getByIndex (i : Int)
  /-- `RD.GPFSEL[n]`, R132. -/
  | rdGpfsel (n : Fin 6)
  /-- `WR.GPFSEL[n] <- data`, R133. -/
  | wrGpfsel (n : Fin 6) (data : Word)
  /-- `WR.GPPUD <- data`, R134. -/
  | wrGppud (data : Word)
  /-- `WR.GPPUDCLK[0] <- data`, R135. -/
  | wrGppudclk0 (data : Word)
  /-- `WR.GPPUDCLK[1] <- data`, R135. -/
  | wrGppudclk1 (data : Word)
  /-- `RD.DR`, R138. -/
  | rdDr (d : Descriptor)
  /-- `WR.DR <- data`, R139. -/
  | wrDr (d : Descriptor) (data : Word)
  /-- `RD.FR`, R136. -/
  | rdFr (d : Descriptor)
  /-- `WR.IBRD <- data`, R140. -/
  | wrIbrd (d : Descriptor) (data : Word)
  /-- `WR.FBRD <- data`, R141. -/
  | wrFbrd (d : Descriptor) (data : Word)
  /-- `WR.LCRH <- data`, R142. -/
  | wrLcrh (d : Descriptor) (data : Word)
  /-- `WR.CR <- data`, R143. -/
  | wrCr (d : Descriptor) (data : Word)
  /-- `DELAY n`, R145. -/
  | delay (cycles : Nat)
deriving DecidableEq, Repr

end Sys2Proof
end

