-- ==== Sys2Proof/Config.lean ====
section
/-! DEFINITION. The parameters the spec leaves without a value (R10) as one record of plain data, and the free
words the environment or the spec leaves open. The fixed parameters of R9 stand as numerals where they are used. -/

namespace Sys2Proof

/-- `INIT_PIN_ORDER` (R10, R190): the order of the four pin steps of `init`. -/
inductive PinOrder where
  | perPin | functionsFirst
deriving DecidableEq, Repr

/-- `CODEC_VIOLATION` (R10, R152): what a codec call outside its input condition does. -/
inductive ViolationMode where
  | draw | refuse
deriving DecidableEq, Repr

/-- Where the nine GPIO words stand (R61): the block's base and the offsets of its words. -/
structure GpioLayout where
  base        : Nat
  gpfselOff   : Nat
  gppudOff    : Nat
  gppudclk0Off : Nat
  gppudclk1Off : Nat
deriving DecidableEq, Repr

/-- The open parameters of R10. Every other address is an offset from the peripheral base in the source's words; R10
takes each as a parameter of its own. The registry (R221) is a list of exactly two descriptors.
`fselCode` and `pullCode` are tables indexed by the order in which R9 lists the functions and the modes;
a pull code is held as the word whose pull field is the code and whose other bits are 0 (R92). -/
structure Config where
  peripheralBase : Nat
  gpio           : GpioLayout
  fselCode       : Vector (BitVec 3) 8
  pullCode       : Vector Word 3
  uartClock      : Clock
  frTxffBit      : Fin 32
  frRxfeBit      : Fin 32
  lcrhWlen8      : Word
  crEnable       : Word
  registry       : Vector Descriptor 2
  byteLf         : Byte
  byteCr         : Byte
  initPinOrder   : PinOrder
  codecViolation : ViolationMode
deriving DecidableEq, Repr

/-- The free words of `draw_32()` (R12, R72, R152), one per draw, numbered by `State.draws`.
No body: nothing can be proved of any value. Log 3. -/
opaque freeWord : Nat → BitVec 32

end Sys2Proof
end

