-- ==== Sys2Proof/Machine/AddressMap.lean ====
section
/-! DEFINITION. The address map (R61, R62) and the conditions the configuration must meet (R10, R61, R76, R221). -/

namespace Sys2Proof.Machine

/-- The registers of the block (R20): nine GPIO words and six registers per UART. -/
inductive Reg where
  | gpfsel (n : Fin 6)
  | gppud
  | gppudclk (w : Fin 2)
  | dr (u : UartIx)
  | fr (u : UartIx)
  | ibrd (u : UartIx)
  | fbrd (u : UartIx)
  | lcrh (u : UartIx)
  | cr (u : UartIx)
deriving DecidableEq, Repr

/-- The nine GPIO words. -/
def gpioRegs : List Reg :=
  [.gpfsel 0, .gpfsel 1, .gpfsel 2, .gpfsel 3, .gpfsel 4, .gpfsel 5, .gppud, .gppudclk 0, .gppudclk 1]

/-- The six registers of one UART. -/
def uartRegs (u : UartIx) : List Reg := [.dr u, .fr u, .ibrd u, .fbrd u, .lcrh u, .cr u]

/-- All `9 + 6 * NUART` registers (R61). -/
def allRegs : List Reg := gpioRegs ++ uartRegs 0 ++ uartRegs 1

/-- The address of function-select word `n` for any index (R61); only `n <= 5` exists. -/
def gpfselAddr (c : Config) (n : Nat) : Nat := c.gpio.base + c.gpio.gpfselOff + 4 * n

/-- The address of the pull-mode word (R61). -/
def gppudAddr (c : Config) : Nat := c.gpio.base + c.gpio.gppudOff

/-- `CLKADDR(w)`, the address of pull-clock word `w` (R61, R162). -/
def gppudclkAddr (c : Config) (w : Fin 2) : Nat :=
  c.gpio.base + (if w = 0 then c.gpio.gppudclk0Off else c.gpio.gppudclk1Off)

/-- `UART_DR_OFF`, the data register (R9, R61). -/
def drOff : Nat := 0x00

/-- `UART_FR_OFF`, the flag register (R9, R61). -/
def frOff : Nat := 0x18

/-- `UART_IBRD_OFF`, the integer baud divisor (R9, R61). -/
def ibrdOff : Nat := 0x24

/-- `UART_FBRD_OFF`, the fractional baud divisor (R9, R61). -/
def fbrdOff : Nat := 0x28

/-- `UART_LCRH_OFF`, line control (R9, R61). -/
def lcrhOff : Nat := 0x2C

/-- `UART_CR_OFF`, the control register (R9, R61). -/
def crOff : Nat := 0x30

/-- The base address of UART `u`'s register block (R25, R61). -/
def uartBase (c : Config) (u : UartIx) : Nat := c.registry[u].base

/-- The address of a register (R61). -/
def regAddr (c : Config) : Reg → Nat
  | .gpfsel n   => gpfselAddr c n.val
  | .gppud      => gppudAddr c
  | .gppudclk w => gppudclkAddr c w
  | .dr u       => uartBase c u + drOff
  | .fr u       => uartBase c u + frOff
  | .ibrd u     => uartBase c u + ibrdOff
  | .fbrd u     => uartBase c u + fbrdOff
  | .lcrh u     => uartBase c u + lcrhOff
  | .cr u       => uartBase c u + crOff

/-- The register at an address, if the address is one of R61's (R64). -/
def regAt (c : Config) (addr : Nat) : Option Reg := allRegs.find? fun r => regAddr c r == addr

/-- No value occurs twice in the list. -/
def allDistinct : List Nat → Bool
  | []      => true
  | a :: as => !as.contains a && allDistinct as

/-- The four pins of the registry. -/
def registryPins (c : Config) : List Nat :=
  [c.registry[0].tx.val, c.registry[0].rx.val, c.registry[1].tx.val, c.registry[1].rx.val]

/-- `DescriptorsDisjoint` (R76): the four pins are four different pins, and no two registers share an address
(so the bases differ and no UART register stands on a GPIO word). -/
def descriptorsDisjoint (c : Config) : Bool :=
  allDistinct (registryPins c) && allDistinct (allRegs.map (regAddr c))

/-- Every register address is a multiple of 4 (R61, R66). -/
def addressesAligned (c : Config) : Bool := (allRegs.map (regAddr c)).all fun a => a % 4 == 0

/-- "All register addresses are offsets from" the peripheral base (R10 `PERIPHERAL_BASE`, R60). -/
def addressesFromBase (c : Config) : Bool := (allRegs.map (regAddr c)).all fun a => decide (c.peripheralBase ≤ a)

/-- A function that is one of Alt0 to Alt5. -/
def isAlternate : Function → Bool
  | .input | .output => false
  | .alt0 | .alt1 | .alt2 | .alt3 | .alt4 | .alt5 => true

/-- The source's constraints on the registry (R221): two different functions, each an alternate one, two different pin
pairs, two different bases. That every pin is in [0, 53] is its type. -/
def registryConstrained (c : Config) : Bool :=
  decide (c.registry[0].fn ≠ c.registry[1].fn) && isAlternate c.registry[0].fn && isAlternate c.registry[1].fn &&
  decide ((c.registry[0].tx, c.registry[0].rx) ≠ (c.registry[1].tx, c.registry[1].rx)) &&
  decide (c.registry[0].base ≠ c.registry[1].base)

/-- `u`, the index of the registry entry equal to a descriptor operand (44_uart_driver.md's header, D34). -/
def uartIndex (c : Config) (d : Descriptor) : Option UartIx :=
  if c.registry[0] = d then some 0 else if c.registry[1] = d then some 1 else none

end Sys2Proof.Machine
end

