-- ==== Sys2Proof/Machine/Flags.lean ====
section
/-! DEFINITION. The two status flags of the flag register (R34, R95); the block has no condition codes. -/

namespace Sys2Proof.Machine

/-- `TXFF`, the TX-FIFO-full flag, in an answer of FR (R34). -/
def txff (c : Config) (fr : Word) : Bool := fr.getLsbD c.frTxffBit.val

/-- `RXFE`, the RX-FIFO-empty flag, in an answer of FR (R34). -/
def rxfe (c : Config) (fr : Word) : Bool := fr.getLsbD c.frRxfeBit.val

end Sys2Proof.Machine
end

