-- ==== Sys2Proof/Machine/Operands.lean ====
section
/-! DEFINITION. Operand assembly (30_encoding.md section 2) and the two pure functions of the bit-field codec,
which other rules use inside them (R12). -/

namespace Sys2Proof.Machine

/-- `mask(w) = 2^w - 1` (R11), as a word; exact for `w <= 32`. -/
def mask (w : Nat) : Word := BitVec.ofNat 32 (2 ^ w - 1)

/-- The value of `extract_field` inside its input condition (R150). -/
def extractBits (word : Word) (bitOffset width : Nat) : Word := (word >>> bitOffset) &&& mask width

/-- The value of `merge_field` inside its input condition: the value is masked to the field (R151). -/
def mergeBits (word : Word) (bitOffset width : Nat) (value : Word) : Word :=
  (word &&& ~~~(mask width <<< bitOffset)) ||| ((value &&& mask width) <<< bitOffset)

/-- The index of the function-select word of a pin, `pin / 10` (R101). -/
def fselIndex (pin : Pin) : Fin 6 := ⟨pin.val / 10, by omega⟩

/-- The bit offset of a pin's field in its function-select word, `(pin % 10) * 3` (R101). -/
def fselOffset (pin : Pin) : Nat := pin.val % 10 * 3

/-- The pull-clock word of a pin, `pin / 32` (R101). -/
def clkIndex (pin : Pin) : Fin 2 := ⟨pin.val / 32, by omega⟩

/-- The word with only the pin's pull-clock bit set, `1 << (pin % 32)` (R101). -/
def clkWord (pin : Pin) : Word := (1 : Word) <<< (pin.val % 32)

/-- The place of a function in the code table, in the order of R9. -/
def functionIndex : Function → Fin 8
  | .input => 0 | .output => 1 | .alt0 => 2 | .alt1 => 3
  | .alt2 => 4 | .alt3 => 5 | .alt4 => 6 | .alt5 => 7

/-- The eight functions in the order of R9. -/
def allFunctions : List Function := [.input, .output, .alt0, .alt1, .alt2, .alt3, .alt4, .alt5]

/-- `FSEL_CODE` (R102). -/
def fselCode (c : Config) (f : Function) : BitVec 3 := c.fselCode[functionIndex f]

/-- `FSEL_CODE(f)` as the word `merge_field` takes (R160). -/
def fselWord (c : Config) (f : Function) : Word := (fselCode c f).setWidth 32

/-- `FSEL_DECODE`, the inverse of `FSEL_CODE` (R102). -/
def fselDecode (c : Config) (code : BitVec 3) : Option Function :=
  allFunctions.find? fun f => fselCode c f = code

/-- The place of a pull mode in the code table. -/
def pullIndex : PullMode → Fin 3
  | .off => 0 | .pullDown => 1 | .pullUp => 2

/-- `PULL_CODE(m)` as a whole word: the pull field holds the code, every other bit is 0 (R92). -/
def pullWord (c : Config) (m : PullMode) : Word := c.pullCode[pullIndex m]

/-- `PULL_OFF_WORD` (R92). -/
def pullOffWord (c : Config) : Word := pullWord c .off

/-- `zext_32(byte)` (R12, R103). -/
def zext32 (b : Byte) : Word := b.setWidth 32

/-- The low eight bits of a word, `v[7:0]` (R103). -/
def lowByte (v : Word) : Byte := v.setWidth 8

/-- `scaled` of the calculator, in exact non-negative integers (R180). -/
def baudScaled (clock baudrate : Nat) : Nat := (clock * 4 + baudrate / 2) / baudrate

/-- The integer part of the divisor (R180). -/
def baudInteger (clock baudrate : Nat) : Nat := baudScaled clock baudrate / 64

/-- The fractional part of the divisor, in units of 1/64 (R180). -/
def baudFraction (clock baudrate : Nat) : Nat := baudScaled clock baudrate % 64

/-- What `send_string` makes of its operand: a carriage return before every line feed (R198 `out`). -/
def stringOut (c : Config) : List Byte → List Byte
  | [] => []
  | b :: bs => if b = c.byteLf then c.byteCr :: b :: stringOut c bs else b :: stringOut c bs

end Sys2Proof.Machine
end

