-- ==== Sys2Proof/Machine/Defaults.lean ====
section
/-! DEFINITION. The default values of the open parameters (R10, 93_implementation_defined.md GK1 to GK12) and the
family's reset words (GK16). Every one is from general knowledge, so no rule rests on them: they fix only
`State.reset` and `decodeTableWord`. PRESUMED, log 4, 5, 6. -/

namespace Sys2Proof.Machine

/-- The two known board variants (R9 `NBOARD`). -/
inductive Board where
  | first | second
deriving DecidableEq, Repr

/-- The default of `PERIPHERAL_BASE` per board variant (R10, GK1). PRESUMED, log 5. -/
def boardBase : Board → Nat
  | .first  => 0x3F000000
  | .second => 0xFE000000

/-- The defaults of R10 on one board: GK2 to GK12. Registry entry 0 is GK11; entry 1 has no default in the spec:
its pins and function are those of program P6 and its base is a free place (DESIGN CHOICE, log 6). PRESUMED, log 5. -/
def defaultConfig (b : Board) : Config where
  peripheralBase := boardBase b
  gpio           := { base := boardBase b + 0x200000, gpfselOff := 0x00, gppudOff := 0x94,
                      gppudclk0Off := 0x98, gppudclk1Off := 0x9C }
  fselCode       := #v[0, 1, 4, 5, 6, 7, 3, 2]
  pullCode       := #v[0, 1, 2]
  uartClock      := ⟨48000000, by decide⟩
  frTxffBit      := 5
  frRxfeBit      := 4
  lcrhWlen8      := 0x60
  crEnable       := 0x301
  registry       := #v[{ base := boardBase b + 0x201000, tx := 14, rx := 15, fn := .alt0 },
                       { base := boardBase b + 0x201400, tx := 32, rx := 33, fn := .alt3 }]
  byteLf         := 0x0A
  byteCr         := 0x0D
  initPinOrder   := .perPin
  codecViolation := .draw

/-- The words the spec leaves unspecified after reset (R40): "any word", arguments of the launch state. -/
structure PowerOn where
  gpfsel   : Vector Word 6
  gppud    : Word
  gppudclk : Vector Word 2
  ibrd     : Vector Word 2
  fbrd     : Vector Word 2
  lcrh     : Vector Word 2
  cr       : Vector Word 2
deriving DecidableEq, Repr

/-- The family's reset words (GK16), which go with the family's layout in `defaultConfig`. PRESUMED, log 4. -/
def familyPowerOn : PowerOn where
  gpfsel   := #v[0, 0, 0, 0, 0, 0]
  gppud    := 0
  gppudclk := #v[0, 0]
  ibrd     := #v[0, 0]
  fbrd     := #v[0, 0]
  lcrh     := #v[0, 0]
  cr       := #v[0x300, 0x300]

end Sys2Proof.Machine
end

