-- ==== Sys2Proof/Decode.lean ====
section
/-! DEFINITION. The two encodings of the operation map: format `OP`, a 4-bit selector (R105), and format `UOP`, an
11-bit micro-operation descriptor `k we blk off[7:0]` (R106). Operands do not stand in the bits: they travel on typed
ports (R105). The decoder is total and rejects by name; the encoder follows it. -/

namespace Sys2Proof

/-- The bits of an instruction, in one of the two formats. -/
inductive Code where
  /-- Format `OP`, the selector `op[3:0]` (R105). -/
  | op (sel : BitVec 4)
  /-- Format `UOP`, the descriptor (R106). -/
  | uop (desc : BitVec 11)
deriving DecidableEq, Repr

/-- The host's operand ports, one per operand of 30_encoding.md R105 and R106, each of its own type. -/
structure Ports where
  word      : Word
  bitOffset : Nat
  width     : Nat
  value     : Word
  pin       : Int
  function  : Function
  clock     : Clock
  baudrate  : Word
  d         : Descriptor
  byte      : Byte
  bytes     : List Byte
  index     : Int
  data      : Word
  cycles    : Nat
deriving DecidableEq, Repr

/-- What the host puts on its ports to issue an instruction: the code and the operands. -/
structure Encoded where
  code  : Code
  ports : Ports
deriving DecidableEq, Repr

/-- Why a code spells no instruction. -/
inductive Reject where
  /-- A selector 1010 to 1111 (R108). -/
  | noSuchOperation
  /-- A descriptor that is no pattern of R106 (R108). -/
  | noSuchMicroOperation
deriving DecidableEq, Repr

/-- Every port at zero, the clock port, which has no zero, at 1 (R100); the descriptor port, which has no bits (R100),
holds the descriptor given. Log 7. -/
def zeroPorts (d : Descriptor) : Ports :=
  { word := 0, bitOffset := 0, width := 0, value := 0, pin := 0, function := .input,
    clock := ⟨1, by decide⟩, baudrate := 0,
    d := d, byte := 0, bytes := [], index := 0, data := 0, cycles := 0 }

/-- Format `OP`: the selector names the operation, the ports its operands (R105). -/
def decodeOp (sel : BitVec 4) (p : Ports) : Except Reject Instr :=
  match sel.toNat with
  | 0 => .ok (.extractField p.word p.bitOffset p.width)
  | 1 => .ok (.mergeField p.word p.bitOffset p.width p.value)
  | 2 => .ok (.setFunction p.pin p.function)
  | 3 => .ok (.enablePin p.pin)
  | 4 => .ok (.baudDivisor p.clock p.baudrate)
  | 5 => .ok (.init p.d p.baudrate)
  | 6 => .ok (.send p.d p.byte)
  | 7 => .ok (.recv p.d)
  | 8 => .ok (.sendString p.d p.bytes)
  | 9 => .ok (.getByIndex p.index)
  | _ => .error .noSuchOperation

/-- `k`, bit 10 of a descriptor (R106). -/
def descK (desc : BitVec 11) : Bool := desc.getLsbD 10

/-- `we`, bit 9 of a descriptor (R106). -/
def descWe (desc : BitVec 11) : Bool := desc.getLsbD 9

/-- `blk`, bit 8 of a descriptor (R106). -/
def descBlk (desc : BitVec 11) : Bool := desc.getLsbD 8

/-- `off[7:0]` of a descriptor (R106). -/
def descOff (desc : BitVec 11) : Nat := desc.toNat % 256

/-- The function-select word at an offset of the GPIO block, `GPFSEL_OFF + 4n` with `n` in 0..5 (R106). -/
def gpfselAtOff (g : GpioLayout) (off : Nat) : Option (Fin 6) :=
  [0, 1, 2, 3, 4, 5].find? fun n : Fin 6 => g.gpfselOff + 4 * n.val == off

/-- A GPIO transaction's row; the GPIO offsets are parameters and the descriptors move with them (R106). -/
def decodeGpio (g : GpioLayout) (we : Bool) (off : Nat) (p : Ports) : Except Reject Instr :=
  match gpfselAtOff g off, we with
  | some n, false => .ok (.rdGpfsel n)
  | some n, true  => .ok (.wrGpfsel n p.data)
  | none,   false => .error .noSuchMicroOperation
  | none,   true  =>
    if off = g.gppudOff then .ok (.wrGppud p.data)
    else if off = g.gppudclk0Off then .ok (.wrGppudclk0 p.data)
    else if off = g.gppudclk1Off then .ok (.wrGppudclk1 p.data)
    else .error .noSuchMicroOperation

/-- A UART transaction's row; the UART offsets are the source's (R106). -/
def decodeUart (we : Bool) (off : Nat) (p : Ports) : Except Reject Instr :=
  match we, off with
  | false, 0x00 => .ok (.rdDr p.d)
  | false, 0x18 => .ok (.rdFr p.d)
  | true,  0x00 => .ok (.wrDr p.d p.data)
  | true,  0x24 => .ok (.wrIbrd p.d p.data)
  | true,  0x28 => .ok (.wrFbrd p.d p.data)
  | true,  0x2C => .ok (.wrLcrh p.d p.data)
  | true,  0x30 => .ok (.wrCr p.d p.data)
  | _,     _    => .error .noSuchMicroOperation

/-- Format `UOP` (R106). -/
def decodeUop (g : GpioLayout) (desc : BitVec 11) (p : Ports) : Except Reject Instr :=
  if descK desc then
    if desc = 0x400 then .ok (.delay p.cycles) else .error .noSuchMicroOperation
  else if descBlk desc then decodeUart (descWe desc) (descOff desc) p
  else decodeGpio g (descWe desc) (descOff desc) p

/-- The decoder: total, rejecting by name. -/
def decode (g : GpioLayout) (e : Encoded) : Except Reject Instr :=
  match e.code with
  | .op sel   => decodeOp sel e.ports
  | .uop desc => decodeUop g desc e.ports

/-- The decoder on a row of spec/opcode_table.json: a row of format `OP` has 4 bits, so one byte, and a row of
format `UOP` has 11 bits, so two. The defaults of R10 give the GPIO offsets, every port is at zero, and the
descriptor port holds registry entry 0 (log 7). -/
def decodeTableWord (nbits w : Nat) : Option Instr :=
  let c := Machine.defaultConfig .first
  let ports := zeroPorts c.registry[0]
  if nbits ≤ 8 then
    if w < 16 then (decode c.gpio ⟨.op (BitVec.ofNat 4 w), ports⟩).toOption else none
  else if w < 2048 then (decode c.gpio ⟨.uop (BitVec.ofNat 11 w), ports⟩).toOption else none

/-! The encoder, from the same tables (R105, R106). -/

/-- A transaction's descriptor `0 we blk off[7:0]` (R106). -/
def transactionDesc (we blk : Bool) (off : Nat) : BitVec 11 :=
  BitVec.ofNat 11 ((if we then 512 else 0) + (if blk then 256 else 0) + off % 256)

/-- A descriptor for the ports of an instruction that has no descriptor operand. -/
def noDescriptor : Descriptor := { base := 0, tx := 0, rx := 0, fn := .input }

/-- The ports with every operand an instruction does not have at zero. -/
def idlePorts : Ports := zeroPorts noDescriptor

/-- The code and the ports of an instruction. -/
def encode (g : GpioLayout) : Instr → Encoded
  | .extractField w o n   => ⟨.op 0, { idlePorts with word := w, bitOffset := o, width := n }⟩
  | .mergeField w o n v   => ⟨.op 1, { idlePorts with word := w, bitOffset := o, width := n, value := v }⟩
  | .setFunction p f      => ⟨.op 2, { idlePorts with pin := p, function := f }⟩
  | .enablePin p          => ⟨.op 3, { idlePorts with pin := p }⟩
  | .baudDivisor f b      => ⟨.op 4, { idlePorts with clock := f, baudrate := b }⟩
  | .init d b             => ⟨.op 5, { idlePorts with d := d, baudrate := b }⟩
  | .send d b             => ⟨.op 6, { idlePorts with d := d, byte := b }⟩
  | .recv d               => ⟨.op 7, { idlePorts with d := d }⟩
  | .sendString d bs      => ⟨.op 8, { idlePorts with d := d, bytes := bs }⟩
  | .getByIndex i         => ⟨.op 9, { idlePorts with index := i }⟩
  | .rdGpfsel n           => ⟨.uop (transactionDesc false false (g.gpfselOff + 4 * n.val)), idlePorts⟩
  | .wrGpfsel n v         => ⟨.uop (transactionDesc true false (g.gpfselOff + 4 * n.val)), { idlePorts with data := v }⟩
  | .wrGppud v            => ⟨.uop (transactionDesc true false g.gppudOff), { idlePorts with data := v }⟩
  | .wrGppudclk0 v        => ⟨.uop (transactionDesc true false g.gppudclk0Off), { idlePorts with data := v }⟩
  | .wrGppudclk1 v        => ⟨.uop (transactionDesc true false g.gppudclk1Off), { idlePorts with data := v }⟩
  | .rdDr d               => ⟨.uop (transactionDesc false true 0x00), { idlePorts with d := d }⟩
  | .wrDr d v             => ⟨.uop (transactionDesc true true 0x00), { idlePorts with d := d, data := v }⟩
  | .rdFr d               => ⟨.uop (transactionDesc false true 0x18), { idlePorts with d := d }⟩
  | .wrIbrd d v           => ⟨.uop (transactionDesc true true 0x24), { idlePorts with d := d, data := v }⟩
  | .wrFbrd d v           => ⟨.uop (transactionDesc true true 0x28), { idlePorts with d := d, data := v }⟩
  | .wrLcrh d v           => ⟨.uop (transactionDesc true true 0x2C), { idlePorts with d := d, data := v }⟩
  | .wrCr d v             => ⟨.uop (transactionDesc true true 0x30), { idlePorts with d := d, data := v }⟩
  | .delay n              => ⟨.uop 0x400, { idlePorts with cycles := n }⟩

/-- The offsets of the nine GPIO words in a list. -/
def gpioOffsets (g : GpioLayout) : List Nat :=
  [g.gpfselOff, g.gpfselOff + 4, g.gpfselOff + 8, g.gpfselOff + 12, g.gpfselOff + 16, g.gpfselOff + 20,
   g.gppudOff, g.gppudclk0Off, g.gppudclk1Off]

/-- The GPIO offsets fit the descriptor's 8-bit field and no two words share one, so that each descriptor of R106
spells one micro-operation. -/
def descriptorsFit (g : GpioLayout) : Bool :=
  (gpioOffsets g).all (fun o => decide (o < 256)) && decide (gpioOffsets g).Nodup

end Sys2Proof
end

