-- ==== Sys2Proof/Machine/State.lean ====
section
/-! DEFINITION. The state of the block (R20), the outcomes of an operation (R230), the refusals (R235) and the
launch state (R40, R260). Plain data throughout. -/

namespace Sys2Proof.Machine

/-- An event of the trace (R35). -/
inductive Event where
  /-- `Rd(addr, v)`: a read transaction that returned `v`. -/
  | rd (addr : Nat) (v : Word)
  /-- `Wr(addr, v)`: a write transaction. -/
  | wr (addr : Nat) (v : Word)
  /-- `Dl(n)`: a delay of at least `n` cycles. -/
  | dl (n : Nat)
deriving DecidableEq, Repr

/-- The driver state of a UART, ghost state kept by the spec (R37). -/
inductive Driver where
  | unconfigured | configured | enabled
deriving DecidableEq, Repr

/-- The outcome codes (R230). -/
inductive OutcomeCode where
  | ok | notFound | divisorSkipped
deriving DecidableEq, Repr

/-- What the result port holds (R105, column result port). -/
inductive Result where
  /-- No value: the operation has none, or has not ended. -/
  | none
  | word (v : Word)
  | byte (b : Byte)
  /-- The pair of `baud_divisor`, exact non-negative integers (R180, R184). -/
  | divisors (integer fraction : Nat)
  | descriptor (d : Descriptor)
  /-- The absent value of `get_by_index` (R220). -/
  | absent
deriving DecidableEq, Repr

/-- The sequencer's latches (R32); `none` is unwritten. -/
structure Latches where
  word   : Option Word
  idx    : Option Nat
  off    : Option Nat
  scaled : Option Nat
  ibrd   : Option Nat
  fbrd   : Option Nat
  i      : Option Nat
  res    : Option OutcomeCode
deriving DecidableEq, Repr

/-- All latches unwritten, as at the start of every operation (R32). -/
def Latches.unwritten : Latches :=
  { word := .none, idx := .none, off := .none, scaled := .none, ibrd := .none, fbrd := .none, i := .none, res := .none }

/-- The six operations that run as micro-steps, with their operands (R33); the four others are combinational (R107). -/
inductive Operation where
  | setFunction (pin : Pin) (function : Function)
  | enablePin (pin : Pin)
  | init (d : Descriptor) (baudrate : Word)
  | send (d : Descriptor) (byte : Byte)
  | recv (d : Descriptor)
  | sendString (d : Descriptor) (bytes : List Byte)
deriving DecidableEq, Repr

/-- The sequencer (R33): idle, or running an operation whose next micro-step is `upc`. -/
inductive Seq where
  | idle
  | running (op : Operation) (upc : Nat) (lat : Latches)
deriving DecidableEq, Repr

/-- The storage registers of one UART, its driver state and its transmit log (R28 to R31, R36, R37). -/
structure Uart where
  ibrd  : Word
  fbrd  : Word
  lcrh  : Word
  cr    : Word
  drv   : Driver
  txLog : List Byte
deriving DecidableEq, Repr

/-- The scripted answers of the environment still to come for one UART, oldest first; past the script's end every
answer is a free word (R72). Log 3. -/
structure Answers where
  fr : List Word
  dr : List Word
deriving DecidableEq, Repr

/-- What the host asks for: an instruction on the ports, or a raw transaction of any address and size
(40_register_access.md, "A model may expose them to the host for tests"). -/
inductive Request where
  | issue (e : Encoded)
  | read (addr size : Nat)
  | write (addr size : Nat) (v : Word)
deriving DecidableEq, Repr

/-- One act of the host. A host that keeps its contract waits until the sequencer is idle (`early = false`);
one that issues early while an operation runs is refused (R244). Log 2. -/
structure HostAct where
  early   : Bool
  request : Request
deriving DecidableEq, Repr

/-- The state (R20), the result port (R33, R230), and the arguments of the spec's step relation that the model carries
along: the parameters (log 1), the host's acts to come (log 2), the environment's answers to come (log 3). -/
structure State where
  /-- The parameters (R10); no step changes them. -/
  cfg      : Config
  /-- `GPFSEL[0..5]` (R22). -/
  gpfsel   : Vector Word 6
  /-- `GPPUD` (R23). -/
  gppud    : Word
  /-- `GPPUDCLK[0..1]` (R24). -/
  gppudclk : Vector Word 2
  /-- `UART[u]` (R25). -/
  uart     : Vector Uart 2
  /-- The sequencer (R33). -/
  seq      : Seq
  /-- The trace, oldest first (R35). -/
  trace    : List Event
  /-- The outcome code on the result port; none while no operation has ended since the last issue (R230). -/
  outcome  : Option OutcomeCode
  /-- The value on the result port (R32). -/
  result   : Result
  /-- The host's acts to come (R20, R33). -/
  host     : List HostAct
  /-- The environment's scripted answers to come (R72). -/
  answers  : Vector Answers 2
  /-- How many free words have been drawn: the model's own field, log 3. -/
  draws    : Nat
deriving DecidableEq, Repr

/-- The faults. The hardware has none (R236): each marks a state that no run reaches, and stopping there is safe. -/
inductive Fault where
  /-- A micro-step reads a latch that is unwritten (R32: an error of transcription, not a behaviour). Safe. -/
  | unwrittenLatch
  /-- `upc` names no micro-step of the running operation (R146: such a target cannot be written). Safe. -/
  | noSuchMicroStep
  /-- `t.i` is past the end of the byte string (R198: S1 returns first). Safe. -/
  | noSuchByte
deriving DecidableEq, Repr

/-- The refusals: the complete list of R235, and `notModelled`. Each is the spec's own; a refused operation performs
no transaction (R238). All are safe. -/
inductive Refusal where
  /-- Raised by a dispatch arm without a meaning; no arm has it. Safe. -/
  | notModelled (mnemonic : String)
  /-- Raised by the fetch for a selector 1010 to 1111 or a descriptor that is no pattern of R106 (R108, U8). Safe. -/
  | noSuchOperation
  /-- Raised by `set_function` and `enable_pin` for a pin outside [0, 53] (R161). Safe. -/
  | pinOutOfRange
  /-- Raised by the codec operations when `CODEC_VIOLATION = refuse` (R152). Safe. -/
  | codecInputCondition
  /-- Raised by `init` when the integer divisor is no Word (R184). Safe. -/
  | calculatorOverflow
  /-- Raised by `send`, `recv`, `send_string` on a UART that is not `Enabled` (R192). Safe. -/
  | uartNotEnabled
  /-- Raised for a descriptor operand that is no registry entry (D34). Safe. -/
  | unknownDescriptor
  /-- Raised by everything the host issues when `DescriptorsDisjoint` fails (R76, R234). Safe. -/
  | aliasedConfiguration
  /-- Raised when the host issues while an operation runs (R244). Safe. -/
  | sequencerBusy
  /-- Raised by a raw transaction at an address that is no register of the block (R64). Safe. -/
  | unmappedAddress
  /-- Raised by a transaction at an address that is no multiple of 4 (R66). Safe. -/
  | misaligned
  /-- Raised by a raw transaction of a size other than 4 (R66). Safe. -/
  | badAccessSize
  /-- Raised by a raw write of FR (R137). Safe. -/
  | writeToFlagRegister
  /-- Raised by a raw write of DR without a poll that let it pass just before it: the last FR answer had `TXFF = 1`
  (R139), or the last access of that UART was no read of FR (R269, D32; log 13). Safe. -/
  | writeToFullTransmitBuffer
deriving DecidableEq, Repr

/-- The launch state (R40, R260) for given parameters and given unspecified words. -/
def State.launch (c : Config) (p : PowerOn) : State where
  cfg      := c
  gpfsel   := p.gpfsel
  gppud    := p.gppud
  gppudclk := p.gppudclk
  uart     := #v[{ ibrd := p.ibrd[0], fbrd := p.fbrd[0], lcrh := p.lcrh[0], cr := p.cr[0], drv := .unconfigured, txLog := [] },
                 { ibrd := p.ibrd[1], fbrd := p.fbrd[1], lcrh := p.lcrh[1], cr := p.cr[1], drv := .unconfigured, txLog := [] }]
  seq      := .idle
  trace    := []
  outcome  := none
  result   := .none
  host     := []
  answers  := #v[{ fr := [], dr := [] }, { fr := [], dr := [] }]
  draws    := 0

/-- The machine right after reset: the launch state at the default parameters and the family's reset words. -/
def State.reset : State := State.launch (defaultConfig .first) familyPowerOn

end Sys2Proof.Machine
end

