-- ==== Sys2Proof/Machine/Ops.lean ====
section
/-! DEFINITION. The named operations over the state: the trace, the result port, the sequencer, the registers, the two
primitives `MemRead` and `MemWrite` (R130, R131), the delay (R145), and the checks made before an operation begins
(R238). The block has no exception entry and no return from one (R239, R240): every operation ends through `finish`,
which puts an outcome code on the result port. -/

namespace Sys2Proof.Machine

/-- An answer of the machine carrying a value. -/
abbrev Answer (α : Type) := Host.Outcome α Fault Refusal

/-- Go on with the value, or stop where the first part stopped. -/
def andThen {α β : Type} (x : Answer α) (f : α → Answer β) : Answer β :=
  match x with
  | .next a    => f a
  | .fault r   => .fault r
  | .refused r => .refused r

/-! The trace, the result port, the sequencer. -/

/-- Append one event to the trace (R35). -/
def logEvent (e : Event) (s : State) : State := { s with trace := s.trace ++ [e] }

/-- The number of an outcome code (R230). -/
def outcomeNumber : OutcomeCode → Nat
  | .ok => 0 | .notFound => 1 | .divisorSkipped => 2

/-- An operation ends: the result port holds the value and the outcome code, the sequencer is idle (R12, R33, R239). -/
def finish (code : OutcomeCode) (r : Result) (s : State) : State :=
  { s with seq := .idle, outcome := some code, result := r }

/-- The host issues a micro-stepped operation to the idle sequencer: it runs from S0 with every latch unwritten (R33);
the result port is empty until it ends (log 8). -/
def beginOp (op : Operation) (s : State) : State :=
  { s with seq := .running op 0 Latches.unwritten, outcome := none, result := .none }

/-- `upc <- Sk` within the running operation (R33, R146). -/
def goTo (op : Operation) (upc : Nat) (lat : Latches) (s : State) : State :=
  { s with seq := .running op upc lat }

/-- Read a latch; an unwritten one is an error of transcription (R32). -/
def withLatch {α β : Type} (l : Option α) (f : α → Answer β) : Answer β :=
  match l with
  | some a => f a
  | none   => .fault .unwrittenLatch

/-! The registers. -/

/-- Replace UART `u`. -/
def setUart (u : UartIx) (x : Uart) (s : State) : State := { s with uart := s.uart.set u x }

/-- Set the driver state of UART `u` (R37). -/
def setDriver (u : UartIx) (d : Driver) (s : State) : State := setUart u { s.uart[u] with drv := d } s

/-- The word a storage register holds (R21); DR and FR are not storage (R26, R27). -/
def stored (s : State) : Reg → Option Word
  | .gpfsel n   => some s.gpfsel[n]
  | .gppud      => some s.gppud
  | .gppudclk w => some s.gppudclk[w]
  | .dr _       => none
  | .fr _       => none
  | .ibrd u     => some s.uart[u].ibrd
  | .fbrd u     => some s.uart[u].fbrd
  | .lcrh u     => some s.uart[u].lcrh
  | .cr u       => some s.uart[u].cr

/-- `draw_32()` (R12): the next free word. -/
def draw (s : State) : Word × State := (freeWord s.draws, { s with draws := s.draws + 1 })

/-- The environment's answer to a read of FR (R27, R72): the script's next answer, or a free word. -/
def answerFr (u : UartIx) (s : State) : Word × State :=
  match s.answers[u].fr with
  | v :: rest => (v, { s with answers := s.answers.set u { s.answers[u] with fr := rest } })
  | []        => draw s

/-- The environment's answer to a read of DR (R26, R72): the script's next answer, or a free word. -/
def answerDr (u : UartIx) (s : State) : Word × State :=
  match s.answers[u].dr with
  | v :: rest => (v, { s with answers := s.answers.set u { s.answers[u] with dr := rest } })
  | []        => draw s

/-- A read of a register, without its event: a storage register answers its word and changes nothing (R21), FR and DR
are answered by the environment (R72). -/
def readReg (s : State) : Reg → Word × State
  | .gpfsel n   => (s.gpfsel[n], s)
  | .gppud      => (s.gppud, s)
  | .gppudclk w => (s.gppudclk[w], s)
  | .dr u       => answerDr u s
  | .fr u       => answerFr u s
  | .ibrd u     => (s.uart[u].ibrd, s)
  | .fbrd u     => (s.uart[u].fbrd, s)
  | .lcrh u     => (s.uart[u].lcrh, s)
  | .cr u       => (s.uart[u].cr, s)

/-- A write of a register, without its event (R131): a storage register takes the whole word (R21), DR hands the low
byte to the transmit buffer (R26, R36), FR has no meaning (R137). -/
def writeReg (r : Reg) (v : Word) (s : State) : Answer State :=
  match r with
  | .gpfsel n   => .next { s with gpfsel := s.gpfsel.set n v }
  | .gppud      => .next { s with gppud := v }
  | .gppudclk w => .next { s with gppudclk := s.gppudclk.set w v }
  | .dr u       => .next (setUart u { s.uart[u] with txLog := s.uart[u].txLog ++ [lowByte v] } s)
  | .fr _       => .refused .writeToFlagRegister
  | .ibrd u     => .next (setUart u { s.uart[u] with ibrd := v } s)
  | .fbrd u     => .next (setUart u { s.uart[u] with fbrd := v } s)
  | .lcrh u     => .next (setUart u { s.uart[u] with lcrh := v } s)
  | .cr u       => .next (setUart u { s.uart[u] with cr := v } s)

/-- The register an access reaches: only size 4 (R66), only multiples of 4 (R66), only the addresses of R61 (R64).
Checked in this order (log 12). -/
def access (c : Config) (addr size : Nat) : Answer Reg :=
  if size ≠ 4 then .refused .badAccessSize
  else if addr % 4 ≠ 0 then .refused .misaligned
  else match regAt c addr with
    | some r => .next r
    | none   => .refused .unmappedAddress

/-- `MemRead(addr, size)` (R130): one atomic, ordered transaction and one event. -/
def memRead (addr size : Nat) (s : State) : Answer (Word × State) :=
  andThen (access s.cfg addr size) fun r =>
    .next ((readReg s r).1, logEvent (.rd addr (readReg s r).1) (readReg s r).2)

/-- `MemWrite(addr, size, v)` (R131): one atomic, ordered transaction and one event. -/
def memWrite (addr size : Nat) (v : Word) (s : State) : Answer State :=
  andThen (access s.cfg addr size) fun r =>
    andThen (writeReg r v s) fun t => .next (logEvent (.wr addr v) t)

/-- `Delay(n)` (R145): no transaction, no register, one event; it always ends. -/
def delayFor (n : Nat) (s : State) : State := logEvent (.dl n) s

/-! The checks before an operation begins, in the order of R238. -/

/-- `sequencer_busy` (R244), then `aliased_configuration` (R76). -/
def whenReady (s : State) (x : Answer State) : Answer State :=
  if s.seq ≠ .idle then .refused .sequencerBusy
  else if descriptorsDisjoint s.cfg then x
  else .refused .aliasedConfiguration

/-- `unknown_descriptor` (D34): the UART of a descriptor operand. -/
def withUart (d : Descriptor) (s : State) (f : UartIx → Answer State) : Answer State :=
  match uartIndex s.cfg d with
  | some u => f u
  | none   => .refused .unknownDescriptor

/-- `pin_out_of_range` (R161). -/
def withPin (pin : Int) (f : Pin → Answer State) : Answer State :=
  if h : 0 ≤ pin ∧ pin ≤ 53 then f ⟨pin.toNat, by omega⟩ else .refused .pinOutOfRange

/-- `uart_not_enabled` (R192). -/
def whenEnabled (u : UartIx) (s : State) (x : Answer State) : Answer State :=
  if s.uart[u].drv = .enabled then x else .refused .uartNotEnabled

/-! Raw transactions, as the host may issue them on an idle sequencer (40_register_access.md). -/

/-- An event that is an access of UART `u`: a transaction at one of its six registers. -/
def touchesUart (c : Config) (u : UartIx) : Event → Bool
  | .rd a _ => (uartRegs u).any fun r => regAddr c r == a
  | .wr a _ => (uartRegs u).any fun r => regAddr c r == a
  | .dl _   => false

/-- The last access of UART `u`, from the trace. -/
def lastAccess (u : UartIx) (s : State) : Option Event := s.trace.reverse.find? (touchesUart s.cfg u)

/-- The last access of UART `u` is a read of its flag register that answered `TXFF = 0` (R73, R269). -/
def transmitPolled (u : UartIx) (s : State) : Bool :=
  match lastAccess u s with
  | some (.rd a v) => a == uartBase s.cfg u + frOff && !txff s.cfg v
  | _              => false

/-- A raw read: the transaction of R130, its word on the result port. -/
def rawRead (addr size : Nat) (s : State) : Answer State :=
  andThen (memRead addr size s) fun p => .next (finish .ok (.word p.1) p.2)

/-- A raw write: the transaction of R131; a write of DR goes through only after a poll that lets it pass, with no other
access of that UART in between (R139, R269, D32; log 13). -/
def rawWrite (addr size : Nat) (v : Word) (s : State) : Answer State :=
  andThen (access s.cfg addr size) fun r =>
    match r with
    | .dr u => if transmitPolled u s then andThen (memWrite addr size v s) fun t => .next (finish .ok .none t)
               else .refused .writeToFullTransmitBuffer
    | _     => andThen (memWrite addr size v s) fun t => .next (finish .ok .none t)

end Sys2Proof.Machine
end

