-- ==== Sys2Proof/Machine/Baud.lean ====
section
/-! DEFINITION. The baud-rate divisor calculator (43_baud_calc.md): combinational, exact integers. -/

namespace Sys2Proof.Machine

/-- `baud_divisor(F, baudrate)` issued directly (R180); a baud rate of 0 gives no pair and the outcome
`DIVISOR_SKIPPED` (R183). -/
def execBaudDivisor (clock : Clock) (baudrate : Word) (s : State) : Answer State :=
  whenReady s <|
    if baudrate = 0 then .next (finish .divisorSkipped .none s)
    else .next (finish .ok (.divisors (baudInteger clock.val baudrate.toNat) (baudFraction clock.val baudrate.toNat)) s)

end Sys2Proof.Machine
end

