-- ==== Sys2Proof/Machine/Codec.lean ====
section
/-! DEFINITION. The bit-field codec (41_bitfield_codec.md): combinational, no event, no register. -/

namespace Sys2Proof.Machine

/-- A codec call: inside the input condition the value, outside it `codec_violation()` (R152). -/
def codecCall (bitOffset width : Nat) (value : Word) (s : State) : Answer State :=
  if bitOffset + width ≤ 32 then .next (finish .ok (.word value) s)
  else match s.cfg.codecViolation with
    | .draw   => .next (finish .ok (.word (draw s).1) (draw s).2)
    | .refuse => .refused .codecInputCondition

/-- `extract_field(word, bit_offset, width)` (R150). -/
def execExtractField (word : Word) (bitOffset width : Nat) (s : State) : Answer State :=
  whenReady s (codecCall bitOffset width (extractBits word bitOffset width) s)

/-- `merge_field(word, bit_offset, width, value)` (R151). -/
def execMergeField (word : Word) (bitOffset width : Nat) (value : Word) (s : State) : Answer State :=
  whenReady s (codecCall bitOffset width (mergeBits word bitOffset width value) s)

end Sys2Proof.Machine
end

