-- ==== Sys2Proof/Machine/GpioMux.lean ====
section
/-! DEFINITION. The GPIO pin multiplexer (42_gpio_mux.md): the two operations and their micro-steps. A micro-step body
answers the state and the latches; where the operation goes next is decided by its caller, because `init` runs the same
steps in line (R33). -/

namespace Sys2Proof.Machine

/-- The micro-steps S0 to S2 of `set_function(pin, function)` (R160). -/
def setFunctionBody (pin : Pin) (f : Function) (k : Nat) (lat : Latches) (s : State) : Answer (State × Latches) :=
  match k with
  | 0 => .next (s, { lat with idx := some (fselIndex pin).val, off := some (fselOffset pin) })
  | 1 => withLatch lat.idx fun idx =>
           andThen (memRead (gpfselAddr s.cfg idx) 4 s) fun p => .next (p.2, { lat with word := some p.1 })
  | 2 => withLatch lat.idx fun idx => withLatch lat.off fun off => withLatch lat.word fun word =>
           andThen (memWrite (gpfselAddr s.cfg idx) 4 (mergeBits word off 3 (fselWord s.cfg f)) s) fun t => .next (t, lat)
  | _ => .fault .noSuchMicroStep

/-- The micro-steps S0 to S5 of `enable_pin(pin)` (R162), one per step of the six-step protocol (R164); step 3 is a
plain write (R163). -/
def enablePinBody (pin : Pin) (k : Nat) (lat : Latches) (s : State) : Answer (State × Latches) :=
  match k with
  | 0 => andThen (memWrite (gppudAddr s.cfg) 4 (pullOffWord s.cfg) s) fun t => .next (t, lat)
  | 1 => .next (delayFor 150 s, lat)
  | 2 => andThen (memWrite (gppudclkAddr s.cfg (clkIndex pin)) 4 (clkWord pin) s) fun t => .next (t, lat)
  | 3 => .next (delayFor 150 s, lat)
  | 4 => andThen (memWrite (gppudAddr s.cfg) 4 (pullOffWord s.cfg) s) fun t => .next (t, lat)
  | 5 => andThen (memWrite (gppudclkAddr s.cfg (clkIndex pin)) 4 0 s) fun t => .next (t, lat)
  | _ => .fault .noSuchMicroStep

/-- A micro-step of a running `set_function`: S2 returns (R160). -/
def setFunctionStep (pin : Pin) (f : Function) (upc : Nat) (lat : Latches) (s : State) : Answer State :=
  andThen (setFunctionBody pin f upc lat s) fun p =>
    if upc = 2 then .next (finish .ok .none p.1) else .next (goTo (.setFunction pin f) (upc + 1) p.2 p.1)

/-- A micro-step of a running `enable_pin`: S5 returns (R162). -/
def enablePinStep (pin : Pin) (upc : Nat) (lat : Latches) (s : State) : Answer State :=
  andThen (enablePinBody pin upc lat s) fun p =>
    if upc = 5 then .next (finish .ok .none p.1) else .next (goTo (.enablePin pin) (upc + 1) p.2 p.1)

/-- `set_function(pin, function)` is issued (R160, R161). -/
def execSetFunction (pin : Int) (f : Function) (s : State) : Answer State :=
  whenReady s (withPin pin fun p => .next (beginOp (.setFunction p f) s))

/-- `enable_pin(pin)` is issued (R162, R161). -/
def execEnablePin (pin : Int) (s : State) : Answer State :=
  whenReady s (withPin pin fun p => .next (beginOp (.enablePin p) s))

end Sys2Proof.Machine
end

