-- ==== Sys2Proof/Machine/RegisterAccess.lean ====
section
/-! DEFINITION. The thirteen micro-operations (40_register_access.md), issued by the host on an idle sequencer: "A model
may expose them to the host for tests; then every rule below holds as written". Log 10. -/

namespace Sys2Proof.Machine

/-- `RD.GPFSEL[n]` (R132). -/
def execRdGpfsel (n : Fin 6) (s : State) : Answer State := whenReady s (rawRead (gpfselAddr s.cfg n.val) 4 s)

/-- `WR.GPFSEL[n] <- v` (R133). -/
def execWrGpfsel (n : Fin 6) (v : Word) (s : State) : Answer State :=
  whenReady s (rawWrite (gpfselAddr s.cfg n.val) 4 v s)

/-- `WR.GPPUD <- v` (R134). -/
def execWrGppud (v : Word) (s : State) : Answer State := whenReady s (rawWrite (gppudAddr s.cfg) 4 v s)

/-- `WR.GPPUDCLK[0] <- v` (R135). -/
def execWrGppudclk0 (v : Word) (s : State) : Answer State := whenReady s (rawWrite (gppudclkAddr s.cfg 0) 4 v s)

/-- `WR.GPPUDCLK[1] <- v` (R135). -/
def execWrGppudclk1 (v : Word) (s : State) : Answer State := whenReady s (rawWrite (gppudclkAddr s.cfg 1) 4 v s)

/-- `RD.DR` (R138): a read whose last FR answer had `RXFE = 1` is a draw like any other (log 14). -/
def execRdDr (d : Descriptor) (s : State) : Answer State :=
  whenReady s (withUart d s fun _ => rawRead (d.base + drOff) 4 s)

/-- `WR.DR <- v` (R139), only after a poll that lets it pass (R269, log 13). -/
def execWrDr (d : Descriptor) (v : Word) (s : State) : Answer State :=
  whenReady s (withUart d s fun _ => rawWrite (d.base + drOff) 4 v s)

/-- `RD.FR` (R136). -/
def execRdFr (d : Descriptor) (s : State) : Answer State :=
  whenReady s (withUart d s fun _ => rawRead (d.base + frOff) 4 s)

/-- `WR.IBRD <- v` (R140). -/
def execWrIbrd (d : Descriptor) (v : Word) (s : State) : Answer State :=
  whenReady s (withUart d s fun _ => rawWrite (d.base + ibrdOff) 4 v s)

/-- `WR.FBRD <- v` (R141); a word of 64 or more is stored whole like any write (R131, log 17). -/
def execWrFbrd (d : Descriptor) (v : Word) (s : State) : Answer State :=
  whenReady s (withUart d s fun _ => rawWrite (d.base + fbrdOff) 4 v s)

/-- `WR.LCRH <- v` (R142). -/
def execWrLcrh (d : Descriptor) (v : Word) (s : State) : Answer State :=
  whenReady s (withUart d s fun _ => rawWrite (d.base + lcrhOff) 4 v s)

/-- `WR.CR <- v` (R143). -/
def execWrCr (d : Descriptor) (v : Word) (s : State) : Answer State :=
  whenReady s (withUart d s fun _ => rawWrite (d.base + crOff) 4 v s)

/-- `DELAY n` (R145). -/
def execDelay (n : Nat) (s : State) : Answer State := whenReady s (.next (finish .ok .none (delayFor n s)))

end Sys2Proof.Machine
end

