-- ==== Sys2Proof/Machine/Registry.lean ====
section
/-! DEFINITION. The device registry (45_device_registry.md): a constant table. -/

namespace Sys2Proof.Machine

/-- The registry entry at a signed index, or none (R220). -/
def registryEntry (c : Config) (i : Int) : Option Descriptor :=
  if i = 0 then some c.registry[0] else if i = 1 then some c.registry[1] else none

/-- `get_by_index(i)` (R220, R231). -/
def execGetByIndex (i : Int) (s : State) : Answer State :=
  whenReady s <|
    match registryEntry s.cfg i with
    | some d => .next (finish .ok (.descriptor d) s)
    | none   => .next (finish .notFound .absent s)

end Sys2Proof.Machine
end

