-- ==== Sys2Proof/Machine/UartDriver.lean ====
section
/-! DEFINITION. The UART register driver (44_uart_driver.md): the four operations and their micro-steps. -/

namespace Sys2Proof.Machine

/-! init -/

/-- The micro-steps S0 to S17 of `init`: the two `set_function` and the two `enable_pin`, in line, in the order of
`INIT_PIN_ORDER` (R190). -/
def initPinBody (d : Descriptor) (upc : Nat) (lat : Latches) (s : State) : Answer (State × Latches) :=
  match s.cfg.initPinOrder with
  | .perPin =>
    if upc < 3 then setFunctionBody d.tx d.fn upc lat s
    else if upc < 9 then enablePinBody d.tx (upc - 3) lat s
    else if upc < 12 then setFunctionBody d.rx d.fn (upc - 9) lat s
    else enablePinBody d.rx (upc - 12) lat s
  | .functionsFirst =>
    if upc < 3 then setFunctionBody d.tx d.fn upc lat s
    else if upc < 6 then setFunctionBody d.rx d.fn (upc - 3) lat s
    else if upc < 12 then enablePinBody d.tx (upc - 6) lat s
    else enablePinBody d.rx (upc - 12) lat s

/-- The micro-steps S18 to S23 of `init` on UART `u` (R190, R191). -/
def initUartStep (u : UartIx) (d : Descriptor) (baudrate : Word) (upc : Nat) (lat : Latches) (s : State) : Answer State :=
  match upc with
  | 18 => andThen (memWrite (d.base + crOff) 4 0 s) fun t => .next (goTo (.init d baudrate) 19 lat t)
  | 19 =>
    if baudrate = 0 then
      .next (goTo (.init d baudrate) 22 { lat with res := some .divisorSkipped } (setDriver u .configured s))
    else
      .next (goTo (.init d baudrate) 20
        { lat with scaled := some (baudScaled s.cfg.uartClock.val baudrate.toNat),
                   ibrd := some (baudInteger s.cfg.uartClock.val baudrate.toNat),
                   fbrd := some (baudFraction s.cfg.uartClock.val baudrate.toNat),
                   res := some .ok } s)
  | 20 => withLatch lat.ibrd fun i =>
            andThen (memWrite (d.base + ibrdOff) 4 (BitVec.ofNat 32 i) s) fun t => .next (goTo (.init d baudrate) 21 lat t)
  | 21 => withLatch lat.fbrd fun f =>
            andThen (memWrite (d.base + fbrdOff) 4 (BitVec.ofNat 32 f) s) fun t =>
              .next (goTo (.init d baudrate) 22 lat (setDriver u .configured t))
  | 22 => andThen (memWrite (d.base + lcrhOff) 4 s.cfg.lcrhWlen8 s) fun t => .next (goTo (.init d baudrate) 23 lat t)
  | 23 => withLatch lat.res fun code =>
            andThen (memWrite (d.base + crOff) 4 s.cfg.crEnable s) fun t => .next (finish code .none (setDriver u .enabled t))
  | _  => .fault .noSuchMicroStep

/-- A micro-step of a running `init` (R190). -/
def initStep (d : Descriptor) (baudrate : Word) (upc : Nat) (lat : Latches) (s : State) : Answer State :=
  if upc < 18 then
    andThen (initPinBody d upc lat s) fun p => .next (goTo (.init d baudrate) (upc + 1) p.2 p.1)
  else withUart d s fun u => initUartStep u d baudrate upc lat s

/-- The integer divisor of a rate is a Word, so that `init` can write it whole (R96, R184). -/
def divisorFits (c : Config) (baudrate : Word) : Bool :=
  decide (baudrate = 0) || decide (baudInteger c.uartClock.val baudrate.toNat < 2 ^ 32)

/-- `init(d, baudrate)` is issued (R190), in any driver state (R37). -/
def execInit (d : Descriptor) (baudrate : Word) (s : State) : Answer State :=
  whenReady s <| withUart d s fun _ =>
    if divisorFits s.cfg baudrate then .next (beginOp (.init d baudrate) s) else .refused .calculatorOverflow

/-! send and recv -/

/-- One poll of FR, as the steps that wait do it: a new transaction each time, the answer in `t.word`; while the tested
flag is 1 the step is its own successor, else the given step is (R146, R194, R196, R198). -/
def pollStep (flag : Config → Word → Bool) (d : Descriptor) (op : Operation) (here onward : Nat) (lat : Latches) (s : State) :
    Answer State :=
  andThen (memRead (d.base + frOff) 4 s) fun p =>
    .next (goTo op (if flag s.cfg p.1 then here else onward) { lat with word := some p.1 } p.2)

/-- A micro-step of a running `send` (R194). -/
def sendStep (d : Descriptor) (byte : Byte) (upc : Nat) (lat : Latches) (s : State) : Answer State :=
  match upc with
  | 0 => pollStep txff d (.send d byte) 0 1 lat s
  | 1 => andThen (memWrite (d.base + drOff) 4 (zext32 byte) s) fun t => .next (finish .ok .none t)
  | _ => .fault .noSuchMicroStep

/-- A micro-step of a running `recv` (R196). -/
def recvStep (d : Descriptor) (upc : Nat) (lat : Latches) (s : State) : Answer State :=
  match upc with
  | 0 => pollStep rxfe d (.recv d) 0 1 lat s
  | 1 => andThen (memRead (d.base + drOff) 4 s) fun p => .next (finish .ok (.byte (lowByte p.1)) p.2)
  | _ => .fault .noSuchMicroStep

/-- `send(d, byte)` is issued (R194, R192). -/
def execSend (d : Descriptor) (byte : Byte) (s : State) : Answer State :=
  whenReady s <| withUart d s fun u => whenEnabled u s (.next (beginOp (.send d byte) s))

/-- `recv(d)` is issued (R196, R192). -/
def execRecv (d : Descriptor) (s : State) : Answer State :=
  whenReady s <| withUart d s fun u => whenEnabled u s (.next (beginOp (.recv d) s))

/-! send_string -/

/-- Read byte `i` of the operand (R198). -/
def withByte (bytes : List Byte) (i : Nat) (f : Byte → Answer State) : Answer State :=
  match bytes[i]? with
  | some b => f b
  | none   => .fault .noSuchByte

/-- A micro-step of a running `send_string` (R198). -/
def sendStringStep (d : Descriptor) (bytes : List Byte) (upc : Nat) (lat : Latches) (s : State) : Answer State :=
  match upc with
  | 0 => .next (goTo (.sendString d bytes) 1 { lat with i := some 0 } s)
  | 1 => withLatch lat.i fun i =>
           if i = bytes.length then .next (finish .ok .none s)
           else withByte bytes i fun b => .next (goTo (.sendString d bytes) (if b = s.cfg.byteLf then 2 else 4) lat s)
  | 2 => pollStep txff d (.sendString d bytes) 2 3 lat s
  | 3 => andThen (memWrite (d.base + drOff) 4 (zext32 s.cfg.byteCr) s) fun t => .next (goTo (.sendString d bytes) 4 lat t)
  | 4 => pollStep txff d (.sendString d bytes) 4 5 lat s
  | 5 => withLatch lat.i fun i => withByte bytes i fun b =>
           andThen (memWrite (d.base + drOff) 4 (zext32 b) s) fun t =>
             .next (goTo (.sendString d bytes) 1 { lat with i := some (i + 1) } t)
  | _ => .fault .noSuchMicroStep

/-- `send_string(d, bytes)` is issued (R198, R192). -/
def execSendString (d : Descriptor) (bytes : List Byte) (s : State) : Answer State :=
  whenReady s <| withUart d s fun u => whenEnabled u s (.next (beginOp (.sendString d bytes) s))

end Sys2Proof.Machine
end

