-- ==== Sys2Proof/Machine/Dispatch.lean ====
section
/-! DEFINITION. What the host's issuing an instruction does, one arm per constructor. A combinational operation or a
micro-operation is done at once; a micro-stepped operation starts the sequencer at S0 (R33), and `step` runs it. -/

namespace Sys2Proof.Machine

def exec (i : Instr) (s : State) : Host.Outcome State Fault Refusal :=
  match i with
  | .extractField w o n => Sys2Proof.Machine.execExtractField w o n s
  | .mergeField w o n v => Sys2Proof.Machine.execMergeField w o n v s
  | .setFunction p f => Sys2Proof.Machine.execSetFunction p f s
  | .enablePin p => Sys2Proof.Machine.execEnablePin p s
  | .baudDivisor f b => Sys2Proof.Machine.execBaudDivisor f b s
  | .init d b => Sys2Proof.Machine.execInit d b s
  | .send d b => Sys2Proof.Machine.execSend d b s
  | .recv d => Sys2Proof.Machine.execRecv d s
  | .sendString d bs => Sys2Proof.Machine.execSendString d bs s
  | .getByIndex k => Sys2Proof.Machine.execGetByIndex k s
  | .rdGpfsel n => Sys2Proof.Machine.execRdGpfsel n s
  | .wrGpfsel n v => Sys2Proof.Machine.execWrGpfsel n v s
  | .wrGppud v => Sys2Proof.Machine.execWrGppud v s
  | .wrGppudclk0 v => Sys2Proof.Machine.execWrGppudclk0 v s
  | .wrGppudclk1 v => Sys2Proof.Machine.execWrGppudclk1 v s
  | .rdDr d => Sys2Proof.Machine.execRdDr d s
  | .wrDr d v => Sys2Proof.Machine.execWrDr d v s
  | .rdFr d => Sys2Proof.Machine.execRdFr d s
  | .wrIbrd d v => Sys2Proof.Machine.execWrIbrd d v s
  | .wrFbrd d v => Sys2Proof.Machine.execWrFbrd d v s
  | .wrLcrh d v => Sys2Proof.Machine.execWrLcrh d v s
  | .wrCr d v => Sys2Proof.Machine.execWrCr d v s
  | .delay n => Sys2Proof.Machine.execDelay n s

end Sys2Proof.Machine
end

