-- ==== Sys2Proof/Machine/Sequencer.lean ====
section
/-! DEFINITION. The sequencer: one step performs the micro-step at `upc` of the running operation (R33). -/

namespace Sys2Proof.Machine

/-- The micro-step at `upc` of a running operation. -/
def microStep (op : Operation) (upc : Nat) (lat : Latches) (s : State) : Answer State :=
  match op with
  | .setFunction p f => setFunctionStep p f upc lat s
  | .enablePin p     => enablePinStep p upc lat s
  | .init d b        => initStep d b upc lat s
  | .send d b        => sendStep d b upc lat s
  | .recv d          => recvStep d upc lat s
  | .sendString d bs => sendStringStep d bs upc lat s

end Sys2Proof.Machine
end

