-- ==== Sys2Proof/Machine/Fetch.lean ====
section
/-! DEFINITION. How an instruction comes to the block: there is no program counter and no fetch from memory (R33, R77);
the host puts a code and operands on its ports (R8, R105), and the decoder reads them. -/

namespace Sys2Proof.Machine

/-- An instruction on the ports is decoded and issued; a code that spells none is refused by name (R108, U8, log 11). -/
def issue (e : Encoded) (s : State) : Answer State :=
  match decode s.cfg.gpio e with
  | .ok i                        => exec i s
  | .error .noSuchOperation      => .refused .noSuchOperation
  | .error .noSuchMicroOperation => .refused .noSuchOperation

/-- What the host asks of an idle sequencer. -/
def serve (r : Request) (s : State) : Answer State :=
  match r with
  | .issue e      => issue e s
  | .read a n     => whenReady s (rawRead a n s)
  | .write a n v  => whenReady s (rawWrite a n v s)

/-- The host's next act is an early issue (R244). -/
def hostIsEarly (s : State) : Bool :=
  match s.host with
  | a :: _ => a.early
  | []     => false

/-- One step. A running operation performs its micro-step (R33), unless the host issues early, which is refused (R244).
An idle sequencer takes the host's next act; without one nothing happens (R261). -/
def advance (s : State) : Answer State :=
  match s.seq with
  | .running op upc lat => if hostIsEarly s then .refused .sequencerBusy else microStep op upc lat s
  | .idle =>
    match s.host with
    | a :: rest => serve a.request { s with host := rest }
    | []        => .next s

/-- The ports of a table word (log 7): every port at zero, the descriptor port at registry entry 0. -/
def tableIssue (c : Config) (nbits w : Nat) : Encoded :=
  { code := if nbits ≤ 8 then .op (BitVec.ofNat 4 w) else .uop (BitVec.ofNat 11 w), ports := zeroPorts c.registry[0] }

/-- A state whose very next step issues the given code: the sequencer idle, the host's next act that issue. -/
def withIssue (e : Encoded) (s : State) : State :=
  { s with seq := .idle, host := { early := false, request := .issue e } :: s.host }

end Sys2Proof.Machine
end

