-- ==== Sys2Proof/Machine/Step.lean ====
section
/-! DEFINITION. The step of the machine, and the placing of a table word where the step takes its next instruction. -/

namespace Sys2Proof.Machine

/-- One step of the machine (R33). -/
def step (s : State) : Host.Outcome State Fault Refusal := advance s

/-- The state whose next step issues the instruction of a table word from the host's ports. Log 22. -/
def State.withFetchWord (s : State) (nbits w : Nat) : State := withIssue (tableIssue s.cfg nbits w) s

end Sys2Proof.Machine
end

