-- ==== Sys2Proof/Machine/Constraints.lean ====
section
/-! DEFINITION. The constraints the spec puts on the parameters that are no addresses and no registry (those stand in
AddressMap.lean). Log 18. -/

namespace Sys2Proof.Machine

/-- The positions of the two flags differ (R95, D9). -/
def flagBitsDiffer (c : Config) : Bool := decide (c.frTxffBit ≠ c.frRxfeBit)

/-- The positions of the bits set in a word. -/
def bitsSet (w : Word) : List Nat := (List.range 32).filter fun k => w.getLsbD k

/-- `CR_ENABLE` has exactly three bits set, at three different positions: UART-enable, TX-enable, RX-enable (R99, D9). -/
def enablesThreeBits (c : Config) : Bool := decide ((bitsSet c.crEnable).length = 3)

/-- The line-feed and the carriage-return byte differ (D24). -/
def lineBytesDiffer (c : Config) : Bool := decide (c.byteLf ≠ c.byteCr)

/-- The constraints together. -/
def parametersConstrained (c : Config) : Bool := flagBitsDiffer c && enablesThreeBits c && lineBytesDiffer c

end Sys2Proof.Machine
end

