-- ==== Sys2Proof/Safety.lean ====
section
/-! DEFINITION. The terms the claims use: when the block is ready, the standing contract (R264), what a frame leaves
alone, the traces the operations are to make, and the invariants. -/

namespace Sys2Proof.Safety

open Sys2Proof.Machine

/-- `FSEL_CODE` is injective (R102). -/
abbrev FselInjective (c : Config) : Prop := ∀ i j : Fin 8, c.fselCode[i] = c.fselCode[j] → i = j

/-- The configuration is one the spec describes: its addresses and pins are distinct and aligned (R61, R76), every
address is an offset from the peripheral base (R10), the registry meets its constraints (R221), `FSEL_CODE` is injective
(R102), and the flag bits, the enable bits and the line bytes are as R95, R99 and D24 ask. -/
abbrev Standing (c : Config) : Prop :=
  descriptorsDisjoint c = true ∧ addressesAligned c = true ∧ addressesFromBase c = true ∧ registryConstrained c = true ∧
  FselInjective c ∧ parametersConstrained c = true

/-- What R76 and R61 call aliasing: equal bases, a pin named twice, or two registers at one address (log 18). -/
def Aliased (c : Config) : Prop :=
  c.registry[0].base = c.registry[1].base ∨
  (c.registry[0].tx = c.registry[0].rx ∨ c.registry[0].tx = c.registry[1].tx ∨ c.registry[0].tx = c.registry[1].rx ∨
   c.registry[0].rx = c.registry[1].tx ∨ c.registry[0].rx = c.registry[1].rx ∨ c.registry[1].tx = c.registry[1].rx) ∨
  ∃ r r' : Reg, r ≠ r' ∧ regAddr c r = regAddr c r'

/-- A descriptor is one of the thirteen patterns of R106, the GPIO ones at the offsets of the configuration. -/
def HasRow (g : GpioLayout) (desc : BitVec 11) : Prop :=
  (∃ n : Fin 6, desc.toNat = g.gpfselOff + 4 * n.val ∨ desc.toNat = 0x200 + (g.gpfselOff + 4 * n.val)) ∨
  desc.toNat ∈ [0x200 + g.gppudOff, 0x200 + g.gppudclk0Off, 0x200 + g.gppudclk1Off] ∨
  desc.toNat ∈ [0x100, 0x300, 0x118, 0x324, 0x328, 0x32C, 0x330, 0x400]

/-- The sequencer is idle and the configuration stands, so that an operation may be issued (R244, R76). -/
abbrev Ready (s : State) : Prop := s.seq = .idle ∧ Standing s.cfg

/-- The host keeps its contract: it never issues while an operation runs (R244). -/
abbrev Patient (s : State) : Prop := ∀ a ∈ s.host, a.early = false

/-- `k` steps of the machine, stopping at the first fault or refusal. -/
abbrev runs (k : Nat) (s : State) : Host.Outcome State Fault Refusal := Sys2Proof.core.run k s

/-- The machine goes on, or an answer is a stop. -/
def isNext {α : Type} : Answer α → Bool
  | .next _ => true
  | _       => false

/-! Frames. -/

/-- All but the registers listed keep their words, and with them every driver state, every transmit log whose DR is
not listed, the parameters and the host's acts. -/
def Keeps (touched : List Reg) (s t : State) : Prop :=
  t.cfg = s.cfg ∧ t.host = s.host ∧
  (∀ r : Reg, r ∉ touched → stored t r = stored s r) ∧
  (∀ u : UartIx, t.uart[u].drv = s.uart[u].drv) ∧
  (∀ u : UartIx, Reg.dr u ∉ touched → t.uart[u].txLog = s.uart[u].txLog)

/-- The environment has answered nothing: its scripts and the count of free words stand. -/
def AnswersNothing (s t : State) : Prop := t.answers = s.answers ∧ t.draws = s.draws

/-- What issuing a micro-stepped operation makes of a state: the sequencer at S0 of it, every latch unwritten (R33), the
result port empty (log 8). -/
abbrev started (op : Operation) (s : State) : State :=
  { s with seq := .running op 0 Latches.unwritten, outcome := none, result := .none }

/-! The events the operations are to make, written from the rules' own step lists. -/

/-- The word `set_function` writes (R160). -/
def setFunctionWord (c : Config) (gp : Vector Word 6) (p : Pin) (f : Function) : Word :=
  mergeBits gp[fselIndex p] (fselOffset p) 3 (fselWord c f)

/-- The function-select words after `set_function` (R160). -/
def setFunctionWords (c : Config) (gp : Vector Word 6) (p : Pin) (f : Function) : Vector Word 6 :=
  gp.set (fselIndex p) (setFunctionWord c gp p f)

/-- The events of `set_function` (R160): one `Rd`, then one `Wr`, at the same address. -/
def setFunctionEvents (c : Config) (gp : Vector Word 6) (p : Pin) (f : Function) : List Event :=
  [.rd (gpfselAddr c (fselIndex p).val) gp[fselIndex p], .wr (gpfselAddr c (fselIndex p).val) (setFunctionWord c gp p f)]

/-- The events of `enable_pin` (R162): `Wr`, `Dl(150)`, `Wr`, `Dl(150)`, `Wr`, `Wr`. -/
def enablePinEvents (c : Config) (p : Pin) : List Event :=
  [.wr (gppudAddr c) (pullOffWord c), .dl 150, .wr (gppudclkAddr c (clkIndex p)) (clkWord p), .dl 150,
   .wr (gppudAddr c) (pullOffWord c), .wr (gppudclkAddr c (clkIndex p)) 0]

/-- The events of the pin steps of `init`, in the order of `INIT_PIN_ORDER` (R190). -/
def initPinEvents (c : Config) (gp : Vector Word 6) (d : Descriptor) : List Event :=
  let gp1 := setFunctionWords c gp d.tx d.fn
  match c.initPinOrder with
  | .perPin => setFunctionEvents c gp d.tx d.fn ++ enablePinEvents c d.tx ++
               setFunctionEvents c gp1 d.rx d.fn ++ enablePinEvents c d.rx
  | .functionsFirst => setFunctionEvents c gp d.tx d.fn ++ setFunctionEvents c gp1 d.rx d.fn ++
                       enablePinEvents c d.tx ++ enablePinEvents c d.rx

/-- The events of the UART steps of `init` (R190, R191). -/
def initUartEvents (c : Config) (d : Descriptor) (baudrate : Word) : List Event :=
  [.wr (d.base + crOff) 0] ++
  (if baudrate = 0 then [] else
    [.wr (d.base + ibrdOff) (BitVec.ofNat 32 (baudInteger c.uartClock.val baudrate.toNat)),
     .wr (d.base + fbrdOff) (BitVec.ofNat 32 (baudFraction c.uartClock.val baudrate.toNat))]) ++
  [.wr (d.base + lcrhOff) c.lcrhWlen8, .wr (d.base + crOff) c.crEnable]

/-- The `k`-th answer to come of UART `u`'s flag register: the script's, or past its end a free word (R72). -/
def frAnswer (s : State) (u : UartIx) (k : Nat) : Word :=
  match s.answers[u].fr[k]? with
  | some v => v
  | none   => freeWord (s.draws + (k - s.answers[u].fr.length))

/-- The state after the environment has answered `n` reads of UART `u`'s flag register. -/
def afterFr (s : State) (u : UartIx) (n : Nat) : State :=
  { s with answers := s.answers.set u { s.answers[u] with fr := s.answers[u].fr.drop n },
           draws := s.draws + (n - s.answers[u].fr.length) }

/-- The events of `n` polls of UART `u`'s flag register. -/
def pollEvents (s : State) (u : UartIx) (n : Nat) : List Event :=
  (List.range n).map fun k => .rd (uartBase s.cfg u + frOff) (frAnswer s u k)

/-- The answers of one polled write: the busy answers, then the one that lets it pass. -/
abbrev Poll := List Word × Word

/-- In a poll before a write every answer but the last has `TXFF = 1` (R194). -/
abbrev TransmitPoll (c : Config) (p : Poll) : Prop :=
  (∀ v ∈ p.1, v.getLsbD c.frTxffBit.val = true) ∧ p.2.getLsbD c.frTxffBit.val = false

/-- The answers of a list of polls, in order. -/
def pollScript (ps : List Poll) : List Word := (ps.map fun p => p.1 ++ [p.2]).flatten

/-- The events of one byte sent: its poll of FR, then the write of DR (R194). -/
def sentEvents (base : Nat) (p : Poll) (b : Byte) : List Event :=
  (p.1 ++ [p.2]).map (.rd (base + frOff)) ++ [.wr (base + drOff) (zext32 b)]

/-- The events of a list of bytes sent, each after its own poll. -/
def stringEvents (base : Nat) (ps : List Poll) (bs : List Byte) : List Event :=
  (List.zipWith (sentEvents base) ps bs).flatten

/-- An event is an access of UART `u`: a transaction at one of its six registers. -/
def UartAccess (c : Config) (u : UartIx) (e : Event) : Prop :=
  ∃ r ∈ uartRegs u, ∃ v, e = .rd (regAddr c r) v ∨ e = .wr (regAddr c r) v

/-- The last access of UART `u` on the trace is a read of its flag register that answered `TXFF = 0` (R73, R269). -/
def TransmitPolled (s : State) (u : UartIx) : Prop :=
  ∃ es w fs, s.trace = es ++ .rd (uartBase s.cfg u + frOff) w :: fs ∧ w.getLsbD s.cfg.frTxffBit.val = false ∧
    ∀ e ∈ fs, ¬ UartAccess s.cfg u e

/-- The last read of UART `u`'s flag register on the trace answered `TXFF = 1` (R139). -/
def LastFlagsFull (s : State) (u : UartIx) : Prop :=
  ∃ es w fs, s.trace = es ++ .rd (uartBase s.cfg u + frOff) w :: fs ∧ w.getLsbD s.cfg.frTxffBit.val = true ∧
    ∀ v, .rd (uartBase s.cfg u + frOff) v ∉ fs

/-! The invariants. -/

/-- The bytes of the trace's writes of the data register at `a`, oldest first (R36). -/
def bytesWritten (a : Nat) : List Event → List Byte
  | []            => []
  | .wr b v :: es => if b = a then lowByte v :: bytesWritten a es else bytesWritten a es
  | .rd _ _ :: es => bytesWritten a es
  | .dl _ :: es   => bytesWritten a es

/-- `tx_log` equals the bytes of the trace's writes of DR, for each UART (R36). -/
def TxLogIsTrace (s : State) : Prop :=
  ∀ u : UartIx, s.uart[u].txLog = bytesWritten (uartBase s.cfg u + drOff) s.trace

/-- The latches and the read word of a `set_function` whose next micro-step is `k`: what S0 and S1 wrote, and the word
read at S1 is still in the register (R160, R75). -/
def SetFunctionAt (s : State) (p : Pin) (k : Nat) (lat : Latches) : Prop :=
  k ≤ 2 ∧
  (1 ≤ k → lat.idx = some (fselIndex p).val ∧ lat.off = some (fselOffset p)) ∧
  (k = 2 → lat.word = some s.gpfsel[fselIndex p])

/-- The pin steps of a running `init` (R190). -/
def InitPinAt (s : State) (d : Descriptor) (k : Nat) (lat : Latches) : Prop :=
  match s.cfg.initPinOrder with
  | .perPin =>
    if k < 3 then SetFunctionAt s d.tx k lat else if k < 9 then True
    else if k < 12 then SetFunctionAt s d.rx (k - 9) lat else True
  | .functionsFirst =>
    if k < 3 then SetFunctionAt s d.tx k lat else if k < 6 then SetFunctionAt s d.rx (k - 3) lat else True

/-- The outcome `init` reports (R190, R191). -/
def initOutcome (baudrate : Word) : OutcomeCode := if baudrate = 0 then .divisorSkipped else .ok

/-- The last event is a read of UART `u`'s flag register whose answer has the given flag clear (R269). -/
def Polled (flag : Config → Word → Bool) (s : State) (u : UartIx) : Prop :=
  ∃ v, s.trace.getLast? = some (.rd (uartBase s.cfg u + frOff) v) ∧ flag s.cfg v = false

/-- What holds of the sequencer while an operation runs: `upc` is a step of the operation, every latch it will read is
written with the value the rule gives, the operands passed the checks of R238, and a data register is next only after
a poll that lets it pass. -/
def OperationAt (s : State) : Operation → Nat → Latches → Prop
  | .setFunction p _, k, lat => SetFunctionAt s p k lat
  | .enablePin _, k, _ => k ≤ 5
  | .init d b, k, lat => k ≤ 23 ∧ InitPinAt s d k lat ∧ divisorFits s.cfg b = true ∧
      (∃ u, uartIndex s.cfg d = some u ∧ (22 ≤ k → s.uart[u].drv = .configured)) ∧
      (k = 20 ∨ k = 21 → b ≠ 0 ∧ lat.ibrd = some (baudInteger s.cfg.uartClock.val b.toNat) ∧
        lat.fbrd = some (baudFraction s.cfg.uartClock.val b.toNat)) ∧
      (20 ≤ k → lat.res = some (initOutcome b))
  | .send d _, k, _ => k ≤ 1 ∧
      ∃ u, uartIndex s.cfg d = some u ∧ s.uart[u].drv = .enabled ∧ (k = 1 → Polled txff s u)
  | .recv d, k, _ => k ≤ 1 ∧
      ∃ u, uartIndex s.cfg d = some u ∧ s.uart[u].drv = .enabled ∧ (k = 1 → Polled rxfe s u)
  | .sendString d bs, k, lat => k ≤ 5 ∧
      ∃ u, uartIndex s.cfg d = some u ∧ s.uart[u].drv = .enabled ∧ (k = 3 ∨ k = 5 → Polled txff s u) ∧
      (1 ≤ k → ∃ i, lat.i = some i ∧ i ≤ bs.length ∧ (2 ≤ k → i < bs.length) ∧
        (k = 2 ∨ k = 3 → bs[i]? = some s.cfg.byteLf))

/-- A UART is `Configured` only inside an `init` of it that has done its divisor step (R242). -/
def ConfiguredOnlyInInit (s : State) : Prop :=
  ∀ u : UartIx, s.uart[u].drv = .configured →
    ∃ d b k lat, s.seq = .running (.init d b) k lat ∧ 22 ≤ k ∧ uartIndex s.cfg d = some u

/-- What holds of the sequencer in every state a run reaches. -/
def SequencerOk (s : State) : Prop :=
  match s.seq with
  | .idle => True
  | .running op k lat => OperationAt s op k lat

/-- The invariant of the block: the configuration stands, the sequencer is in order, `Configured` is visible only
inside `init`, and the transmit logs agree with the trace. -/
def Inv (s : State) : Prop :=
  Standing s.cfg ∧ SequencerOk s ∧ ConfiguredOnlyInInit s ∧ TxLogIsTrace s

/-- The host issues operations only: no micro-operation and no raw transaction is still to come (R105). -/
def OperationsOnly (s : State) : Prop := ∀ a ∈ s.host, ∃ sel ports, a.request = .issue ⟨.op sel, ports⟩

/-- The event before a data-register access is a read of the same UART's flag register that lets it pass (R200, R269). -/
def PolledEvent (c : Config) (prev : Option Event) (e : Event) : Prop :=
  ∀ u : UartIx,
    (∀ v, e = .wr (uartBase c u + drOff) v →
      ∃ w, prev = some (.rd (uartBase c u + frOff) w) ∧ w.getLsbD c.frTxffBit.val = false) ∧
    (∀ v, e = .rd (uartBase c u + drOff) v →
      ∃ w, prev = some (.rd (uartBase c u + frOff) w) ∧ w.getLsbD c.frRxfeBit.val = false)

/-- Every event of the list is so preceded, the first one by `prev`. -/
def PolledFrom (c : Config) : Option Event → List Event → Prop
  | _, []         => True
  | prev, e :: es => PolledEvent c prev e ∧ PolledFrom c (some e) es

/-- In the whole trace every data-register access is immediately preceded by its poll (R200). -/
def PolledTrace (s : State) : Prop := PolledFrom s.cfg none s.trace

end Sys2Proof.Safety
end

