-- ==== Sys2Proof/Certificates/Slice0/Obligations.lean ====
section
/-! DEFINITION. The statements for the provers. Each docstring names the rule of spec/ it formalises. Every statement
ranges over every configuration (`s.cfg`), every register content and every script of answers; where a free word is
named, over every value of it. -/

open Sys2Proof Sys2Proof.Machine Sys2Proof.Safety

/-! Reset, fetch, decoding -/

/-- R40, R260: the launch state, for all parameters and all values of the unspecified registers. -/
def Obligations.LaunchStateIsAsListed : Prop :=
  ∀ (c : Config) (p : PowerOn),
    (State.launch c p).seq = .idle ∧ (State.launch c p).trace = [] ∧
    (∀ u : UartIx, (State.launch c p).uart[u].drv = .unconfigured ∧ (State.launch c p).uart[u].txLog = []) ∧
    (∀ n : Fin 6, stored (State.launch c p) (.gpfsel n) = some p.gpfsel[n]) ∧
    stored (State.launch c p) .gppud = some p.gppud ∧
    (∀ w : Fin 2, stored (State.launch c p) (.gppudclk w) = some p.gppudclk[w]) ∧
    (∀ u : UartIx, stored (State.launch c p) (.ibrd u) = some p.ibrd[u] ∧ stored (State.launch c p) (.fbrd u) = some p.fbrd[u] ∧
      stored (State.launch c p) (.lcrh u) = some p.lcrh[u] ∧ stored (State.launch c p) (.cr u) = some p.cr[u])

/-- The invariants hold at every launch state of a standing configuration, `State.reset` among them. -/
def Obligations.LaunchStateMeetsInvariants : Prop :=
  (∀ (c : Config) (p : PowerOn), Standing c →
    Inv (State.launch c p) ∧ PolledTrace (State.launch c p) ∧ OperationsOnly (State.launch c p)) ∧
  Inv State.reset ∧ PolledTrace State.reset ∧ OperationsOnly State.reset

/-- R33, R105, R261: what one step does. An idle sequencer decodes the host's next issue and runs `exec` of it; a running
operation performs its micro-step; with nothing to do nothing happens. That the host's
acts come from a list, with a mark for an early one, is the model's choice, log 2; that an idle block without a host act
steps to itself is the model's choice, log 24. -/
def Obligations.StepRunsTheDecodedInstruction : Prop :=
  ∀ s : State,
    (∀ a rest e i, s.seq = .idle → s.host = a :: rest → a.request = .issue e → decode s.cfg.gpio e = .ok i →
      step s = exec i { s with host := rest }) ∧
    (∀ op k lat, s.seq = .running op k lat → hostIsEarly s = false → step s = microStep op k lat s) ∧
    (s.seq = .idle → s.host = [] → step s = .next s)

/-- Words of R105's and R106's tables, written out, decode to the instructions they stand for. -/
def Obligations.TableWordsDecode : Prop :=
  ∀ p : Ports,
    decode (defaultConfig .first).gpio ⟨.op 0b0010#4, p⟩ = .ok (.setFunction p.pin p.function) ∧
    decode (defaultConfig .first).gpio ⟨.op 0b1001#4, p⟩ = .ok (.getByIndex p.index) ∧
    decode (defaultConfig .first).gpio ⟨.uop 0b01000001100#11, p⟩ = .ok (.wrGpfsel 3 p.data) ∧
    decode (defaultConfig .first).gpio ⟨.uop 0b01010010100#11, p⟩ = .ok (.wrGppud p.data) ∧
    decode (defaultConfig .first).gpio ⟨.uop 0b00100011000#11, p⟩ = .ok (.rdFr p.d) ∧
    decode (defaultConfig .first).gpio ⟨.uop 0b01100110000#11, p⟩ = .ok (.wrCr p.d p.data) ∧
    decode (defaultConfig .first).gpio ⟨.uop 0b10000000000#11, p⟩ = .ok (.delay p.cycles)

/-- R105, R106: decoding an encoded instruction gives it back, for every instruction with every operand and for every
GPIO layout whose offsets fit the descriptor. -/
def Obligations.DecodeOfEncode : Prop :=
  ∀ (g : GpioLayout) (i : Instr), descriptorsFit g = true → decode g (encode g i) = .ok i

/-- R105, R106: each code spells at most one instruction, whose encoding has that code. -/
def Obligations.EncodeOfDecode : Prop :=
  ∀ (g : GpioLayout) (e : Encoded) (i : Instr), descriptorsFit g = true → decode g e = .ok i → (encode g i).code = e.code

/-- R108: the selectors 1010 to 1111 spell no operation and are refused when the host issues one. -/
def Obligations.ReservedSelectorsRefused : Prop :=
  ∀ (s : State) (sel : BitVec 4) (p : Ports) (a : HostAct) (rest : List HostAct), 10 ≤ sel.toNat →
    (∀ g, decode g ⟨.op sel, p⟩ = .error .noSuchOperation) ∧
    (s.seq = .idle → s.host = a :: rest → a.request = .issue ⟨.op sel, p⟩ → step s = .refused .noSuchOperation)

/-- R108, U8: a descriptor that is none of the thirteen patterns of R106 spells no micro-operation and is refused when the
host issues it; where the offsets fit the descriptor every pattern of R106 spells one. -/
def Obligations.DescriptorsWithoutRow : Prop :=
  ∀ (s : State) (desc : BitVec 11) (p : Ports),
    (¬ HasRow s.cfg.gpio desc →
      decode s.cfg.gpio ⟨.uop desc, p⟩ = .error .noSuchMicroOperation ∧
      ∀ a rest, s.seq = .idle → s.host = a :: rest → a.request = .issue ⟨.uop desc, p⟩ → step s = .refused .noSuchOperation) ∧
    (descriptorsFit s.cfg.gpio = true → HasRow s.cfg.gpio desc → ∃ i, decode s.cfg.gpio ⟨.uop desc, p⟩ = .ok i)

/-! The bit-field codec -/

/-- R150: inside the input condition the operation ends `OK` with `(word >> bit_offset) & mask(width)`. -/
def Obligations.ExtractFieldValue : Prop :=
  (∀ g w o n, (encode g (.extractField w o n)).code = .op 0b0000#4) ∧
  ∀ (s : State) (w : Word) (o n : Nat), Ready s → o + n ≤ 32 →
    exec (.extractField w o n) s = .next { s with outcome := some .ok, result := .word (extractBits w o n) } ∧
    (extractBits w o n).toNat = w.toNat / 2 ^ o % 2 ^ n

/-- R151: inside the input condition the operation ends `OK` with a word whose field holds the low bits of the value
and whose every other bit is that of the word. -/
def Obligations.MergeFieldValue : Prop :=
  (∀ g w o n v, (encode g (.mergeField w o n v)).code = .op 0b0001#4) ∧
  ∀ (s : State) (w : Word) (o n : Nat) (v : Word), Ready s → o + n ≤ 32 →
    exec (.mergeField w o n v) s = .next { s with outcome := some .ok, result := .word (mergeBits w o n v) } ∧
    ∀ k, k < 32 → (mergeBits w o n v).getLsbD k = if o ≤ k ∧ k < o + n then v.getLsbD (k - o) else w.getLsbD k

/-- R152: outside the input condition the result is a free word, the outcome `OK`, and nothing else is disturbed; under
`CODEC_VIOLATION = refuse` the call is refused. -/
def Obligations.CodecViolation : Prop :=
  ∀ (s : State) (w v : Word) (o n : Nat), Ready s → 32 < o + n →
    (s.cfg.codecViolation = .draw →
      exec (.extractField w o n) s =
        .next { s with outcome := some .ok, result := .word (freeWord s.draws), draws := s.draws + 1 } ∧
      exec (.mergeField w o n v) s =
        .next { s with outcome := some .ok, result := .word (freeWord s.draws), draws := s.draws + 1 }) ∧
    (s.cfg.codecViolation = .refuse →
      exec (.extractField w o n) s = .refused .codecInputCondition ∧
      exec (.mergeField w o n v) s = .refused .codecInputCondition)

/-- R153: the laws of the codec. -/
def Obligations.CodecLaws : Prop :=
  ∀ (w v v1 v2 : Word) (o n : Nat), o + n ≤ 32 →
    extractBits (mergeBits w o n v) o n = v &&& mask n ∧
    mergeBits w o n (extractBits w o n) = w ∧
    (∀ o' n', o' + n' ≤ 32 → o + n ≤ o' ∨ o' + n' ≤ o → extractBits (mergeBits w o n v) o' n' = extractBits w o' n') ∧
    mergeBits (mergeBits w o n v1) o n v2 = mergeBits w o n v2 ∧
    (mergeBits w o n v).toNat < 2 ^ 32 ∧ (extractBits w o n).toNat < 2 ^ n

/-! The GPIO pin multiplexer -/

/-- R160: `set_function`, issued on a ready block, runs its three micro-steps and ends `OK`: the pin's field of its
function-select word holds the code, the trace has one `Rd` and one `Wr`, and nothing else has changed. -/
def Obligations.SetFunctionRuns : Prop :=
  (∀ g p f, (encode g (.setFunction p f)).code = .op 0b0010#4) ∧
  ∀ (s : State) (p : Pin) (f : Function), Ready s → Patient s →
    ∃ t, exec (.setFunction p.val f) s = .next t ∧
      runs 3 t = .next { s with gpfsel := setFunctionWords s.cfg s.gpfsel p f,
                                trace := s.trace ++ setFunctionEvents s.cfg s.gpfsel p f,
                                outcome := some .ok, result := .none }

/-- R165 (1), R101: with `w` the word `pin / 10`, after `set_function` a field-extraction of the same pin returns the
function just set, every other pin's field of the word and bits [31:30] are as before, and so are the five other words;
the two events are at the address of word `w`. -/
def Obligations.SetFunctionNoBleedOver : Prop :=
  ∀ (s : State) (p : Pin) (f : Function) (w : Fin 6), Ready s → Patient s → w.val = p.val / 10 →
    ∃ t u, exec (.setFunction p.val f) s = .next t ∧ runs 3 t = .next u ∧
      extractBits u.gpfsel[w] (p.val % 10 * 3) 3 = fselWord s.cfg f ∧
      fselDecode s.cfg ((extractBits u.gpfsel[w] (p.val % 10 * 3) 3).setWidth 3) = some f ∧
      (∀ k, k < 10 → k ≠ p.val % 10 → extractBits u.gpfsel[w] (3 * k) 3 = extractBits s.gpfsel[w] (3 * k) 3) ∧
      extractBits u.gpfsel[w] 30 2 = extractBits s.gpfsel[w] 30 2 ∧
      (∀ n : Fin 6, n ≠ w → u.gpfsel[n] = s.gpfsel[n]) ∧
      u.trace = s.trace ++ [.rd (s.cfg.gpio.base + s.cfg.gpio.gpfselOff + 4 * (p.val / 10)) s.gpfsel[w],
                            .wr (s.cfg.gpio.base + s.cfg.gpio.gpfselOff + 4 * (p.val / 10)) u.gpfsel[w]]

/-- R161: a pin outside [0, 53] is refused, with no transaction. -/
def Obligations.PinOutOfRangeRefused : Prop :=
  ∀ (s : State) (pin : Int) (f : Function), Ready s → pin < 0 ∨ 53 < pin →
    exec (.setFunction pin f) s = .refused .pinOutOfRange ∧ exec (.enablePin pin) s = .refused .pinOutOfRange

/-- R162, R101: with `w` the pull-clock word `pin / 32`, `enable_pin`, issued on a ready block, runs its six micro-steps and
ends `OK`: `GPPUD` holds `PULL_OFF_WORD`, the pull-clock word 0, the trace has the six events in order, the third one
writing `1 << (pin % 32)`, and nothing else has changed. -/
def Obligations.EnablePinRuns : Prop :=
  (∀ g p, (encode g (.enablePin p)).code = .op 0b0011#4) ∧
  ∀ (s : State) (p : Pin) (w : Fin 2), Ready s → Patient s → w.val = p.val / 32 →
    ∃ t, exec (.enablePin p.val) s = .next t ∧
      runs 6 t = .next
        { s with gppud := pullOffWord s.cfg, gppudclk := s.gppudclk.set w 0,
                 trace := s.trace ++
                   [.wr (regAddr s.cfg .gppud) (pullOffWord s.cfg), .dl 150,
                    .wr (regAddr s.cfg (.gppudclk w)) ((1 : Word) <<< (p.val % 32)), .dl 150,
                    .wr (regAddr s.cfg .gppud) (pullOffWord s.cfg), .wr (regAddr s.cfg (.gppudclk w)) 0],
                 outcome := some .ok, result := .none }

/-- The frame of the GPIO operations while they run (R39, R160, R162): a micro-step of `set_function` changes no register
but its function-select word `pin / 10`, one of `enable_pin` none but `GPPUD` and its pull-clock word `pin / 32`. -/
def Obligations.GpioMicroStepsFrame : Prop :=
  ∀ (s t : State), Inv s → step s = .next t →
    (∀ p f k lat (w : Fin 6), s.seq = .running (.setFunction p f) k lat → w.val = p.val / 10 →
      Keeps [.gpfsel w] s t ∧ AnswersNothing s t) ∧
    (∀ p k lat (w : Fin 2), s.seq = .running (.enablePin p) k lat → w.val = p.val / 32 →
      Keeps [.gppud, .gppudclk w] s t ∧ AnswersNothing s t)

/-! The baud-rate calculator -/

/-- R180, R183 (1): the pair of the formula in exact integers, outcome `OK`; for a baud rate of 0 no pair and the outcome
`DIVISOR_SKIPPED`. -/
def Obligations.BaudDivisorValue : Prop :=
  (∀ g f b, (encode g (.baudDivisor f b)).code = .op 0b0100#4) ∧
  ∀ (s : State) (f : Clock) (b : Word), Ready s →
    (b ≠ 0 → exec (.baudDivisor f b) s =
      .next { s with outcome := some .ok,
                     result := .divisors ((f.val * 4 + b.toNat / 2) / b.toNat / 64) ((f.val * 4 + b.toNat / 2) / b.toNat % 64) }) ∧
    (b = 0 → exec (.baudDivisor f b) s = .next { s with outcome := some .divisorSkipped, result := .none })

/-- R181: the fraction is below 64, the pair makes up `scaled`, and it is the only pair that does. -/
def Obligations.BaudPairIsUnique : Prop :=
  ∀ f b : Nat, 0 < b →
    baudFraction f b ≤ 63 ∧ baudInteger f b * 64 + baudFraction f b = (f * 4 + b / 2) / b ∧
    ∀ i r : Nat, r ≤ 63 → i * 64 + r = (f * 4 + b / 2) / b → i = baudInteger f b ∧ r = baudFraction f b

/-- R182: `scaled` is `4F / baudrate` rounded to the nearest integer with a half rounded up, that is the floor of
`4F / baudrate + 1/2` over the rationals; so `scaled / 64` is within 1/128 of `F / (16 * baudrate)`. -/
def Obligations.BaudRoundsHalfUp : Prop :=
  ∀ f b : Nat, 0 < b → (baudScaled f b : Int) = ⌊(4 * f : ℚ) / b + 1 / 2⌋ ∧
    |(baudScaled f b : ℚ) / 64 - (f : ℚ) / (16 * b)| ≤ 1 / 128

/-! The UART driver -/

/-- R190: `init` with a baud rate other than 0, whose integer divisor is a Word, runs its 24 micro-steps and ends `OK`:
pin functions, pull words, divisors, line control, control and the driver state are as the rule says, the trace grows by
the rule's events, and nothing else has changed. -/
def Obligations.InitRuns : Prop :=
  (∀ g d b, (encode g (.init d b)).code = .op 0b0101#4) ∧
  ∀ (s : State) (u : UartIx) (b : Word), Ready s → Patient s → b ≠ 0 → divisorFits s.cfg b = true →
    ∃ t, exec (.init s.cfg.registry[u] b) s = .next t ∧
      runs 24 t = .next
        { s with
          gpfsel := setFunctionWords s.cfg (setFunctionWords s.cfg s.gpfsel s.cfg.registry[u].tx s.cfg.registry[u].fn)
                      s.cfg.registry[u].rx s.cfg.registry[u].fn,
          gppud := pullOffWord s.cfg,
          gppudclk := (s.gppudclk.set (clkIndex s.cfg.registry[u].tx) 0).set (clkIndex s.cfg.registry[u].rx) 0,
          uart := s.uart.set u
            { s.uart[u] with ibrd := BitVec.ofNat 32 (baudInteger s.cfg.uartClock.val b.toNat),
                             fbrd := BitVec.ofNat 32 (baudFraction s.cfg.uartClock.val b.toNat),
                             lcrh := s.cfg.lcrhWlen8, cr := s.cfg.crEnable, drv := .enabled },
          trace := s.trace ++ initPinEvents s.cfg s.gpfsel s.cfg.registry[u] ++
                     initUartEvents s.cfg s.cfg.registry[u] b,
          outcome := some .ok, result := .none }

/-- R191: `init` with baud rate 0 skips the two divisor writes and nothing else; `IBRD` and `FBRD` keep their words, the
UART ends `Enabled`, the outcome is `DIVISOR_SKIPPED`, and the trace grows by 19 events. -/
def Obligations.InitZeroBaudRuns : Prop :=
  ∀ (s : State) (u : UartIx), Ready s → Patient s →
    (initPinEvents s.cfg s.gpfsel s.cfg.registry[u] ++ initUartEvents s.cfg s.cfg.registry[u] 0).length = 19 ∧
    ∃ t, exec (.init s.cfg.registry[u] 0) s = .next t ∧
      runs 22 t = .next
        { s with
          gpfsel := setFunctionWords s.cfg (setFunctionWords s.cfg s.gpfsel s.cfg.registry[u].tx s.cfg.registry[u].fn)
                      s.cfg.registry[u].rx s.cfg.registry[u].fn,
          gppud := pullOffWord s.cfg,
          gppudclk := (s.gppudclk.set (clkIndex s.cfg.registry[u].tx) 0).set (clkIndex s.cfg.registry[u].rx) 0,
          uart := s.uart.set u
            { s.uart[u] with lcrh := s.cfg.lcrhWlen8, cr := s.cfg.crEnable, drv := .enabled },
          trace := s.trace ++ initPinEvents s.cfg s.gpfsel s.cfg.registry[u] ++
                     initUartEvents s.cfg s.cfg.registry[u] 0,
          outcome := some .divisorSkipped, result := .none }

/-- R193 (2), R39: the frame of `init` while it runs: a micro-step changes no register of the other UART, nor its driver
state or its log; of its own UART it leaves the log, and no environment answer is taken. -/
def Obligations.InitMicroStepsFrame : Prop :=
  ∀ (s t : State) (d : Descriptor) (b : Word) (k : Nat) (lat : Latches) (u : UartIx), Inv s → step s = .next t →
    s.seq = .running (.init d b) k lat → uartIndex s.cfg d = some u →
    t.cfg = s.cfg ∧ t.host = s.host ∧ AnswersNothing s t ∧ t.uart[u].txLog = s.uart[u].txLog ∧
    (∀ u', u' ≠ u → t.uart[u'] = s.uart[u']) ∧
    (∀ n : Fin 6, n.val ≠ d.tx.val / 10 → n.val ≠ d.rx.val / 10 → t.gpfsel[n] = s.gpfsel[n]) ∧
    (∀ w : Fin 2, w.val ≠ d.tx.val / 32 → w.val ≠ d.rx.val / 32 → t.gppudclk[w] = s.gppudclk[w])

/-- R184 (log 16): `init` is refused when the integer divisor is no Word; under the premise `F * 4 + baudrate / 2 < 2^32`
it always is one. That the bound is the Word itself is the model's choice, log 16. -/
def Obligations.InitOverflowRefused : Prop :=
  ∀ (s : State) (u : UartIx) (b : Word), Ready s → b ≠ 0 →
    (2 ^ 32 ≤ baudInteger s.cfg.uartClock.val b.toNat → exec (.init s.cfg.registry[u] b) s = .refused .calculatorOverflow) ∧
    (s.cfg.uartClock.val * 4 + b.toNat / 2 < 2 ^ 32 → divisorFits s.cfg b = true)

/-- R194, R34: `send` on an enabled UART whose next `n` flag answers have `TXFF = 1` and whose answer after them has
`TXFF = 0` polls `n + 1` times, writes the byte once, and ends `OK`; the transmit log grows by the byte and nothing else
has changed. For every oracle: the answers are the script's and, past its end, free words. -/
def Obligations.SendRuns : Prop :=
  (∀ g d b, (encode g (.send d b)).code = .op 0b0110#4) ∧
  ∀ (s : State) (u : UartIx) (b : Byte) (n : Nat), Ready s → Patient s → s.uart[u].drv = .enabled →
    (∀ k, k < n → (frAnswer s u k).getLsbD s.cfg.frTxffBit.val = true) →
    (frAnswer s u n).getLsbD s.cfg.frTxffBit.val = false →
    ∃ t, exec (.send s.cfg.registry[u] b) s = .next t ∧
      runs (n + 2) t = .next
        { afterFr s u (n + 1) with
          uart := s.uart.set u { s.uart[u] with txLog := s.uart[u].txLog ++ [b] },
          trace := s.trace ++ pollEvents s u (n + 1) ++ [.wr (uartBase s.cfg u + drOff) (zext32 b)],
          outcome := some .ok, result := .none }

/-- R196, R34: `recv` on an enabled UART polls until an answer has `RXFE = 0`, reads the data register once and ends `OK` with
the low byte of the answer; no register has changed. For every oracle, as `SendRuns`. -/
def Obligations.RecvRuns : Prop :=
  (∀ g d, (encode g (.recv d)).code = .op 0b0111#4) ∧
  ∀ (s : State) (u : UartIx) (n : Nat), Ready s → Patient s → s.uart[u].drv = .enabled →
    (∀ k, k < n → (frAnswer s u k).getLsbD s.cfg.frRxfeBit.val = true) →
    (frAnswer s u n).getLsbD s.cfg.frRxfeBit.val = false →
    ∃ t, exec (.recv s.cfg.registry[u]) s = .next t ∧
      runs (n + 2) t = .next
        { (answerDr u (afterFr s u (n + 1))).2 with
          trace := s.trace ++ pollEvents s u (n + 1) ++
                     [.rd (uartBase s.cfg u + drOff) (answerDr u (afterFr s u (n + 1))).1],
          outcome := some .ok, result := .byte (lowByte (answerDr u (afterFr s u (n + 1))).1) }

/-- R198, R200 (4): `send_string` on an enabled UART sends the operand with a carriage return before every line feed, each
byte after its own poll; the transmit log grows by exactly those bytes and nothing else has changed. `polls` are the
answers the environment is to give, one poll per byte sent. -/
def Obligations.SendStringRuns : Prop :=
  (∀ g d bs, (encode g (.sendString d bs)).code = .op 0b1000#4) ∧
  ∀ (s : State) (u : UartIx) (bs : List Byte) (polls : List Poll) (rest : List Word), Ready s → Patient s →
    s.uart[u].drv = .enabled → polls.length = (stringOut s.cfg bs).length → (∀ p ∈ polls, TransmitPoll s.cfg p) →
    s.answers[u].fr = pollScript polls ++ rest →
    ∃ t k, exec (.sendString s.cfg.registry[u] bs) s = .next t ∧
      runs k t = .next
        { s with
          answers := s.answers.set u { s.answers[u] with fr := rest },
          uart := s.uart.set u { s.uart[u] with txLog := s.uart[u].txLog ++ stringOut s.cfg bs },
          trace := s.trace ++ stringEvents (uartBase s.cfg u) polls (stringOut s.cfg bs),
          outcome := some .ok, result := .none }

/-- R195, R233, R196, R34: while every flag answer has the waited-for flag set, the busy-waits of `send`, `recv` and
`send_string` stay at their micro-step: `n` polls for every `n`, no write, no outcome. -/
def Obligations.BusyWaitNeverLeaves : Prop :=
  ∀ (s : State) (u : UartIx) (op : Operation) (k : Nat) (lat : Latches) (n : Nat), Standing s.cfg → Patient s →
    s.seq = .running op k lat →
    (((∃ b, op = .send s.cfg.registry[u] b) ∧ k = 0 ∧ ∀ j, j < n → (frAnswer s u j).getLsbD s.cfg.frTxffBit.val = true) ∨
     (op = .recv s.cfg.registry[u] ∧ k = 0 ∧ ∀ j, j < n → (frAnswer s u j).getLsbD s.cfg.frRxfeBit.val = true) ∨
     ((∃ bs, op = .sendString s.cfg.registry[u] bs) ∧ (k = 2 ∨ k = 4) ∧
      ∀ j, j < n → (frAnswer s u j).getLsbD s.cfg.frTxffBit.val = true)) →
    ∃ lat', runs n s = .next { afterFr s u n with seq := .running op k lat', trace := s.trace ++ pollEvents s u n }

/-- The frame of `send`, `recv` and `send_string` while they run (R39): a micro-step changes no storage register and no
driver state, and no log but that of its own UART, which `recv` leaves too. -/
def Obligations.DataMicroStepsFrame : Prop :=
  ∀ (s t : State), Inv s → step s = .next t →
    (∀ d b k lat, s.seq = .running (.send d b) k lat → ∃ u, uartIndex s.cfg d = some u ∧ Keeps [.dr u] s t) ∧
    (∀ d k lat, s.seq = .running (.recv d) k lat → Keeps [] s t) ∧
    (∀ d bs k lat, s.seq = .running (.sendString d bs) k lat → ∃ u, uartIndex s.cfg d = some u ∧ Keeps [.dr u] s t)

/-- R192: `send`, `recv` and `send_string` on a UART that is not `Enabled` are refused. -/
def Obligations.NotEnabledRefused : Prop :=
  ∀ (s : State) (u : UartIx) (b : Byte) (bs : List Byte), Ready s → s.uart[u].drv ≠ .enabled →
    exec (.send s.cfg.registry[u] b) s = .refused .uartNotEnabled ∧
    exec (.recv s.cfg.registry[u]) s = .refused .uartNotEnabled ∧
    exec (.sendString s.cfg.registry[u] bs) s = .refused .uartNotEnabled

/-- D34, R235: a descriptor that is no registry entry is refused by every operation that takes one. -/
def Obligations.UnknownDescriptorRefused : Prop :=
  ∀ (s : State) (d : Descriptor) (b : Byte) (bs : List Byte) (v : Word), Ready s → (∀ u : UartIx, s.cfg.registry[u] ≠ d) →
    exec (.init d v) s = .refused .unknownDescriptor ∧ exec (.send d b) s = .refused .unknownDescriptor ∧
    exec (.recv d) s = .refused .unknownDescriptor ∧ exec (.sendString d bs) s = .refused .unknownDescriptor ∧
    exec (.rdDr d) s = .refused .unknownDescriptor ∧ exec (.wrDr d v) s = .refused .unknownDescriptor ∧
    exec (.rdFr d) s = .refused .unknownDescriptor ∧ exec (.wrIbrd d v) s = .refused .unknownDescriptor ∧
    exec (.wrFbrd d v) s = .refused .unknownDescriptor ∧ exec (.wrLcrh d v) s = .refused .unknownDescriptor ∧
    exec (.wrCr d v) s = .refused .unknownDescriptor

/-- R33: the frame of issuing a micro-stepped operation: the sequencer stands at S0 of the operation issued, with its
operands, and no transaction is performed. That the result port is emptied is the model's choice, log 8. -/
def Obligations.IssueFrame : Prop :=
  ∀ (s t : State) (d : Descriptor),
    (∀ pin f, exec (.setFunction pin f) s = .next t → ∃ p : Pin, pin = p.val ∧ t = started (.setFunction p f) s) ∧
    (∀ pin, exec (.enablePin pin) s = .next t → ∃ p : Pin, pin = p.val ∧ t = started (.enablePin p) s) ∧
    (∀ b, exec (.init d b) s = .next t → t = started (.init d b) s) ∧
    (∀ b, exec (.send d b) s = .next t → t = started (.send d b) s) ∧
    (exec (.recv d) s = .next t → t = started (.recv d) s) ∧
    (∀ bs, exec (.sendString d bs) s = .next t → t = started (.sendString d bs) s)

/-! The registry and the combinational operations -/

/-- R220, R231: the descriptor at the index and `OK`, or the absent value and `NOT_FOUND`; nothing else changes. -/
def Obligations.GetByIndexValue : Prop :=
  (∀ g i, (encode g (.getByIndex i)).code = .op 0b1001#4) ∧
  ∀ (s : State), Ready s →
    (∀ u : UartIx, exec (.getByIndex u.val) s =
      .next { s with outcome := some .ok, result := .descriptor s.cfg.registry[u] }) ∧
    (∀ i : Int, i < 0 ∨ 2 ≤ i → exec (.getByIndex i) s = .next { s with outcome := some .notFound, result := .absent })

/-- R107, R39: the frame of the four pure operations: no transaction, no delay, no register, no event. -/
def Obligations.PureOperationsFrame : Prop :=
  ∀ (s t : State) (i : Instr), exec i s = .next t →
    ((∃ w o n, i = .extractField w o n) ∨ (∃ w o n v, i = .mergeField w o n v) ∨ (∃ f b, i = .baudDivisor f b) ∨
     (∃ k, i = .getByIndex k)) →
    t = { s with outcome := t.outcome, result := t.result, draws := t.draws }

/-! The micro-operations. That each ends with `OK` on the result port is the model's choice, log 10. -/

/-- R132: `RD.GPFSEL[n]` returns the stored word, with its event and no side effect. -/
def Obligations.ReadGpfselValue : Prop :=
  (∀ n : Fin 6, (encode (defaultConfig .first).gpio (.rdGpfsel n)).code = .uop (0b00000000000#11 ||| BitVec.ofNat 11 (4 * n.val))) ∧
  ∀ (s : State) (n : Fin 6), Ready s →
    exec (.rdGpfsel n) s = .next
      { s with trace := s.trace ++ [.rd (gpfselAddr s.cfg n.val) s.gpfsel[n]], outcome := some .ok, result := .word s.gpfsel[n] }

/-- R133: `WR.GPFSEL[n] <- v` sets the word, every bit of it. -/
def Obligations.WriteGpfselValue : Prop :=
  (∀ (n : Fin 6) v, (encode (defaultConfig .first).gpio (.wrGpfsel n v)).code =
    .uop (0b01000000000#11 ||| BitVec.ofNat 11 (4 * n.val))) ∧
  ∀ (s : State) (n : Fin 6) (v : Word), Ready s →
    exec (.wrGpfsel n v) s = .next
      { s with gpfsel := s.gpfsel.set n v, trace := s.trace ++ [.wr (gpfselAddr s.cfg n.val) v],
               outcome := some .ok, result := .none }

/-- R134: `WR.GPPUD <- v` sets the global pull mode. -/
def Obligations.WriteGppudValue : Prop :=
  (∀ v, (encode (defaultConfig .first).gpio (.wrGppud v)).code = .uop 0b01010010100#11) ∧
  ∀ (s : State) (v : Word), Ready s →
    exec (.wrGppud v) s = .next
      { s with gppud := v, trace := s.trace ++ [.wr (gppudAddr s.cfg) v], outcome := some .ok, result := .none }

/-- R135: `WR.GPPUDCLK[w] <- v` replaces the whole pull-clock word. -/
def Obligations.WriteGppudclkValue : Prop :=
  (∀ v, (encode (defaultConfig .first).gpio (.wrGppudclk0 v)).code = .uop 0b01010011000#11 ∧
        (encode (defaultConfig .first).gpio (.wrGppudclk1 v)).code = .uop 0b01010011100#11) ∧
  ∀ (s : State) (v : Word), Ready s →
    exec (.wrGppudclk0 v) s = .next
      { s with gppudclk := s.gppudclk.set 0 v, trace := s.trace ++ [.wr (gppudclkAddr s.cfg 0) v],
               outcome := some .ok, result := .none } ∧
    exec (.wrGppudclk1 v) s = .next
      { s with gppudclk := s.gppudclk.set 1 v, trace := s.trace ++ [.wr (gppudclkAddr s.cfg 1) v],
               outcome := some .ok, result := .none }

/-- R136, R72: `RD.FR` returns the environment's answer, the script's next or a free word, and changes no register. -/
def Obligations.ReadFlagsValue : Prop :=
  (∀ g d, (encode g (.rdFr d)).code = .uop 0b00100011000#11) ∧
  ∀ (s : State) (u : UartIx), Ready s →
    exec (.rdFr s.cfg.registry[u]) s = .next
      { afterFr s u 1 with trace := s.trace ++ [.rd (uartBase s.cfg u + frOff) (frAnswer s u 0)],
                           outcome := some .ok, result := .word (frAnswer s u 0) }

/-- R138, R72: `RD.DR` returns the environment's answer, the script's next or a free word, and consumes it; after a flag
answer with `RXFE = 1` too, where R138 and R269 differ and the model follows R138, log 14. -/
def Obligations.ReadDataValue : Prop :=
  (∀ g d, (encode g (.rdDr d)).code = .uop 0b00100000000#11) ∧
  ∀ (s : State) (u : UartIx), Ready s →
    (∀ v rest, s.answers[u].dr = v :: rest →
      exec (.rdDr s.cfg.registry[u]) s = .next
        { s with answers := s.answers.set u { s.answers[u] with dr := rest },
                 trace := s.trace ++ [.rd (uartBase s.cfg u + drOff) v], outcome := some .ok, result := .word v }) ∧
    (s.answers[u].dr = [] →
      exec (.rdDr s.cfg.registry[u]) s = .next
        { s with draws := s.draws + 1, trace := s.trace ++ [.rd (uartBase s.cfg u + drOff) (freeWord s.draws)],
                 outcome := some .ok, result := .word (freeWord s.draws) })

/-- R139, R73, R269: `WR.DR <- v` hands the low byte to the transmit buffer when the last access of that UART is a read of
its flag register that answered `TXFF = 0`, and is refused otherwise; among the refused ones is every write after a last
flag answer with `TXFF = 1`. That R269's "no other access to that UART in between" is asked of a raw write, and the name of
the refusal of an unpolled one, are log 13. -/
def Obligations.WriteDataValue : Prop :=
  (∀ g d v, (encode g (.wrDr d v)).code = .uop 0b01100000000#11) ∧
  ∀ (s : State) (u : UartIx) (v : Word), Ready s →
    (TransmitPolled s u →
      exec (.wrDr s.cfg.registry[u] v) s = .next
        { s with uart := s.uart.set u { s.uart[u] with txLog := s.uart[u].txLog ++ [lowByte v] },
                 trace := s.trace ++ [.wr (uartBase s.cfg u + drOff) v], outcome := some .ok, result := .none }) ∧
    (¬ TransmitPolled s u → exec (.wrDr s.cfg.registry[u] v) s = .refused .writeToFullTransmitBuffer) ∧
    (LastFlagsFull s u → exec (.wrDr s.cfg.registry[u] v) s = .refused .writeToFullTransmitBuffer)

/-- R140: `WR.IBRD <- v` sets the integer part of the baud divisor, 0 like any other. -/
def Obligations.WriteIntegerDivisorValue : Prop :=
  (∀ g d v, (encode g (.wrIbrd d v)).code = .uop 0b01100100100#11) ∧
  ∀ (s : State) (u : UartIx) (v : Word), Ready s →
    exec (.wrIbrd s.cfg.registry[u] v) s = .next
      { s with uart := s.uart.set u { s.uart[u] with ibrd := v },
               trace := s.trace ++ [.wr (uartBase s.cfg u + ibrdOff) v], outcome := some .ok, result := .none }

/-- R141, R131, R21: `WR.FBRD <- v` sets the fractional part of the baud divisor, for a word below 64 as R141 says. That a
word of 64 or more, outside R141's operand, is run and stored whole, as R131 and R21 say of any write of a storage register,
is the model's choice, log 17; the outcome on the result port is log 10. -/
def Obligations.WriteFractionalDivisorValue : Prop :=
  (∀ g d v, (encode g (.wrFbrd d v)).code = .uop 0b01100101000#11) ∧
  ∀ (s : State) (u : UartIx) (v : Word), Ready s →
    exec (.wrFbrd s.cfg.registry[u] v) s = .next
      { s with uart := s.uart.set u { s.uart[u] with fbrd := v },
               trace := s.trace ++ [.wr (uartBase s.cfg u + fbrdOff) v], outcome := some .ok, result := .none }

/-- R142: `WR.LCRH <- v` replaces the whole line-control word. -/
def Obligations.WriteLineControlValue : Prop :=
  (∀ g d v, (encode g (.wrLcrh d v)).code = .uop 0b01100101100#11) ∧
  ∀ (s : State) (u : UartIx) (v : Word), Ready s →
    exec (.wrLcrh s.cfg.registry[u] v) s = .next
      { s with uart := s.uart.set u { s.uart[u] with lcrh := v },
               trace := s.trace ++ [.wr (uartBase s.cfg u + lcrhOff) v], outcome := some .ok, result := .none }

/-- R143: `WR.CR <- v` replaces the control word; the driver state is not touched. -/
def Obligations.WriteControlValue : Prop :=
  (∀ g d v, (encode g (.wrCr d v)).code = .uop 0b01100110000#11) ∧
  ∀ (s : State) (u : UartIx) (v : Word), Ready s →
    exec (.wrCr s.cfg.registry[u] v) s = .next
      { s with uart := s.uart.set u { s.uart[u] with cr := v },
               trace := s.trace ++ [.wr (uartBase s.cfg u + crOff) v], outcome := some .ok, result := .none }

/-- R145: `DELAY n` appends `Dl(n)` and changes no register; it always ends. That every `n` but 150, the only
value the spec uses, is run alike is the model's choice, log 17. -/
def Obligations.DelayValue : Prop :=
  (∀ g n, (encode g (.delay n)).code = .uop 0b10000000000#11) ∧
  ∀ (s : State) (n : Nat), Ready s →
    exec (.delay n) s = .next { s with trace := s.trace ++ [.dl n], outcome := some .ok, result := .none }

/-- The frame of the thirteen micro-operations (R132 to R145): whatever the state, when one answers a next state the
sequencer is idle and no register, log, driver state or environment answer but the one it names has changed. -/
def Obligations.MicroOperationsFrame : Prop :=
  ∀ (s t : State) (d : Descriptor) (v : Word),
    (∀ n, exec (.rdGpfsel n) s = .next t → t.seq = .idle ∧ Keeps [] s t ∧ AnswersNothing s t) ∧
    (∀ n, exec (.wrGpfsel n v) s = .next t → t.seq = .idle ∧ Keeps [.gpfsel n] s t ∧ AnswersNothing s t) ∧
    (exec (.wrGppud v) s = .next t → t.seq = .idle ∧ Keeps [.gppud] s t ∧ AnswersNothing s t) ∧
    (exec (.wrGppudclk0 v) s = .next t → t.seq = .idle ∧ Keeps [.gppudclk 0] s t ∧ AnswersNothing s t) ∧
    (exec (.wrGppudclk1 v) s = .next t → t.seq = .idle ∧ Keeps [.gppudclk 1] s t ∧ AnswersNothing s t) ∧
    (exec (.rdDr d) s = .next t → ∃ u, uartIndex s.cfg d = some u ∧ t.seq = .idle ∧ Keeps [] s t ∧
      ∀ u' : UartIx, t.answers[u'].fr = s.answers[u'].fr ∧ (u' ≠ u → t.answers[u'] = s.answers[u'])) ∧
    (exec (.wrDr d v) s = .next t → ∃ u, uartIndex s.cfg d = some u ∧ t.seq = .idle ∧ Keeps [.dr u] s t ∧ AnswersNothing s t) ∧
    (exec (.rdFr d) s = .next t → ∃ u, uartIndex s.cfg d = some u ∧ t.seq = .idle ∧ Keeps [] s t ∧
      ∀ u' : UartIx, t.answers[u'].dr = s.answers[u'].dr ∧ (u' ≠ u → t.answers[u'] = s.answers[u'])) ∧
    (exec (.wrIbrd d v) s = .next t → ∃ u, uartIndex s.cfg d = some u ∧ t.seq = .idle ∧ Keeps [.ibrd u] s t ∧ AnswersNothing s t) ∧
    (exec (.wrFbrd d v) s = .next t → ∃ u, uartIndex s.cfg d = some u ∧ t.seq = .idle ∧ Keeps [.fbrd u] s t ∧ AnswersNothing s t) ∧
    (exec (.wrLcrh d v) s = .next t → ∃ u, uartIndex s.cfg d = some u ∧ t.seq = .idle ∧ Keeps [.lcrh u] s t ∧ AnswersNothing s t) ∧
    (exec (.wrCr d v) s = .next t → ∃ u, uartIndex s.cfg d = some u ∧ t.seq = .idle ∧ Keeps [.cr u] s t ∧ AnswersNothing s t) ∧
    (∀ n, exec (.delay n) s = .next t → t.seq = .idle ∧ Keeps [] s t ∧ AnswersNothing s t)

/-! The register accesses -/

/-- R64, R66, R137: what a raw transaction is refused for, as the primitives refuse it and as the step of a ready block
refuses the host's. The order of the checks is the model's choice, log 12. -/
def Obligations.RawAccessRefusals : Prop :=
  ∀ (s : State) (a n : Nat) (v : Word),
    (n ≠ 4 → memRead a n s = .refused .badAccessSize ∧ memWrite a n v s = .refused .badAccessSize) ∧
    (a % 4 ≠ 0 → memRead a 4 s = .refused .misaligned ∧ memWrite a 4 v s = .refused .misaligned) ∧
    (a % 4 = 0 → (∀ r, regAddr s.cfg r ≠ a) →
      memRead a 4 s = .refused .unmappedAddress ∧ memWrite a 4 v s = .refused .unmappedAddress) ∧
    (Standing s.cfg → ∀ u, memWrite (regAddr s.cfg (.fr u)) 4 v s = .refused .writeToFlagRegister) ∧
    ∀ (act : HostAct) (rest : List HostAct), Ready s → s.host = act :: rest →
      (act.request = .read a n ∨ act.request = .write a n v →
        (n ≠ 4 → step s = .refused .badAccessSize) ∧
        (n = 4 → a % 4 ≠ 0 → step s = .refused .misaligned) ∧
        (n = 4 → a % 4 = 0 → (∀ r, regAddr s.cfg r ≠ a) → step s = .refused .unmappedAddress)) ∧
      ∀ u, act.request = .write (regAddr s.cfg (.fr u)) 4 v → step s = .refused .writeToFlagRegister

/-- R21: a write of a storage register replaces its whole word and no other register's; a read returns the word last
written and changes nothing but the trace. -/
def Obligations.StorageHoldsLastWord : Prop :=
  ∀ (s : State) (r : Reg) (v w : Word), Standing s.cfg → stored s r = some w →
    memRead (regAddr s.cfg r) 4 s = .next (w, { s with trace := s.trace ++ [.rd (regAddr s.cfg r) w] }) ∧
    ∃ t, memWrite (regAddr s.cfg r) 4 v s = .next t ∧ stored t r = some v ∧ Keeps [r] s t ∧ AnswersNothing s t ∧
      t.trace = s.trace ++ [.wr (regAddr s.cfg r) v] ∧ ∃ t', memRead (regAddr s.cfg r) 4 t = .next (v, t')

/-- R144, R130, R131, R136 to R139: raw transactions issued by the host, of every register. A read of a storage register
answers the stored word and records the event; a read of a flag or a data register takes the environment's next answer; a
write of a storage register replaces its word and nothing else; a write of a flag register is refused; a write of a data
register hands over the low byte after a poll that lets it pass and is refused otherwise, after a last flag answer with
`TXFF = 1` among them. The outcome on the result port is the model's choice, log 10, the poll asked of a raw write log 13;
that a read of a data register is answered without one is log 14. -/
def Obligations.RawTransactionsByHost : Prop :=
  ∀ (s : State) (a : HostAct) (rest : List HostAct), Ready s → s.host = a :: rest →
    (∀ r w, a.request = .read (regAddr s.cfg r) 4 → stored s r = some w →
      step s = .next { s with host := rest, trace := s.trace ++ [.rd (regAddr s.cfg r) w],
                              outcome := some .ok, result := .word w }) ∧
    (∀ r v w, a.request = .write (regAddr s.cfg r) 4 v → stored s r = some w →
      ∃ t, step s = .next t ∧ stored t r = some v ∧ Keeps [r] { s with host := rest } t ∧ AnswersNothing s t ∧
        t.seq = .idle ∧ t.trace = s.trace ++ [.wr (regAddr s.cfg r) v] ∧ t.outcome = some .ok ∧ t.result = .none) ∧
    (∀ u : UartIx, a.request = .read (regAddr s.cfg (.fr u)) 4 →
      step s = .next { afterFr s u 1 with host := rest, trace := s.trace ++ [.rd (regAddr s.cfg (.fr u)) (frAnswer s u 0)],
                                          outcome := some .ok, result := .word (frAnswer s u 0) }) ∧
    (∀ u : UartIx, a.request = .read (regAddr s.cfg (.dr u)) 4 →
      (∀ v vs, s.answers[u].dr = v :: vs → step s = .next
        { s with host := rest, answers := s.answers.set u { s.answers[u] with dr := vs },
                 trace := s.trace ++ [.rd (regAddr s.cfg (.dr u)) v], outcome := some .ok, result := .word v }) ∧
      (s.answers[u].dr = [] → step s = .next
        { s with host := rest, draws := s.draws + 1,
                 trace := s.trace ++ [.rd (regAddr s.cfg (.dr u)) (freeWord s.draws)],
                 outcome := some .ok, result := .word (freeWord s.draws) })) ∧
    ∀ (u : UartIx) (v : Word),
      (a.request = .write (regAddr s.cfg (.fr u)) 4 v → step s = .refused .writeToFlagRegister) ∧
      (a.request = .write (regAddr s.cfg (.dr u)) 4 v →
        (LastFlagsFull s u → step s = .refused .writeToFullTransmitBuffer) ∧
        (¬ TransmitPolled s u → step s = .refused .writeToFullTransmitBuffer) ∧
        (TransmitPolled s u → step s = .next
          { s with host := rest, uart := s.uart.set u { s.uart[u] with txLog := s.uart[u].txLog ++ [lowByte v] },
                   trace := s.trace ++ [.wr (regAddr s.cfg (.dr u)) v], outcome := some .ok, result := .none }))

/-! The whole machine -/

/-- R244, R238: while an operation runs every instruction is refused, before any other check. -/
def Obligations.BusyRefused : Prop :=
  ∀ (s : State), s.seq ≠ .idle →
    (∀ i, exec i s = .refused .sequencerBusy) ∧ (hostIsEarly s = true → step s = .refused .sequencerBusy)

/-- R76, R234, R238: under an aliased configuration (equal bases, a pin named twice, two registers at one address) every
instruction is refused, and under no other one is any refused for that reason. That any two registers at one address count,
as R61 asks, and not only a UART's and a GPIO word is log 18. -/
def Obligations.AliasedRefused : Prop :=
  ∀ (s : State) (i : Instr), s.seq = .idle →
    (Aliased s.cfg → exec i s = .refused .aliasedConfiguration) ∧
    (¬ Aliased s.cfg → exec i s ≠ .refused .aliasedConfiguration)

/-- R38, R221: no step changes the parameters or the registry. -/
def Obligations.StepKeepsParameters : Prop := ∀ s t : State, step s = .next t → t.cfg = s.cfg

/-- R71, R35: a step leaves the trace as it was or appends exactly one event. -/
def Obligations.OneEventPerStep : Prop :=
  ∀ s t : State, step s = .next t → t.trace = s.trace ∨ ∃ e, t.trace = s.trace ++ [e]

/-- R36: a transmit log is never shortened and grows by at most one byte a step. -/
def Obligations.TransmitLogOnlyGrows : Prop :=
  ∀ (s t : State) (u : UartIx), step s = .next t →
    t.uart[u].txLog = s.uart[u].txLog ∨ ∃ b, t.uart[u].txLog = s.uart[u].txLog ++ [b]

/-- R242, R37: the driver state of a UART changes only inside an `init` of it, to `Configured` at the end of the divisor
step and from `Configured` to `Enabled` at the enabling write. -/
def Obligations.DriverTransitions : Prop :=
  ∀ (s t : State) (u : UartIx), Inv s → step s = .next t → t.uart[u].drv ≠ s.uart[u].drv →
    ∃ d b k lat, s.seq = .running (.init d b) k lat ∧ uartIndex s.cfg d = some u ∧
      (((k = 19 ∧ b = 0 ∨ k = 21) ∧ t.uart[u].drv = .configured) ∨
       (k = 23 ∧ s.uart[u].drv = .configured ∧ t.uart[u].drv = .enabled))

/-- Every step keeps the invariant: R33 and R32 (the sequencer stays in order, no latch is read unwritten), R36 (the logs
agree with the trace), R242 (`Configured` is visible only inside `init`), R75 (the word read by `set_function` is still
there when it writes). -/
def Obligations.StepKeepsInvariant : Prop := ∀ s t : State, Inv s → step s = .next t → Inv t

/-- R236, R146: from a state that meets the invariant no step faults; and a running operation, with a patient host, always
has a next state (R233: "the sequencer always has a step"). -/
def Obligations.InvariantNeverStops : Prop :=
  ∀ s : State, Inv s → (∀ r, step s ≠ .fault r) ∧ (s.seq ≠ .idle → Patient s → ∃ t, step s = .next t)

/-- R200 (2) and (3), R269: while the host issues operations only, every step keeps it that each access of a data register
is immediately preceded by a read of the same UART's flag register that lets it pass. -/
def Obligations.StepKeepsPolledTrace : Prop :=
  ∀ s t : State, Inv s → PolledTrace s → OperationsOnly s → step s = .next t → PolledTrace t ∧ OperationsOnly t

/-! The address map -/

/-- R61, R62: the address of every register, and that under a standing configuration the 21 addresses are distinct and
multiples of 4. -/
def Obligations.AddressMapIsAsListed : Prop :=
  ∀ c : Config,
    (∀ n : Fin 6, regAddr c (.gpfsel n) = c.gpio.base + c.gpio.gpfselOff + 4 * n.val) ∧
    regAddr c .gppud = c.gpio.base + c.gpio.gppudOff ∧
    regAddr c (.gppudclk 0) = c.gpio.base + c.gpio.gppudclk0Off ∧
    regAddr c (.gppudclk 1) = c.gpio.base + c.gpio.gppudclk1Off ∧
    (∀ u : UartIx,
      regAddr c (.dr u) = c.registry[u].base + 0x00 ∧ regAddr c (.fr u) = c.registry[u].base + 0x18 ∧
      regAddr c (.ibrd u) = c.registry[u].base + 0x24 ∧ regAddr c (.fbrd u) = c.registry[u].base + 0x28 ∧
      regAddr c (.lcrh u) = c.registry[u].base + 0x2C ∧ regAddr c (.cr u) = c.registry[u].base + 0x30) ∧
    (Standing c → (∀ r r', regAddr c r = regAddr c r' → r = r') ∧ ∀ r, regAddr c r % 4 = 0)
end

