-- ==== Sys2Proof/Laws/AddressMap.lean ====
section
/-! SUPPORT. The address map: under the conditions of R61 and R76 an address names its register, and a registry entry
names its UART. -/

namespace Sys2Proof.Machine

/-- Every register is in the list of all registers. -/
theorem mem_allRegs (r : Reg) : r ∈ allRegs := by
  cases r with
  | gppud => decide
  | gpfsel n => revert n; decide
  | gppudclk n => revert n; decide
  | dr n => revert n; decide
  | fr n => revert n; decide
  | ibrd n => revert n; decide
  | fbrd n => revert n; decide
  | lcrh n => revert n; decide
  | cr n => revert n; decide

/-- The check of distinctness says what it is meant to say. -/
theorem allDistinct_iff_nodup (l : List Nat) : allDistinct l = true ↔ l.Nodup := by
  induction l with
  | nil => simp [allDistinct]
  | cons a as ih => simp [allDistinct, ih]

/-- Under `DescriptorsDisjoint` no two registers share an address. -/
theorem regAddr_injective {c : Config} (h : descriptorsDisjoint c = true) {r r' : Reg}
    (e : regAddr c r = regAddr c r') : r = r' := by
  have hn : (allRegs.map (regAddr c)).Nodup := by
    simp only [descriptorsDisjoint, Bool.and_eq_true] at h
    exact (allDistinct_iff_nodup _).1 h.2
  exact List.inj_on_of_nodup_map hn (mem_allRegs r) (mem_allRegs r') e

/-- A register found at an address has that address. -/
theorem regAddr_of_regAt {c : Config} {a : Nat} {r : Reg} (h : regAt c a = some r) : regAddr c r = a := by
  simpa using List.find?_some h

/-- Under `DescriptorsDisjoint` the register at a register's address is that register. -/
theorem regAt_regAddr {c : Config} (h : descriptorsDisjoint c = true) (r : Reg) : regAt c (regAddr c r) = some r := by
  cases e : regAt c (regAddr c r) with
  | none => exact absurd (List.find?_eq_none.1 e r (mem_allRegs r)) (by simp)
  | some r' => rw [regAddr_injective h (regAddr_of_regAt e)]

/-- An address that is no register's has none. -/
theorem regAt_none {c : Config} {a : Nat} (h : ∀ r, regAddr c r ≠ a) : regAt c a = none :=
  List.find?_eq_none.2 fun r _ => by simpa using h r

/-- In a standing configuration every register address is a multiple of 4. -/
theorem regAddr_aligned {c : Config} (h : addressesAligned c = true) (r : Reg) : regAddr c r % 4 = 0 := by
  have := List.all_eq_true.1 h (regAddr c r) (List.mem_map_of_mem (mem_allRegs r))
  simpa using this

/-- The descriptor whose index is found is the registry's entry at that index. -/
theorem registry_of_uartIndex {c : Config} {d : Descriptor} {u : UartIx} (h : uartIndex c d = some u) :
    c.registry[u] = d := by
  unfold uartIndex at h
  split at h
  · cases h; assumption
  · split at h
    · cases h; assumption
    · cases h

/-- Under `DescriptorsDisjoint` the two registry entries differ. -/
theorem registry_ne {c : Config} (h : descriptorsDisjoint c = true) : c.registry[0] ≠ c.registry[1] := by
  intro e
  simp only [descriptorsDisjoint, Bool.and_eq_true, allDistinct_iff_nodup] at h
  have := h.1
  simp [registryPins, e] at this

/-- Under `DescriptorsDisjoint` a registry entry's index is its place. -/
theorem uartIndex_registry {c : Config} (h : descriptorsDisjoint c = true) (u : UartIx) :
    uartIndex c c.registry[u] = some u := by
  have hne := registry_ne h
  match u with
  | 0 => simp [uartIndex]
  | 1 => simp [uartIndex, hne]

/-- A descriptor that is no registry entry has no index. -/
theorem uartIndex_none {c : Config} {d : Descriptor} (h : ∀ u : UartIx, c.registry[u] ≠ d) : uartIndex c d = none := by
  have h0 : c.registry[0] ≠ d := h 0
  have h1 : c.registry[1] ≠ d := h 1
  simp [uartIndex, h0, h1]

end Sys2Proof.Machine
end

