-- ==== Sys2Proof/Laws/State.lean ====
section
/-! SUPPORT. The state record: what each named update does to each field, once, by `rfl`. -/

namespace Sys2Proof.Machine

/-! `logEvent` -/

@[simp] theorem logEvent_cfg (e : Event) (s : State) : (logEvent e s).cfg = s.cfg := rfl
@[simp] theorem logEvent_gpfsel (e : Event) (s : State) : (logEvent e s).gpfsel = s.gpfsel := rfl
@[simp] theorem logEvent_gppud (e : Event) (s : State) : (logEvent e s).gppud = s.gppud := rfl
@[simp] theorem logEvent_gppudclk (e : Event) (s : State) : (logEvent e s).gppudclk = s.gppudclk := rfl
@[simp] theorem logEvent_uart (e : Event) (s : State) : (logEvent e s).uart = s.uart := rfl
@[simp] theorem logEvent_seq (e : Event) (s : State) : (logEvent e s).seq = s.seq := rfl
@[simp] theorem logEvent_trace (e : Event) (s : State) : (logEvent e s).trace = s.trace ++ [e] := rfl
@[simp] theorem logEvent_outcome (e : Event) (s : State) : (logEvent e s).outcome = s.outcome := rfl
@[simp] theorem logEvent_result (e : Event) (s : State) : (logEvent e s).result = s.result := rfl
@[simp] theorem logEvent_host (e : Event) (s : State) : (logEvent e s).host = s.host := rfl
@[simp] theorem logEvent_answers (e : Event) (s : State) : (logEvent e s).answers = s.answers := rfl
@[simp] theorem logEvent_draws (e : Event) (s : State) : (logEvent e s).draws = s.draws := rfl

/-! `delayFor` -/

@[simp] theorem delayFor_cfg (n : Nat) (s : State) : (delayFor n s).cfg = s.cfg := rfl
@[simp] theorem delayFor_gpfsel (n : Nat) (s : State) : (delayFor n s).gpfsel = s.gpfsel := rfl
@[simp] theorem delayFor_gppud (n : Nat) (s : State) : (delayFor n s).gppud = s.gppud := rfl
@[simp] theorem delayFor_gppudclk (n : Nat) (s : State) : (delayFor n s).gppudclk = s.gppudclk := rfl
@[simp] theorem delayFor_uart (n : Nat) (s : State) : (delayFor n s).uart = s.uart := rfl
@[simp] theorem delayFor_seq (n : Nat) (s : State) : (delayFor n s).seq = s.seq := rfl
@[simp] theorem delayFor_trace (n : Nat) (s : State) : (delayFor n s).trace = s.trace ++ [.dl n] := rfl
@[simp] theorem delayFor_outcome (n : Nat) (s : State) : (delayFor n s).outcome = s.outcome := rfl
@[simp] theorem delayFor_result (n : Nat) (s : State) : (delayFor n s).result = s.result := rfl
@[simp] theorem delayFor_host (n : Nat) (s : State) : (delayFor n s).host = s.host := rfl
@[simp] theorem delayFor_answers (n : Nat) (s : State) : (delayFor n s).answers = s.answers := rfl
@[simp] theorem delayFor_draws (n : Nat) (s : State) : (delayFor n s).draws = s.draws := rfl

/-! `finish` -/

@[simp] theorem finish_cfg (c : OutcomeCode) (r : Result) (s : State) : (finish c r s).cfg = s.cfg := rfl
@[simp] theorem finish_gpfsel (c : OutcomeCode) (r : Result) (s : State) : (finish c r s).gpfsel = s.gpfsel := rfl
@[simp] theorem finish_gppud (c : OutcomeCode) (r : Result) (s : State) : (finish c r s).gppud = s.gppud := rfl
@[simp] theorem finish_gppudclk (c : OutcomeCode) (r : Result) (s : State) : (finish c r s).gppudclk = s.gppudclk := rfl
@[simp] theorem finish_uart (c : OutcomeCode) (r : Result) (s : State) : (finish c r s).uart = s.uart := rfl
@[simp] theorem finish_seq (c : OutcomeCode) (r : Result) (s : State) : (finish c r s).seq = .idle := rfl
@[simp] theorem finish_trace (c : OutcomeCode) (r : Result) (s : State) : (finish c r s).trace = s.trace := rfl
@[simp] theorem finish_outcome (c : OutcomeCode) (r : Result) (s : State) : (finish c r s).outcome = some c := rfl
@[simp] theorem finish_result (c : OutcomeCode) (r : Result) (s : State) : (finish c r s).result = r := rfl
@[simp] theorem finish_host (c : OutcomeCode) (r : Result) (s : State) : (finish c r s).host = s.host := rfl
@[simp] theorem finish_answers (c : OutcomeCode) (r : Result) (s : State) : (finish c r s).answers = s.answers := rfl
@[simp] theorem finish_draws (c : OutcomeCode) (r : Result) (s : State) : (finish c r s).draws = s.draws := rfl

/-! `beginOp` -/

@[simp] theorem beginOp_cfg (op : Operation) (s : State) : (beginOp op s).cfg = s.cfg := rfl
@[simp] theorem beginOp_gpfsel (op : Operation) (s : State) : (beginOp op s).gpfsel = s.gpfsel := rfl
@[simp] theorem beginOp_gppud (op : Operation) (s : State) : (beginOp op s).gppud = s.gppud := rfl
@[simp] theorem beginOp_gppudclk (op : Operation) (s : State) : (beginOp op s).gppudclk = s.gppudclk := rfl
@[simp] theorem beginOp_uart (op : Operation) (s : State) : (beginOp op s).uart = s.uart := rfl
@[simp] theorem beginOp_seq (op : Operation) (s : State) : (beginOp op s).seq = .running op 0 Latches.unwritten := rfl
@[simp] theorem beginOp_trace (op : Operation) (s : State) : (beginOp op s).trace = s.trace := rfl
@[simp] theorem beginOp_outcome (op : Operation) (s : State) : (beginOp op s).outcome = none := rfl
@[simp] theorem beginOp_result (op : Operation) (s : State) : (beginOp op s).result = .none := rfl
@[simp] theorem beginOp_host (op : Operation) (s : State) : (beginOp op s).host = s.host := rfl
@[simp] theorem beginOp_answers (op : Operation) (s : State) : (beginOp op s).answers = s.answers := rfl
@[simp] theorem beginOp_draws (op : Operation) (s : State) : (beginOp op s).draws = s.draws := rfl

/-! `goTo` -/

@[simp] theorem goTo_cfg (op : Operation) (k : Nat) (l : Latches) (s : State) : (goTo op k l s).cfg = s.cfg := rfl
@[simp] theorem goTo_gpfsel (op : Operation) (k : Nat) (l : Latches) (s : State) : (goTo op k l s).gpfsel = s.gpfsel := rfl
@[simp] theorem goTo_gppud (op : Operation) (k : Nat) (l : Latches) (s : State) : (goTo op k l s).gppud = s.gppud := rfl
@[simp] theorem goTo_gppudclk (op : Operation) (k : Nat) (l : Latches) (s : State) : (goTo op k l s).gppudclk = s.gppudclk := rfl
@[simp] theorem goTo_uart (op : Operation) (k : Nat) (l : Latches) (s : State) : (goTo op k l s).uart = s.uart := rfl
@[simp] theorem goTo_seq (op : Operation) (k : Nat) (l : Latches) (s : State) : (goTo op k l s).seq = .running op k l := rfl
@[simp] theorem goTo_trace (op : Operation) (k : Nat) (l : Latches) (s : State) : (goTo op k l s).trace = s.trace := rfl
@[simp] theorem goTo_outcome (op : Operation) (k : Nat) (l : Latches) (s : State) : (goTo op k l s).outcome = s.outcome := rfl
@[simp] theorem goTo_result (op : Operation) (k : Nat) (l : Latches) (s : State) : (goTo op k l s).result = s.result := rfl
@[simp] theorem goTo_host (op : Operation) (k : Nat) (l : Latches) (s : State) : (goTo op k l s).host = s.host := rfl
@[simp] theorem goTo_answers (op : Operation) (k : Nat) (l : Latches) (s : State) : (goTo op k l s).answers = s.answers := rfl
@[simp] theorem goTo_draws (op : Operation) (k : Nat) (l : Latches) (s : State) : (goTo op k l s).draws = s.draws := rfl

/-! `setUart` -/

@[simp] theorem setUart_cfg (u : UartIx) (x : Uart) (s : State) : (setUart u x s).cfg = s.cfg := rfl
@[simp] theorem setUart_gpfsel (u : UartIx) (x : Uart) (s : State) : (setUart u x s).gpfsel = s.gpfsel := rfl
@[simp] theorem setUart_gppud (u : UartIx) (x : Uart) (s : State) : (setUart u x s).gppud = s.gppud := rfl
@[simp] theorem setUart_gppudclk (u : UartIx) (x : Uart) (s : State) : (setUart u x s).gppudclk = s.gppudclk := rfl
@[simp] theorem setUart_uart (u : UartIx) (x : Uart) (s : State) : (setUart u x s).uart = s.uart.set u x := rfl
@[simp] theorem setUart_seq (u : UartIx) (x : Uart) (s : State) : (setUart u x s).seq = s.seq := rfl
@[simp] theorem setUart_trace (u : UartIx) (x : Uart) (s : State) : (setUart u x s).trace = s.trace := rfl
@[simp] theorem setUart_outcome (u : UartIx) (x : Uart) (s : State) : (setUart u x s).outcome = s.outcome := rfl
@[simp] theorem setUart_result (u : UartIx) (x : Uart) (s : State) : (setUart u x s).result = s.result := rfl
@[simp] theorem setUart_host (u : UartIx) (x : Uart) (s : State) : (setUart u x s).host = s.host := rfl
@[simp] theorem setUart_answers (u : UartIx) (x : Uart) (s : State) : (setUart u x s).answers = s.answers := rfl
@[simp] theorem setUart_draws (u : UartIx) (x : Uart) (s : State) : (setUart u x s).draws = s.draws := rfl

/-! `setDriver` -/

@[simp] theorem setDriver_cfg (u : UartIx) (d : Driver) (s : State) : (setDriver u d s).cfg = s.cfg := rfl
@[simp] theorem setDriver_gpfsel (u : UartIx) (d : Driver) (s : State) : (setDriver u d s).gpfsel = s.gpfsel := rfl
@[simp] theorem setDriver_gppud (u : UartIx) (d : Driver) (s : State) : (setDriver u d s).gppud = s.gppud := rfl
@[simp] theorem setDriver_gppudclk (u : UartIx) (d : Driver) (s : State) : (setDriver u d s).gppudclk = s.gppudclk := rfl
@[simp] theorem setDriver_uart (u : UartIx) (d : Driver) (s : State) : (setDriver u d s).uart = s.uart.set u { s.uart[u] with drv := d } := rfl
@[simp] theorem setDriver_seq (u : UartIx) (d : Driver) (s : State) : (setDriver u d s).seq = s.seq := rfl
@[simp] theorem setDriver_trace (u : UartIx) (d : Driver) (s : State) : (setDriver u d s).trace = s.trace := rfl
@[simp] theorem setDriver_outcome (u : UartIx) (d : Driver) (s : State) : (setDriver u d s).outcome = s.outcome := rfl
@[simp] theorem setDriver_result (u : UartIx) (d : Driver) (s : State) : (setDriver u d s).result = s.result := rfl
@[simp] theorem setDriver_host (u : UartIx) (d : Driver) (s : State) : (setDriver u d s).host = s.host := rfl
@[simp] theorem setDriver_answers (u : UartIx) (d : Driver) (s : State) : (setDriver u d s).answers = s.answers := rfl
@[simp] theorem setDriver_draws (u : UartIx) (d : Driver) (s : State) : (setDriver u d s).draws = s.draws := rfl

/-! `draw_snd` -/

@[simp] theorem draw_snd_cfg (s : State) : (draw s).2.cfg = s.cfg := rfl
@[simp] theorem draw_snd_gpfsel (s : State) : (draw s).2.gpfsel = s.gpfsel := rfl
@[simp] theorem draw_snd_gppud (s : State) : (draw s).2.gppud = s.gppud := rfl
@[simp] theorem draw_snd_gppudclk (s : State) : (draw s).2.gppudclk = s.gppudclk := rfl
@[simp] theorem draw_snd_uart (s : State) : (draw s).2.uart = s.uart := rfl
@[simp] theorem draw_snd_seq (s : State) : (draw s).2.seq = s.seq := rfl
@[simp] theorem draw_snd_trace (s : State) : (draw s).2.trace = s.trace := rfl
@[simp] theorem draw_snd_outcome (s : State) : (draw s).2.outcome = s.outcome := rfl
@[simp] theorem draw_snd_result (s : State) : (draw s).2.result = s.result := rfl
@[simp] theorem draw_snd_host (s : State) : (draw s).2.host = s.host := rfl
@[simp] theorem draw_snd_answers (s : State) : (draw s).2.answers = s.answers := rfl
@[simp] theorem draw_snd_draws (s : State) : (draw s).2.draws = s.draws + 1 := rfl

@[simp] theorem draw_fst (s : State) : (draw s).1 = freeWord s.draws := rfl

/-! A register's word depends on the registers alone, so the updates of the sequencer, the port and the trace keep it. -/

@[simp] theorem stored_logEvent (e : Event) (s : State) (r : Reg) : stored (logEvent e s) r = stored s r := by cases r <;> rfl
@[simp] theorem stored_finish (c : OutcomeCode) (x : Result) (s : State) (r : Reg) : stored (finish c x s) r = stored s r := by
  cases r <;> rfl
@[simp] theorem stored_goTo (op : Operation) (k : Nat) (l : Latches) (s : State) (r : Reg) :
    stored (goTo op k l s) r = stored s r := by cases r <;> rfl
@[simp] theorem stored_beginOp (op : Operation) (s : State) (r : Reg) : stored (beginOp op s) r = stored s r := by cases r <;> rfl

/-- On an idle block, ending an operation writes the result port only. -/
theorem finish_of_idle {s : State} (c : OutcomeCode) (x : Result) (h : s.seq = .idle) :
    finish c x s = { s with outcome := some c, result := x } := by
  cases s; simp_all [finish]

end Sys2Proof.Machine
end

