-- ==== Sys2Proof/Laws/Ops.lean ====
section
/-! SUPPORT. One lemma per shared operation that says everything it can do: the checks, the reads, the writes and the
two primitives. -/

namespace Sys2Proof.Machine

/-! Sequencing of answers -/

@[simp] theorem andThen_next {α β : Type} (a : α) (f : α → Answer β) : andThen (.next a) f = f a := rfl
@[simp] theorem andThen_fault {α β : Type} (r : Fault) (f : α → Answer β) : andThen (.fault r) f = .fault r := rfl
@[simp] theorem andThen_refused {α β : Type} (r : Refusal) (f : α → Answer β) : andThen (.refused r) f = .refused r := rfl

theorem andThen_eq_next {α β : Type} {x : Answer α} {f : α → Answer β} {b : β} :
    andThen x f = .next b ↔ ∃ a, x = .next a ∧ f a = .next b := by
  cases x <;> simp

theorem andThen_eq_fault {α β : Type} {x : Answer α} {f : α → Answer β} {r : Fault} :
    andThen x f = .fault r ↔ x = .fault r ∨ ∃ a, x = .next a ∧ f a = .fault r := by
  cases x <;> simp

@[simp] theorem withLatch_some {α β : Type} (a : α) (f : α → Answer β) : withLatch (some a) f = f a := rfl

theorem withLatch_eq_next {α β : Type} {l : Option α} {f : α → Answer β} {b : β} :
    withLatch l f = .next b ↔ ∃ a, l = some a ∧ f a = .next b := by
  cases l <;> simp [withLatch]

/-! The checks before an operation begins -/

/-- On an idle block whose configuration is disjoint the checks pass. -/
theorem whenReady_of_idle {s : State} {x : Answer State} (hs : s.seq = .idle) (hd : descriptorsDisjoint s.cfg = true) :
    whenReady s x = x := by
  simp [whenReady, hs, hd]

theorem whenReady_eq_next {s t : State} {x : Answer State} :
    whenReady s x = .next t ↔ s.seq = .idle ∧ descriptorsDisjoint s.cfg = true ∧ x = .next t := by
  unfold whenReady
  by_cases hs : s.seq = .idle <;> by_cases hd : descriptorsDisjoint s.cfg = true <;> simp [hs, hd]

theorem whenReady_of_busy {s : State} {x : Answer State} (hs : s.seq ≠ .idle) : whenReady s x = .refused .sequencerBusy := by
  simp [whenReady, hs]

theorem whenReady_of_aliased {s : State} {x : Answer State} (hs : s.seq = .idle) (hd : descriptorsDisjoint s.cfg = false) :
    whenReady s x = .refused .aliasedConfiguration := by
  simp [whenReady, hs, hd]

theorem withUart_of_index {d : Descriptor} {s : State} {u : UartIx} {f : UartIx → Answer State}
    (h : uartIndex s.cfg d = some u) : withUart d s f = f u := by
  simp [withUart, h]

theorem withUart_of_none {d : Descriptor} {s : State} {f : UartIx → Answer State} (h : uartIndex s.cfg d = none) :
    withUart d s f = .refused .unknownDescriptor := by
  simp [withUart, h]

theorem withUart_eq_next {d : Descriptor} {s t : State} {f : UartIx → Answer State} :
    withUart d s f = .next t ↔ ∃ u, uartIndex s.cfg d = some u ∧ f u = .next t := by
  cases h : uartIndex s.cfg d <;> simp [withUart, h]

theorem withPin_val (p : Pin) (f : Pin → Answer State) : withPin p.val f = f p := by
  have hp := p.isLt
  unfold withPin
  rw [dif_pos ⟨by omega, by omega⟩]
  congr 1

theorem withPin_eq_next {pin : Int} {f : Pin → Answer State} {t : State} :
    withPin pin f = .next t ↔ ∃ p : Pin, pin = p.val ∧ f p = .next t := by
  constructor
  · intro h
    unfold withPin at h
    split at h
    · rename_i hp
      exact ⟨_, (Int.toNat_of_nonneg hp.1).symm, h⟩
    · cases h
  · rintro ⟨p, rfl, h⟩
    rw [withPin_val]; exact h

theorem withPin_of_out {pin : Int} (f : Pin → Answer State) (h : pin < 0 ∨ 53 < pin) :
    withPin pin f = .refused .pinOutOfRange := by
  rw [withPin, dif_neg (by omega)]

theorem whenEnabled_eq_next {u : UartIx} {s t : State} {x : Answer State} :
    whenEnabled u s x = .next t ↔ s.uart[u].drv = .enabled ∧ x = .next t := by
  unfold whenEnabled; split <;> simp_all

/-! Reads -/

/-- A read of a register changes nothing but the environment's scripts and the count of free words. -/
theorem readReg_frame (s : State) (r : Reg) :
    (readReg s r).2 = { s with answers := (readReg s r).2.answers, draws := (readReg s r).2.draws } := by
  cases r <;> simp only [readReg, answerFr, answerDr] <;> (try split) <;> rfl

@[simp] theorem readReg_cfg (s : State) (r : Reg) : (readReg s r).2.cfg = s.cfg := by rw [readReg_frame]
@[simp] theorem readReg_gpfsel (s : State) (r : Reg) : (readReg s r).2.gpfsel = s.gpfsel := by rw [readReg_frame]
@[simp] theorem readReg_gppud (s : State) (r : Reg) : (readReg s r).2.gppud = s.gppud := by rw [readReg_frame]
@[simp] theorem readReg_gppudclk (s : State) (r : Reg) : (readReg s r).2.gppudclk = s.gppudclk := by rw [readReg_frame]
@[simp] theorem readReg_uart (s : State) (r : Reg) : (readReg s r).2.uart = s.uart := by rw [readReg_frame]
@[simp] theorem readReg_seq (s : State) (r : Reg) : (readReg s r).2.seq = s.seq := by rw [readReg_frame]
@[simp] theorem readReg_trace (s : State) (r : Reg) : (readReg s r).2.trace = s.trace := by rw [readReg_frame]
@[simp] theorem readReg_outcome (s : State) (r : Reg) : (readReg s r).2.outcome = s.outcome := by rw [readReg_frame]
@[simp] theorem readReg_result (s : State) (r : Reg) : (readReg s r).2.result = s.result := by rw [readReg_frame]
@[simp] theorem readReg_host (s : State) (r : Reg) : (readReg s r).2.host = s.host := by rw [readReg_frame]

/-- A read of a storage register answers its word and changes nothing (R21). -/
theorem readReg_stored {s : State} {r : Reg} {w : Word} (h : stored s r = some w) : readReg s r = (w, s) := by
  cases r <;> simp_all [stored, readReg]

/-! Writes -/

/-- What a write leaves alone, whichever register it writes. -/
theorem writeReg_frame {r : Reg} {v : Word} {s t : State} (h : writeReg r v s = .next t) :
    t = { s with gpfsel := t.gpfsel, gppud := t.gppud, gppudclk := t.gppudclk, uart := t.uart } := by
  cases r <;> simp only [writeReg, Host.Outcome.next.injEq, reduceCtorEq] at h <;> subst h <;> rfl

/-- A write sets no driver state. -/
theorem writeReg_drv {r : Reg} {v : Word} {s t : State} (h : writeReg r v s = .next t) (u : UartIx) :
    t.uart[u].drv = s.uart[u].drv := by
  cases r <;> simp only [writeReg, Host.Outcome.next.injEq, reduceCtorEq] at h <;> subst h <;>
    simp [Vector.getElem_set] <;> (split <;> simp_all)

/-- A write of `DR` appends its low byte to that UART's log; no other write touches a log (R26, R36). -/
theorem writeReg_txLog {r : Reg} {v : Word} {s t : State} (h : writeReg r v s = .next t) (u : UartIx) :
    t.uart[u].txLog = if r = .dr u then s.uart[u].txLog ++ [lowByte v] else s.uart[u].txLog := by
  cases r <;> simp only [writeReg, Host.Outcome.next.injEq, reduceCtorEq] at h <;> subst h <;>
    simp [Vector.getElem_set, ← Fin.ext_iff] <;> (split <;> simp_all)

/-- A write of a storage register replaces its word and no other's (R21); a write of `DR` none. -/
theorem writeReg_stored {r : Reg} {v : Word} {s t : State} (h : writeReg r v s = .next t) (r' : Reg) :
    stored t r' = if r' = r ∧ (stored s r).isSome then some v else stored s r' := by
  cases r <;> simp only [writeReg, Host.Outcome.next.injEq, reduceCtorEq] at h <;> subst h <;> cases r' <;>
    simp [stored, Vector.getElem_set, ← Fin.ext_iff, eq_comm] <;> (split <;> simp_all)

/-! The two primitives -/

/-- An access goes through exactly at size 4, at a multiple of 4, at an address of R61. -/
theorem access_eq_next {c : Config} {a n : Nat} {r : Reg} :
    access c a n = .next r ↔ n = 4 ∧ a % 4 = 0 ∧ regAt c a = some r := by
  unfold access
  by_cases hn : n = 4
  · by_cases ha : a % 4 = 0
    · cases h : regAt c a <;> simp [hn, ha]
    · simp [hn, ha]
  · simp [hn]

theorem access_not_fault {c : Config} {a n : Nat} {r : Fault} : access c a n ≠ .fault r := by
  unfold access
  split
  · simp
  · split
    · simp
    · split <;> simp

/-- In a standing configuration a register's address reaches that register. -/
theorem access_regAddr {c : Config} (hd : descriptorsDisjoint c = true) (ha : addressesAligned c = true) (r : Reg) :
    access c (regAddr c r) 4 = .next r :=
  access_eq_next.2 ⟨rfl, regAddr_aligned ha r, regAt_regAddr hd r⟩

/-- What `MemRead` can do (R130). -/
theorem memRead_eq_next {a n : Nat} {s : State} {p : Word × State} :
    memRead a n s = .next p ↔ ∃ r, access s.cfg a n = .next r ∧
      p = ((readReg s r).1, logEvent (.rd a (readReg s r).1) (readReg s r).2) := by
  unfold memRead
  rw [andThen_eq_next]
  constructor
  · rintro ⟨r, h, e⟩; exact ⟨r, h, by cases e; rfl⟩
  · rintro ⟨r, h, rfl⟩; exact ⟨r, h, rfl⟩

/-- What `MemWrite` can do (R131). -/
theorem memWrite_eq_next {a n : Nat} {v : Word} {s t : State} :
    memWrite a n v s = .next t ↔
      ∃ r w, access s.cfg a n = .next r ∧ writeReg r v s = .next w ∧ t = logEvent (.wr a v) w := by
  unfold memWrite
  simp only [andThen_eq_next]
  constructor
  · rintro ⟨r, h, w, hw, e⟩; exact ⟨r, w, h, hw, by cases e; rfl⟩
  · rintro ⟨r, w, h, hw, rfl⟩; exact ⟨r, h, w, hw, rfl⟩

theorem memRead_regAddr {s : State} (hd : descriptorsDisjoint s.cfg = true) (ha : addressesAligned s.cfg = true) (r : Reg) :
    memRead (regAddr s.cfg r) 4 s =
      .next ((readReg s r).1, logEvent (.rd (regAddr s.cfg r) (readReg s r).1) (readReg s r).2) := by
  simp [memRead, access_regAddr hd ha]

theorem memWrite_regAddr {s : State} (hd : descriptorsDisjoint s.cfg = true) (ha : addressesAligned s.cfg = true) (r : Reg)
    (v : Word) :
    memWrite (regAddr s.cfg r) 4 v s = andThen (writeReg r v s) fun t => .next (logEvent (.wr (regAddr s.cfg r) v) t) := by
  simp [memWrite, access_regAddr hd ha]

theorem memRead_not_fault {a n : Nat} {s : State} {r : Fault} : memRead a n s ≠ .fault r := by
  intro h
  rcases andThen_eq_fault.1 h with h | ⟨_, _, h⟩
  · exact access_not_fault h
  · cases h

theorem memWrite_not_fault {a n : Nat} {v : Word} {s : State} {r : Fault} : memWrite a n v s ≠ .fault r := by
  intro h
  rcases andThen_eq_fault.1 h with h | ⟨x, _, h⟩
  · exact access_not_fault h
  · rcases andThen_eq_fault.1 h with h | ⟨_, _, h⟩
    · cases x <;> simp [writeReg] at h
    · cases h

/-- What a raw read can do: the transaction, and its word on the port. -/
theorem rawRead_eq_next {a n : Nat} {s t : State} :
    rawRead a n s = .next t ↔ ∃ r, access s.cfg a n = .next r ∧
      t = finish .ok (.word (readReg s r).1) (logEvent (.rd a (readReg s r).1) (readReg s r).2) := by
  unfold rawRead
  simp only [andThen_eq_next, memRead_eq_next]
  constructor
  · rintro ⟨_, ⟨r, h, rfl⟩, e⟩; exact ⟨r, h, by cases e; rfl⟩
  · rintro ⟨r, h, rfl⟩; exact ⟨_, ⟨r, h, rfl⟩, rfl⟩

/-- What a raw write can do: the transaction; at `DR` only after a poll that lets it pass (R139, R269). -/
theorem rawWrite_eq_next {a n : Nat} {v : Word} {s t : State} :
    rawWrite a n v s = .next t ↔ ∃ r w, access s.cfg a n = .next r ∧ (∀ u, r = .dr u → transmitPolled u s = true) ∧
      writeReg r v s = .next w ∧ t = finish .ok .none (logEvent (.wr a v) w) := by
  unfold rawWrite
  rw [andThen_eq_next]
  constructor
  · rintro ⟨r, hr, h⟩
    have key : (∀ u, r = .dr u → transmitPolled u s = true) ∧
        (andThen (memWrite a n v s) fun t => .next (finish .ok .none t)) = .next t := by
      cases r with
      | dr u => cases hf : transmitPolled u s <;> simp_all
      | _ => simp_all
    obtain ⟨w, hw, e⟩ := andThen_eq_next.1 key.2
    obtain ⟨r', w', hr', hw', rfl⟩ := memWrite_eq_next.1 hw
    rw [hr] at hr'; cases hr'
    exact ⟨r, w', hr, key.1, hw', by cases e; rfl⟩
  · rintro ⟨r, w, hr, hf, hw, rfl⟩
    have hm : memWrite a n v s = .next (logEvent (.wr a v) w) := memWrite_eq_next.2 ⟨r, w, hr, hw, rfl⟩
    refine ⟨r, hr, ?_⟩
    cases r <;> simp_all

/-! The same at a register's own address, in a standing configuration -/

theorem rawRead_regAddr {s : State} (hd : descriptorsDisjoint s.cfg = true) (ha : addressesAligned s.cfg = true) (r : Reg) :
    rawRead (regAddr s.cfg r) 4 s =
      .next (finish .ok (.word (readReg s r).1) (logEvent (.rd (regAddr s.cfg r) (readReg s r).1) (readReg s r).2)) :=
  rawRead_eq_next.2 ⟨r, access_regAddr hd ha r, rfl⟩

/-- A raw write goes through where `MemWrite` does, at `DR` after a poll that lets it pass. -/
theorem rawWrite_regAddr {s w : State} {r : Reg} {v : Word} (hd : descriptorsDisjoint s.cfg = true)
    (ha : addressesAligned s.cfg = true) (hf : ∀ u, r = .dr u → transmitPolled u s = true) (hw : writeReg r v s = .next w) :
    rawWrite (regAddr s.cfg r) 4 v s = .next (finish .ok .none (logEvent (.wr (regAddr s.cfg r) v) w)) :=
  rawWrite_eq_next.2 ⟨r, w, access_regAddr hd ha r, hf, hw, rfl⟩

/-- A registry entry as a descriptor operand names its own UART. -/
theorem withUart_registry {s : State} (hd : descriptorsDisjoint s.cfg = true) (u : UartIx) (f : UartIx → Answer State) :
    withUart s.cfg.registry[u] s f = f u :=
  withUart_of_index (uartIndex_registry hd u)

/-! The environment's answers: what a poll takes from a script -/

/-- A read of FR past the script's end is a free word (R72). -/
theorem answerFr_nil {u : UartIx} {s : State} (h : s.answers[u].fr = []) : answerFr u s = draw s := by
  simp only [answerFr, h]

/-- A read of FR takes the script's next answer (R72). -/
theorem answerFr_cons {u : UartIx} {s : State} {v : Word} {rest : List Word} (h : s.answers[u].fr = v :: rest) :
    answerFr u s = (v, { s with answers := s.answers.set u { s.answers[u] with fr := rest } }) := by
  simp only [answerFr, h]

/-- A read of DR past the script's end is a free word (R72). -/
theorem answerDr_nil {u : UartIx} {s : State} (h : s.answers[u].dr = []) : answerDr u s = draw s := by
  simp only [answerDr, h]

/-- A read of DR takes the script's next answer (R72). -/
theorem answerDr_cons {u : UartIx} {s : State} {v : Word} {rest : List Word} (h : s.answers[u].dr = v :: rest) :
    answerDr u s = (v, { s with answers := s.answers.set u { s.answers[u] with dr := rest } }) := by
  simp only [answerDr, h]

end Sys2Proof.Machine
end

