-- ==== Sys2Proof/Laws/Step.lean ====
section
/-! SUPPORT. What one step can do, said once: at most one transaction, delay or draw (R71), then at most one change of a
driver state, and whatever it does to the sequencer and the result port. -/

namespace Sys2Proof.Machine

/-- One act on the registers, the trace and the environment. -/
inductive Act (s : State) : State → Prop where
  | nothing : Act s s
  | read (a : Nat) (r : Reg) (h : regAt s.cfg a = some r) :
      Act s (logEvent (.rd a (readReg s r).1) (readReg s r).2)
  | write (a : Nat) (v : Word) (r : Reg) (w : State) (h : regAt s.cfg a = some r) (hw : writeReg r v s = .next w) :
      Act s (logEvent (.wr a v) w)
  | delay (n : Nat) : Act s (delayFor n s)
  | draw : Act s (draw s).2

/-- `t` is `w` but for the sequencer and the result port. -/
def SameBlock (w t : State) : Prop := t = { w with seq := t.seq, outcome := t.outcome, result := t.result }

theorem sameBlock_refl (w : State) : SameBlock w w := rfl
theorem sameBlock_finish (c : OutcomeCode) (r : Result) (w : State) : SameBlock w (finish c r w) := rfl
theorem sameBlock_beginOp (op : Operation) (w : State) : SameBlock w (beginOp op w) := rfl
theorem sameBlock_goTo (op : Operation) (k : Nat) (l : Latches) (w : State) : SameBlock w (goTo op k l w) := rfl

theorem act_of_memRead {a n : Nat} {s : State} {p : Word × State} (h : memRead a n s = .next p) : Act s p.2 := by
  obtain ⟨r, hr, rfl⟩ := memRead_eq_next.1 h
  exact .read a r (access_eq_next.1 hr).2.2

theorem act_of_memWrite {a n : Nat} {v : Word} {s t : State} (h : memWrite a n v s = .next t) : Act s t := by
  obtain ⟨r, w, hr, hw, rfl⟩ := memWrite_eq_next.1 h
  exact .write a v r w (access_eq_next.1 hr).2.2 hw

theorem act_of_rawRead {a n : Nat} {s t : State} (h : rawRead a n s = .next t) : ∃ w, Act s w ∧ SameBlock w t := by
  obtain ⟨r, hr, rfl⟩ := rawRead_eq_next.1 h
  exact ⟨_, .read a r (access_eq_next.1 hr).2.2, rfl⟩

theorem act_of_rawWrite {a n : Nat} {v : Word} {s t : State} (h : rawWrite a n v s = .next t) :
    ∃ w, Act s w ∧ SameBlock w t := by
  obtain ⟨r, w, hr, _, hw, rfl⟩ := rawWrite_eq_next.1 h
  exact ⟨_, .write a v r w (access_eq_next.1 hr).2.2 hw, rfl⟩

/-! Issuing an instruction -/

theorem codecCall_effect {o n : Nat} {v : Word} {s t : State} (h : codecCall o n v s = .next t) :
    ∃ w, Act s w ∧ SameBlock w t := by
  unfold codecCall at h
  split at h
  · cases h; exact ⟨s, .nothing, rfl⟩
  · split at h
    · cases h; exact ⟨_, .draw, rfl⟩
    · cases h

/-- Issuing an instruction does at most one act, and the rest is the sequencer's and the port's. -/
theorem exec_effect {i : Instr} {s t : State} (h : exec i s = .next t) : ∃ w, Act s w ∧ SameBlock w t := by
  cases i with
  | extractField w o n => exact codecCall_effect (whenReady_eq_next.1 h).2.2
  | mergeField w o n v => exact codecCall_effect (whenReady_eq_next.1 h).2.2
  | setFunction p f =>
    obtain ⟨q, _, e⟩ := withPin_eq_next.1 (whenReady_eq_next.1 h).2.2
    cases e; exact ⟨s, .nothing, rfl⟩
  | enablePin p =>
    obtain ⟨q, _, e⟩ := withPin_eq_next.1 (whenReady_eq_next.1 h).2.2
    cases e; exact ⟨s, .nothing, rfl⟩
  | baudDivisor f b =>
    have e := (whenReady_eq_next.1 h).2.2
    split at e <;> (cases e; exact ⟨s, .nothing, rfl⟩)
  | init d b =>
    obtain ⟨u, _, e⟩ := withUart_eq_next.1 (whenReady_eq_next.1 h).2.2
    split at e
    · cases e; exact ⟨s, .nothing, rfl⟩
    · cases e
  | send d b =>
    obtain ⟨u, _, e⟩ := withUart_eq_next.1 (whenReady_eq_next.1 h).2.2
    cases (whenEnabled_eq_next.1 e).2; exact ⟨s, .nothing, rfl⟩
  | recv d =>
    obtain ⟨u, _, e⟩ := withUart_eq_next.1 (whenReady_eq_next.1 h).2.2
    cases (whenEnabled_eq_next.1 e).2; exact ⟨s, .nothing, rfl⟩
  | sendString d bs =>
    obtain ⟨u, _, e⟩ := withUart_eq_next.1 (whenReady_eq_next.1 h).2.2
    cases (whenEnabled_eq_next.1 e).2; exact ⟨s, .nothing, rfl⟩
  | getByIndex k =>
    have e := (whenReady_eq_next.1 h).2.2
    split at e <;> (cases e; exact ⟨s, .nothing, rfl⟩)
  | rdGpfsel n => exact act_of_rawRead (whenReady_eq_next.1 h).2.2
  | wrGpfsel n v => exact act_of_rawWrite (whenReady_eq_next.1 h).2.2
  | wrGppud v => exact act_of_rawWrite (whenReady_eq_next.1 h).2.2
  | wrGppudclk0 v => exact act_of_rawWrite (whenReady_eq_next.1 h).2.2
  | wrGppudclk1 v => exact act_of_rawWrite (whenReady_eq_next.1 h).2.2
  | rdDr d =>
    obtain ⟨u, _, e⟩ := withUart_eq_next.1 (whenReady_eq_next.1 h).2.2
    exact act_of_rawRead e
  | wrDr d v =>
    obtain ⟨u, _, e⟩ := withUart_eq_next.1 (whenReady_eq_next.1 h).2.2
    exact act_of_rawWrite e
  | rdFr d =>
    obtain ⟨u, _, e⟩ := withUart_eq_next.1 (whenReady_eq_next.1 h).2.2
    exact act_of_rawRead e
  | wrIbrd d v =>
    obtain ⟨u, _, e⟩ := withUart_eq_next.1 (whenReady_eq_next.1 h).2.2
    exact act_of_rawWrite e
  | wrFbrd d v =>
    obtain ⟨u, _, e⟩ := withUart_eq_next.1 (whenReady_eq_next.1 h).2.2
    exact act_of_rawWrite e
  | wrLcrh d v =>
    obtain ⟨u, _, e⟩ := withUart_eq_next.1 (whenReady_eq_next.1 h).2.2
    exact act_of_rawWrite e
  | wrCr d v =>
    obtain ⟨u, _, e⟩ := withUart_eq_next.1 (whenReady_eq_next.1 h).2.2
    exact act_of_rawWrite e
  | delay n => cases (whenReady_eq_next.1 h).2.2; exact ⟨_, .delay n, rfl⟩

theorem issue_effect {e : Encoded} {s t : State} (h : issue e s = .next t) : ∃ w, Act s w ∧ SameBlock w t := by
  unfold issue at h
  split at h
  · exact exec_effect h
  · cases h
  · cases h

theorem serve_effect {r : Request} {s t : State} (h : serve r s = .next t) : ∃ w, Act s w ∧ SameBlock w t := by
  cases r with
  | issue e => exact issue_effect h
  | read a n => exact act_of_rawRead (whenReady_eq_next.1 h).2.2
  | write a n v => exact act_of_rawWrite (whenReady_eq_next.1 h).2.2

/-! A micro-step -/

theorem setFunctionBody_effect {p : Pin} {f : Function} {k : Nat} {lat : Latches} {s : State} {x : State × Latches}
    (h : setFunctionBody p f k lat s = .next x) : Act s x.1 := by
  unfold setFunctionBody at h
  split at h
  · cases h; exact .nothing
  · obtain ⟨i, _, h⟩ := withLatch_eq_next.1 h
    obtain ⟨q, hq, e⟩ := andThen_eq_next.1 h
    cases e; exact act_of_memRead hq
  · obtain ⟨i, _, h⟩ := withLatch_eq_next.1 h
    obtain ⟨o, _, h⟩ := withLatch_eq_next.1 h
    obtain ⟨w, _, h⟩ := withLatch_eq_next.1 h
    obtain ⟨q, hq, e⟩ := andThen_eq_next.1 h
    cases e; exact act_of_memWrite hq
  · cases h

theorem enablePinBody_effect {p : Pin} {k : Nat} {lat : Latches} {s : State} {x : State × Latches}
    (h : enablePinBody p k lat s = .next x) : Act s x.1 := by
  unfold enablePinBody at h
  split at h
  · obtain ⟨q, hq, e⟩ := andThen_eq_next.1 h; cases e; exact act_of_memWrite hq
  · cases h; exact .delay 150
  · obtain ⟨q, hq, e⟩ := andThen_eq_next.1 h; cases e; exact act_of_memWrite hq
  · cases h; exact .delay 150
  · obtain ⟨q, hq, e⟩ := andThen_eq_next.1 h; cases e; exact act_of_memWrite hq
  · obtain ⟨q, hq, e⟩ := andThen_eq_next.1 h; cases e; exact act_of_memWrite hq
  · cases h

theorem initPinBody_effect {d : Descriptor} {k : Nat} {lat : Latches} {s : State} {x : State × Latches}
    (h : initPinBody d k lat s = .next x) : Act s x.1 := by
  unfold initPinBody at h
  split at h <;> (repeat' split at h) <;> first | exact setFunctionBody_effect h | exact enablePinBody_effect h

theorem initUartStep_effect {u : UartIx} {d : Descriptor} {b : Word} {k : Nat} {lat : Latches} {s t : State}
    (h : initUartStep u d b k lat s = .next t) :
    ∃ w x, Act s w ∧ (x = w ∨ ∃ v, x = setDriver u v w) ∧ SameBlock x t := by
  unfold initUartStep at h
  split at h
  · obtain ⟨q, hq, e⟩ := andThen_eq_next.1 h
    cases e; exact ⟨q, q, act_of_memWrite hq, .inl rfl, rfl⟩
  · split at h
    · cases h; exact ⟨s, _, .nothing, .inr ⟨_, rfl⟩, rfl⟩
    · cases h; exact ⟨s, s, .nothing, .inl rfl, rfl⟩
  · obtain ⟨i, _, h⟩ := withLatch_eq_next.1 h
    obtain ⟨q, hq, e⟩ := andThen_eq_next.1 h
    cases e; exact ⟨q, q, act_of_memWrite hq, .inl rfl, rfl⟩
  · obtain ⟨i, _, h⟩ := withLatch_eq_next.1 h
    obtain ⟨q, hq, e⟩ := andThen_eq_next.1 h
    cases e; exact ⟨q, _, act_of_memWrite hq, .inr ⟨_, rfl⟩, rfl⟩
  · obtain ⟨q, hq, e⟩ := andThen_eq_next.1 h
    cases e; exact ⟨q, q, act_of_memWrite hq, .inl rfl, rfl⟩
  · obtain ⟨i, _, h⟩ := withLatch_eq_next.1 h
    obtain ⟨q, hq, e⟩ := andThen_eq_next.1 h
    cases e; exact ⟨q, _, act_of_memWrite hq, .inr ⟨_, rfl⟩, rfl⟩
  · cases h

theorem pollStep_effect {g : Config → Word → Bool} {d : Descriptor} {op : Operation} {a b : Nat} {lat : Latches} {s t : State}
    (h : pollStep g d op a b lat s = .next t) : ∃ w, Act s w ∧ SameBlock w t := by
  obtain ⟨q, hq, e⟩ := andThen_eq_next.1 h
  cases e; exact ⟨_, act_of_memRead hq, rfl⟩

/-- A micro-step does at most one act; only `init` sets a driver state besides. -/
theorem microStep_effect {op : Operation} {k : Nat} {lat : Latches} {s t : State} (h : microStep op k lat s = .next t) :
    ∃ w x, Act s w ∧ (x = w ∨ ∃ d b u v, op = .init d b ∧ uartIndex s.cfg d = some u ∧ x = setDriver u v w) ∧
      SameBlock x t := by
  cases op with
  | setFunction p f =>
    obtain ⟨q, hq, e⟩ := andThen_eq_next.1 h
    exact ⟨_, _, setFunctionBody_effect hq, .inl rfl, by split at e <;> (cases e; rfl)⟩
  | enablePin p =>
    obtain ⟨q, hq, e⟩ := andThen_eq_next.1 h
    exact ⟨_, _, enablePinBody_effect hq, .inl rfl, by split at e <;> (cases e; rfl)⟩
  | init d b =>
    replace h : initStep d b k lat s = .next t := h
    unfold initStep at h
    split at h
    · obtain ⟨q, hq, e⟩ := andThen_eq_next.1 h
      cases e; exact ⟨_, _, initPinBody_effect hq, .inl rfl, rfl⟩
    · obtain ⟨u, hu, h⟩ := withUart_eq_next.1 h
      obtain ⟨w, x, hw, hx, ht⟩ := initUartStep_effect h
      refine ⟨w, x, hw, ?_, ht⟩
      rcases hx with hx | ⟨v, hx⟩
      · exact .inl hx
      · exact .inr ⟨d, b, u, v, rfl, hu, hx⟩
  | send d b =>
    replace h : sendStep d b k lat s = .next t := h
    unfold sendStep at h
    split at h
    · obtain ⟨w, hw, ht⟩ := pollStep_effect h; exact ⟨w, w, hw, .inl rfl, ht⟩
    · obtain ⟨q, hq, e⟩ := andThen_eq_next.1 h
      cases e; exact ⟨_, _, act_of_memWrite hq, .inl rfl, rfl⟩
    · cases h
  | recv d =>
    replace h : recvStep d k lat s = .next t := h
    unfold recvStep at h
    split at h
    · obtain ⟨w, hw, ht⟩ := pollStep_effect h; exact ⟨w, w, hw, .inl rfl, ht⟩
    · obtain ⟨q, hq, e⟩ := andThen_eq_next.1 h
      cases e; exact ⟨_, _, act_of_memRead hq, .inl rfl, rfl⟩
    · cases h
  | sendString d bs =>
    replace h : sendStringStep d bs k lat s = .next t := h
    unfold sendStringStep at h
    split at h
    · cases h; exact ⟨_, _, .nothing, .inl rfl, rfl⟩
    · obtain ⟨i, _, h⟩ := withLatch_eq_next.1 h
      split at h
      · cases h; exact ⟨_, _, .nothing, .inl rfl, rfl⟩
      · unfold withByte at h
        split at h
        · cases h; exact ⟨_, _, .nothing, .inl rfl, rfl⟩
        · cases h
    · obtain ⟨w, hw, ht⟩ := pollStep_effect h; exact ⟨w, w, hw, .inl rfl, ht⟩
    · obtain ⟨q, hq, e⟩ := andThen_eq_next.1 h
      cases e; exact ⟨_, _, act_of_memWrite hq, .inl rfl, rfl⟩
    · obtain ⟨w, hw, ht⟩ := pollStep_effect h; exact ⟨w, w, hw, .inl rfl, ht⟩
    · obtain ⟨i, _, h⟩ := withLatch_eq_next.1 h
      unfold withByte at h
      split at h
      · obtain ⟨q, hq, e⟩ := andThen_eq_next.1 h
        cases e; exact ⟨_, _, act_of_memWrite hq, .inl rfl, rfl⟩
      · cases h
    · cases h

/-! A step -/

/-- What one step can be: the micro-step of the running operation, the host's next act on an idle sequencer, or nothing. -/
theorem step_cases {s t : State} (h : step s = .next t) :
    (∃ op k lat, s.seq = .running op k lat ∧ hostIsEarly s = false ∧ microStep op k lat s = .next t) ∨
    (∃ a rest, s.seq = .idle ∧ s.host = a :: rest ∧ serve a.request { s with host := rest } = .next t) ∨
    (s.seq = .idle ∧ s.host = [] ∧ t = s) := by
  unfold step advance at h
  split at h
  · rename_i op k lat hs
    split at h
    · cases h
    · exact .inl ⟨op, k, lat, hs, by simp_all, h⟩
  · rename_i hs
    split at h
    · rename_i a rest hh; exact .inr (.inl ⟨a, rest, hs, hh, h⟩)
    · rename_i hh; cases h; exact .inr (.inr ⟨hs, hh, rfl⟩)

/-- What one step can do to the block, with `h` the host's acts still to come. -/
theorem step_effect {s t : State} (h : step s = .next t) :
    ∃ h w x, Act { s with host := h } w ∧
      (x = w ∨ ∃ d b u v k lat, s.seq = .running (.init d b) k lat ∧ uartIndex s.cfg d = some u ∧ x = setDriver u v w) ∧
      SameBlock x t := by
  rcases step_cases h with ⟨op, k, lat, hs, _, h⟩ | ⟨a, rest, _, _, h⟩ | ⟨_, _, rfl⟩
  · obtain ⟨w, x, hw, hx, ht⟩ := microStep_effect h
    refine ⟨s.host, w, x, hw, ?_, ht⟩
    rcases hx with hx | ⟨d, b, u, v, rfl, hu, hx⟩
    · exact .inl hx
    · exact .inr ⟨d, b, u, v, k, lat, hs, hu, hx⟩
  · obtain ⟨w, hw, ht⟩ := serve_effect h
    exact ⟨rest, w, w, hw, .inl rfl, ht⟩
  · exact ⟨t.host, t, t, .nothing, .inl rfl, rfl⟩

/-- An act keeps the parameters, the sequencer, the port, the host's acts and every driver state. -/
theorem act_frame {s w : State} (h : Act s w) :
    w.cfg = s.cfg ∧ w.seq = s.seq ∧ w.outcome = s.outcome ∧ w.result = s.result ∧ w.host = s.host ∧
    ∀ u : UartIx, w.uart[u].drv = s.uart[u].drv := by
  cases h with
  | nothing => simp
  | read a r h => simp
  | write a v r w h hw =>
    have hd := writeReg_drv hw
    rw [writeReg_frame hw]
    exact ⟨rfl, rfl, rfl, rfl, rfl, hd⟩
  | delay n => simp
  | draw => simp

/-- An act appends at most one event (R71). -/
theorem act_trace {s w : State} (h : Act s w) : w.trace = s.trace ∨ ∃ e, w.trace = s.trace ++ [e] := by
  cases h with
  | nothing => exact .inl rfl
  | read a r h => exact .inr ⟨.rd a (readReg s r).1, by simp⟩
  | write a v r w h hw => exact .inr ⟨.wr a v, by rw [writeReg_frame hw]; rfl⟩
  | delay n => exact .inr ⟨_, rfl⟩
  | draw => exact .inl rfl

end Sys2Proof.Machine
end

