-- ==== Sys2Proof/Laws/Runs.lean ====
section
/-! SUPPORT. Running the sequencer: one lemma per transaction the micro-steps make, and how a run goes on from a running
operation under a patient host. -/

namespace Sys2Proof.Machine

open Sys2Proof.Safety

theorem runs_zero (s : State) : runs 0 s = .next s := rfl

theorem runs_succ_of_next {s t : State} (k : Nat) (h : step s = .next t) : runs (k + 1) s = runs k t := by
  simp only [runs, Host.Core.run]
  rw [show core.step s = .next t from h]

theorem runs_succ_eq_next {s t : State} {k : Nat} (h : runs (k + 1) s = .next t) : ∃ s', step s = .next s' ∧ runs k s' = .next t := by
  simp only [runs, Host.Core.run] at h
  split at h
  · rename_i s' hs; exact ⟨s', hs, h⟩
  · cases h
  · cases h

/-- Two runs, one after the other. -/
theorem runs_add {s t : State} (j k : Nat) (h : runs j s = .next t) : runs (j + k) s = runs k t := by
  induction j generalizing s with
  | zero => cases h; simp
  | succ j ih =>
    obtain ⟨s', hs, h⟩ := runs_succ_eq_next h
    rw [Nat.succ_add, runs_succ_of_next _ hs, ih h]

/-- A patient host's next act is no early issue. -/
theorem hostIsEarly_of_patient {s : State} (h : Patient s) : hostIsEarly s = false := by
  unfold hostIsEarly
  split
  · rename_i a rest e; exact h a (by simp [e])
  · rfl

/-- Under a patient host a running operation's step is its micro-step. -/
theorem step_of_running {s : State} {op : Operation} {k : Nat} {lat : Latches} (hp : Patient s)
    (hs : s.seq = .running op k lat) : step s = microStep op k lat s := by
  simp [step, advance, hs, hostIsEarly_of_patient hp]

/-- The run goes on through one micro-step. -/
theorem runs_of_running {s t : State} {op : Operation} {k : Nat} {lat : Latches} (n : Nat) (hp : Patient s)
    (hs : s.seq = .running op k lat) (h : microStep op k lat s = .next t) : runs (n + 1) s = runs n t :=
  runs_succ_of_next n ((step_of_running hp hs).trans h)

/-! The transactions -/

section
variable {s : State}

theorem memRead_gpfsel (h : Standing s.cfg) (n : Fin 6) :
    memRead (gpfselAddr s.cfg n.val) 4 s = .next (s.gpfsel[n], logEvent (.rd (gpfselAddr s.cfg n.val) s.gpfsel[n]) s) :=
  memRead_regAddr h.1 h.2.1 (.gpfsel n)

theorem memWrite_gpfsel (h : Standing s.cfg) (n : Fin 6) (v : Word) :
    memWrite (gpfselAddr s.cfg n.val) 4 v s =
      .next (logEvent (.wr (gpfselAddr s.cfg n.val) v) { s with gpfsel := s.gpfsel.set n v }) :=
  memWrite_regAddr h.1 h.2.1 (.gpfsel n) v

theorem memWrite_gppud (h : Standing s.cfg) (v : Word) :
    memWrite (gppudAddr s.cfg) 4 v s = .next (logEvent (.wr (gppudAddr s.cfg) v) { s with gppud := v }) :=
  memWrite_regAddr h.1 h.2.1 .gppud v

theorem memWrite_gppudclk (h : Standing s.cfg) (w : Fin 2) (v : Word) :
    memWrite (gppudclkAddr s.cfg w) 4 v s =
      .next (logEvent (.wr (gppudclkAddr s.cfg w) v) { s with gppudclk := s.gppudclk.set w v }) :=
  memWrite_regAddr h.1 h.2.1 (.gppudclk w) v

theorem memRead_fr (h : Standing s.cfg) (u : UartIx) :
    memRead (uartBase s.cfg u + frOff) 4 s =
      .next ((answerFr u s).1, logEvent (.rd (uartBase s.cfg u + frOff) (answerFr u s).1) (answerFr u s).2) :=
  memRead_regAddr h.1 h.2.1 (.fr u)

theorem memRead_dr (h : Standing s.cfg) (u : UartIx) :
    memRead (uartBase s.cfg u + drOff) 4 s =
      .next ((answerDr u s).1, logEvent (.rd (uartBase s.cfg u + drOff) (answerDr u s).1) (answerDr u s).2) :=
  memRead_regAddr h.1 h.2.1 (.dr u)

theorem memWrite_dr (h : Standing s.cfg) (u : UartIx) (v : Word) :
    memWrite (uartBase s.cfg u + drOff) 4 v s =
      .next (logEvent (.wr (uartBase s.cfg u + drOff) v)
        (setUart u { s.uart[u] with txLog := s.uart[u].txLog ++ [lowByte v] } s)) :=
  memWrite_regAddr h.1 h.2.1 (.dr u) v

theorem memWrite_ibrd (h : Standing s.cfg) (u : UartIx) (v : Word) :
    memWrite (uartBase s.cfg u + ibrdOff) 4 v s =
      .next (logEvent (.wr (uartBase s.cfg u + ibrdOff) v) (setUart u { s.uart[u] with ibrd := v } s)) :=
  memWrite_regAddr h.1 h.2.1 (.ibrd u) v

theorem memWrite_fbrd (h : Standing s.cfg) (u : UartIx) (v : Word) :
    memWrite (uartBase s.cfg u + fbrdOff) 4 v s =
      .next (logEvent (.wr (uartBase s.cfg u + fbrdOff) v) (setUart u { s.uart[u] with fbrd := v } s)) :=
  memWrite_regAddr h.1 h.2.1 (.fbrd u) v

theorem memWrite_lcrh (h : Standing s.cfg) (u : UartIx) (v : Word) :
    memWrite (uartBase s.cfg u + lcrhOff) 4 v s =
      .next (logEvent (.wr (uartBase s.cfg u + lcrhOff) v) (setUart u { s.uart[u] with lcrh := v } s)) :=
  memWrite_regAddr h.1 h.2.1 (.lcrh u) v

theorem memWrite_cr (h : Standing s.cfg) (u : UartIx) (v : Word) :
    memWrite (uartBase s.cfg u + crOff) 4 v s =
      .next (logEvent (.wr (uartBase s.cfg u + crOff) v) (setUart u { s.uart[u] with cr := v } s)) :=
  memWrite_regAddr h.1 h.2.1 (.cr u) v

end

end Sys2Proof.Machine
end

