-- ==== Sys2Proof/Laws/MicroSteps.lean ====
section
/-! SUPPORT. What each micro-step of the GPIO operations does in a standing configuration, and the two blocks of
micro-steps that `init` runs in line (R33). -/

namespace Sys2Proof.Machine

open Sys2Proof.Safety

section
variable {s : State} {lat : Latches}

/-! The steps of `set_function` (R160) -/

theorem setFunctionBody_zero (p : Pin) (f : Function) :
    setFunctionBody p f 0 lat s = .next (s, { lat with idx := some (fselIndex p).val, off := some (fselOffset p) }) := rfl

theorem setFunctionBody_one (h : Standing s.cfg) {p : Pin} (f : Function) (hi : lat.idx = some (fselIndex p).val) :
    setFunctionBody p f 1 lat s =
      .next (logEvent (.rd (gpfselAddr s.cfg (fselIndex p).val) s.gpfsel[fselIndex p]) s,
        { lat with word := some s.gpfsel[fselIndex p] }) := by
  simp only [setFunctionBody, hi, withLatch_some, memRead_gpfsel h, andThen_next]

theorem setFunctionBody_two (h : Standing s.cfg) {p : Pin} (f : Function) {w : Word} (hi : lat.idx = some (fselIndex p).val)
    (ho : lat.off = some (fselOffset p)) (hw : lat.word = some w) :
    setFunctionBody p f 2 lat s =
      .next (logEvent (.wr (gpfselAddr s.cfg (fselIndex p).val) (mergeBits w (fselOffset p) 3 (fselWord s.cfg f)))
        { s with gpfsel := s.gpfsel.set (fselIndex p) (mergeBits w (fselOffset p) 3 (fselWord s.cfg f)) }, lat) := by
  simp only [setFunctionBody, hi, ho, hw, withLatch_some, memWrite_gpfsel h, andThen_next]

/-! The steps of `enable_pin` (R162) -/

theorem enablePinBody_zero (h : Standing s.cfg) (p : Pin) :
    enablePinBody p 0 lat s =
      .next (logEvent (.wr (gppudAddr s.cfg) (pullOffWord s.cfg)) { s with gppud := pullOffWord s.cfg }, lat) := by
  simp only [enablePinBody, memWrite_gppud h, andThen_next]

theorem enablePinBody_one (p : Pin) : enablePinBody p 1 lat s = .next (delayFor 150 s, lat) := rfl

theorem enablePinBody_two (h : Standing s.cfg) (p : Pin) :
    enablePinBody p 2 lat s =
      .next (logEvent (.wr (gppudclkAddr s.cfg (clkIndex p)) (clkWord p))
        { s with gppudclk := s.gppudclk.set (clkIndex p) (clkWord p) }, lat) := by
  simp only [enablePinBody, memWrite_gppudclk h, andThen_next]

theorem enablePinBody_three (p : Pin) : enablePinBody p 3 lat s = .next (delayFor 150 s, lat) := rfl

theorem enablePinBody_four (h : Standing s.cfg) (p : Pin) :
    enablePinBody p 4 lat s =
      .next (logEvent (.wr (gppudAddr s.cfg) (pullOffWord s.cfg)) { s with gppud := pullOffWord s.cfg }, lat) := by
  simp only [enablePinBody, memWrite_gppud h, andThen_next]

theorem enablePinBody_five (h : Standing s.cfg) (p : Pin) :
    enablePinBody p 5 lat s =
      .next (logEvent (.wr (gppudclkAddr s.cfg (clkIndex p)) 0) { s with gppudclk := s.gppudclk.set (clkIndex p) 0 }, lat) := by
  simp only [enablePinBody, memWrite_gppudclk h, andThen_next]

end

/-- The state after the micro-steps of `set_function`, wherever they run. -/
def afterSetFunction (p : Pin) (f : Function) (s : State) : State :=
  { s with gpfsel := setFunctionWords s.cfg s.gpfsel p f, trace := s.trace ++ setFunctionEvents s.cfg s.gpfsel p f }

/-- The state after the micro-steps of `enable_pin`, wherever they run. -/
def afterEnablePin (p : Pin) (s : State) : State :=
  { s with gppud := pullOffWord s.cfg, gppudclk := s.gppudclk.set (clkIndex p) 0,
           trace := s.trace ++ enablePinEvents s.cfg p }

/-- One micro-step of a running operation that goes on to the next label. -/
theorem runs_goTo {op : Operation} {k k' : Nat} {lat lat' : Latches} {s t : State} (n : Nat) (hp : Patient s)
    (h : microStep op k lat (goTo op k lat s) = .next (goTo op k' lat' t)) :
    runs (n + 1) (goTo op k lat s) = runs n (goTo op k' lat' t) :=
  runs_of_running n (s := goTo op k lat s) hp rfl h

/-- The three micro-steps of `set_function` in line, from label `k` of an operation that runs them there (R33, R160). -/
theorem runs_setFunctionBlock {op : Operation} {k : Nat} {p : Pin} {f : Function} {s : State} (n : Nat) (lat : Latches)
    (hp : Patient s) (hst : Standing s.cfg)
    (H : ∀ j, j < 3 → ∀ lat s', s'.cfg = s.cfg → microStep op (k + j) lat s' =
      andThen (setFunctionBody p f j lat s') fun q => .next (goTo op (k + j + 1) q.2 q.1)) :
    ∃ lat', runs (n + 3) (goTo op k lat s) = runs n (goTo op (k + 3) lat' (afterSetFunction p f s)) := by
  let l1 : Latches := { lat with idx := some (fselIndex p).val, off := some (fselOffset p) }
  let l2 : Latches := { l1 with word := some s.gpfsel[fselIndex p] }
  let s1 := logEvent (.rd (gpfselAddr s.cfg (fselIndex p).val) s.gpfsel[fselIndex p]) s
  have e0 : microStep op k lat (goTo op k lat s) = .next (goTo op (k + 1) l1 s) :=
    (H 0 (by decide) lat (goTo op k lat s) rfl).trans rfl
  have e1 : microStep op (k + 1) l1 (goTo op (k + 1) l1 s) = .next (goTo op (k + 2) l2 s1) := by
    rw [H 1 (by decide) l1 (goTo op (k + 1) l1 s) rfl, setFunctionBody_one (s := goTo op (k + 1) l1 s) hst f rfl]; rfl
  have e2 : microStep op (k + 2) l2 (goTo op (k + 2) l2 s1) = .next (goTo op (k + 3) l2 (afterSetFunction p f s)) := by
    rw [H 2 (by decide) l2 (goTo op (k + 2) l2 s1) rfl, setFunctionBody_two (s := goTo op (k + 2) l2 s1) hst f rfl rfl rfl]
    simp [s1, goTo, logEvent, afterSetFunction, setFunctionEvents, setFunctionWords, setFunctionWord]
  exact ⟨l2, by rw [runs_goTo (n + 2) hp e0, runs_goTo (n + 1) hp e1, runs_goTo n (s := s1) hp e2]⟩

/-- The six micro-steps of `enable_pin` in line, from label `k` of an operation that runs them there (R33, R162). -/
theorem runs_enablePinBlock {op : Operation} {k : Nat} {p : Pin} {s : State} (n : Nat) (lat : Latches)
    (hp : Patient s) (hst : Standing s.cfg)
    (H : ∀ j, j < 6 → ∀ lat s', s'.cfg = s.cfg → microStep op (k + j) lat s' =
      andThen (enablePinBody p j lat s') fun q => .next (goTo op (k + j + 1) q.2 q.1)) :
    runs (n + 6) (goTo op k lat s) = runs n (goTo op (k + 6) lat (afterEnablePin p s)) := by
  have go : ∀ (F : State → State) (j m : Nat) (t : State), j < 6 → t.cfg = s.cfg → t.host = s.host →
      (∀ s', s'.cfg = s.cfg → enablePinBody p j lat s' = .next (F s', lat)) →
      (∀ op k k', goTo op k' lat (F (goTo op k lat t)) = goTo op k' lat (F t)) →
      runs (m + 1) (goTo op (k + j) lat t) = runs m (goTo op (k + j + 1) lat (F t)) := by
    intro F j m t hj hc hh hF hcomm
    refine runs_goTo m (by unfold Patient; rw [hh]; exact hp) ?_
    rw [H j hj lat (goTo op (k + j) lat t) hc, hF (goTo op (k + j) lat t) hc, andThen_next, hcomm]
  let pull := fun t : State => logEvent (.wr (gppudAddr t.cfg) (pullOffWord t.cfg)) { t with gppud := pullOffWord t.cfg }
  let clk := fun (v : Word) (t : State) =>
    logEvent (.wr (gppudclkAddr t.cfg (clkIndex p)) v) { t with gppudclk := t.gppudclk.set (clkIndex p) v }
  have e : afterEnablePin p s = clk 0 (pull (delayFor 150 (clk (clkWord p) (delayFor 150 (pull s))))) := by
    simp [pull, clk, logEvent, delayFor, afterEnablePin, enablePinEvents]
  rw [e]
  refine (go pull 0 (n + 5) s (by decide) rfl rfl (fun s' c => enablePinBody_zero (c ▸ hst) p) fun _ _ _ => rfl).trans ?_
  generalize h1 : pull s = s1
  have c1 : s1.cfg = s.cfg ∧ s1.host = s.host := by rw [← h1]; exact ⟨rfl, rfl⟩
  refine (go (delayFor 150) 1 (n + 4) s1 (by decide) c1.1 c1.2 (fun s' _ => enablePinBody_one p) fun _ _ _ => rfl).trans ?_
  generalize h2 : delayFor 150 s1 = s2
  have c2 : s2.cfg = s.cfg ∧ s2.host = s.host := by rw [← h2]; exact c1
  refine (go (clk (clkWord p)) 2 (n + 3) s2 (by decide) c2.1 c2.2 (fun s' c => enablePinBody_two (c ▸ hst) p)
    fun _ _ _ => rfl).trans ?_
  generalize h3 : clk (clkWord p) s2 = s3
  have c3 : s3.cfg = s.cfg ∧ s3.host = s.host := by rw [← h3]; exact c2
  refine (go (delayFor 150) 3 (n + 2) s3 (by decide) c3.1 c3.2 (fun s' _ => enablePinBody_three p) fun _ _ _ => rfl).trans ?_
  generalize h4 : delayFor 150 s3 = s4
  have c4 : s4.cfg = s.cfg ∧ s4.host = s.host := by rw [← h4]; exact c3
  refine (go pull 4 (n + 1) s4 (by decide) c4.1 c4.2 (fun s' c => enablePinBody_four (c ▸ hst) p) fun _ _ _ => rfl).trans ?_
  generalize h5 : pull s4 = s5
  have c5 : s5.cfg = s.cfg ∧ s5.host = s.host := by rw [← h5]; exact c4
  refine (go (clk 0) 5 n s5 (by decide) c5.1 c5.2 (fun s' c => enablePinBody_five (c ▸ hst) p) fun _ _ _ => rfl).trans rfl

end Sys2Proof.Machine
end

