-- ==== Sys2Proof/Laws/PerInstr.lean ====
section
/-! SUPPORT. Statements made of every instruction as syntax, one lemma per constructor. `InTable`: under the default GPIO
offsets an instruction's code has the format of its row of spec/opcode_table.json and agrees with the row's `match` under
its `mask`. -/

namespace Sys2Proof.Laws

/-- A row of spec/opcode_table.json: its format, `match` and `mask`. -/
inductive TableRow where
  | op (pattern mask : BitVec 4)
  | uop (pattern mask : BitVec 11)
deriving DecidableEq, Repr

/-- A code agrees with a row. -/
def TableRow.holds : TableRow → Code → Bool
  | .op m k, .op sel    => sel &&& k == m
  | .uop m k, .uop desc => desc &&& k == m
  | _, _                => false

/-- The row of an instruction, copied from the table. -/
def tableRow : Instr → TableRow
  | .extractField _ _ _ => .op 0x0 0xF
  | .mergeField _ _ _ _ => .op 0x1 0xF
  | .setFunction _ _    => .op 0x2 0xF
  | .enablePin _        => .op 0x3 0xF
  | .baudDivisor _ _    => .op 0x4 0xF
  | .init _ _           => .op 0x5 0xF
  | .send _ _           => .op 0x6 0xF
  | .recv _             => .op 0x7 0xF
  | .sendString _ _     => .op 0x8 0xF
  | .getByIndex _       => .op 0x9 0xF
  | .rdGpfsel _         => .uop 0x000 0x7E3
  | .wrGpfsel _ _       => .uop 0x200 0x7E3
  | .wrGppud _          => .uop 0x294 0x7FF
  | .wrGppudclk0 _      => .uop 0x298 0x7FF
  | .wrGppudclk1 _      => .uop 0x29C 0x7FF
  | .rdDr _             => .uop 0x100 0x7FF
  | .wrDr _ _           => .uop 0x300 0x7FF
  | .rdFr _             => .uop 0x118 0x7FF
  | .wrIbrd _ _         => .uop 0x324 0x7FF
  | .wrFbrd _ _         => .uop 0x328 0x7FF
  | .wrLcrh _ _         => .uop 0x32C 0x7FF
  | .wrCr _ _           => .uop 0x330 0x7FF
  | .delay _            => .uop 0x400 0x7FF

/-- The code of the instruction agrees with its row of the table. -/
def InTable.Statement (i : Instr) : Prop :=
  (tableRow i).holds (encode (Machine.defaultConfig .first).gpio i).code = true

theorem InTable.extractField (w : Word) (o n : Nat) : InTable.Statement (.extractField w o n) := rfl
theorem InTable.mergeField (w : Word) (o n : Nat) (v : Word) : InTable.Statement (.mergeField w o n v) := rfl
theorem InTable.setFunction (p : Int) (f : Function) : InTable.Statement (.setFunction p f) := rfl
theorem InTable.enablePin (p : Int) : InTable.Statement (.enablePin p) := rfl
theorem InTable.baudDivisor (f : Clock) (b : Word) : InTable.Statement (.baudDivisor f b) := rfl
theorem InTable.init (d : Descriptor) (b : Word) : InTable.Statement (.init d b) := rfl
theorem InTable.send (d : Descriptor) (b : Byte) : InTable.Statement (.send d b) := rfl
theorem InTable.recv (d : Descriptor) : InTable.Statement (.recv d) := rfl
theorem InTable.sendString (d : Descriptor) (bs : List Byte) : InTable.Statement (.sendString d bs) := rfl
theorem InTable.getByIndex (i : Int) : InTable.Statement (.getByIndex i) := rfl
theorem InTable.rdGpfsel (n : Fin 6) : InTable.Statement (.rdGpfsel n) := by unfold InTable.Statement; revert n; decide
theorem InTable.wrGpfsel (n : Fin 6) (v : Word) : InTable.Statement (.wrGpfsel n v) := by
  have h : ∀ n : Fin 6, InTable.Statement (.wrGpfsel n 0) := by unfold InTable.Statement; decide
  exact h n
theorem InTable.wrGppud (v : Word) : InTable.Statement (.wrGppud v) := rfl
theorem InTable.wrGppudclk0 (v : Word) : InTable.Statement (.wrGppudclk0 v) := rfl
theorem InTable.wrGppudclk1 (v : Word) : InTable.Statement (.wrGppudclk1 v) := rfl
theorem InTable.rdDr (d : Descriptor) : InTable.Statement (.rdDr d) := rfl
theorem InTable.wrDr (d : Descriptor) (v : Word) : InTable.Statement (.wrDr d v) := rfl
theorem InTable.rdFr (d : Descriptor) : InTable.Statement (.rdFr d) := rfl
theorem InTable.wrIbrd (d : Descriptor) (v : Word) : InTable.Statement (.wrIbrd d v) := rfl
theorem InTable.wrFbrd (d : Descriptor) (v : Word) : InTable.Statement (.wrFbrd d v) := rfl
theorem InTable.wrLcrh (d : Descriptor) (v : Word) : InTable.Statement (.wrLcrh d v) := rfl
theorem InTable.wrCr (d : Descriptor) (v : Word) : InTable.Statement (.wrCr d v) := rfl
theorem InTable.delay (n : Nat) : InTable.Statement (.delay n) := rfl

end Sys2Proof.Laws
end

