-- ==== Sys2Proof/Laws/Polls.lean ====
section
/-! SUPPORT. When a raw write of a data register is let through: the machine's test of the trace says what R269 says. -/

namespace Sys2Proof.Machine

open Sys2Proof.Safety

/-- The machine's test of an event is the access of R269. -/
theorem touchesUart_iff {c : Config} {u : UartIx} {e : Event} : touchesUart c u e = true ↔ UartAccess c u e := by
  simp only [UartAccess]
  cases e <;> simp only [touchesUart, List.any_eq_true, beq_iff_eq] <;> constructor
  · rintro ⟨r, hr, rfl⟩; exact ⟨r, hr, _, .inl rfl⟩
  · rintro ⟨r, hr, v, h | h⟩ <;> cases h; exact ⟨r, hr, rfl⟩
  · rintro ⟨r, hr, rfl⟩; exact ⟨r, hr, _, .inr rfl⟩
  · rintro ⟨r, hr, v, h | h⟩ <;> cases h; exact ⟨r, hr, rfl⟩
  · intro h; cases h
  · rintro ⟨r, hr, v, h | h⟩ <;> cases h

/-- A read of a UART's flag register is an access of that UART. -/
theorem uartAccess_rd_fr (c : Config) (u : UartIx) (v : Word) : UartAccess c u (.rd (uartBase c u + frOff) v) :=
  ⟨.fr u, by simp [uartRegs], v, .inl rfl⟩

/-- What the last access of a UART is: it stands on the trace and no access of that UART follows it. -/
theorem lastAccess_eq_some {u : UartIx} {s : State} {e : Event} :
    lastAccess u s = some e ↔ UartAccess s.cfg u e ∧ ∃ es fs, s.trace = es ++ e :: fs ∧ ∀ x ∈ fs, ¬ UartAccess s.cfg u x := by
  rw [lastAccess, List.find?_eq_some_iff_append, touchesUart_iff]
  refine and_congr_right fun _ => ⟨?_, ?_⟩
  · rintro ⟨as, bs, h, hn⟩
    refine ⟨bs.reverse, as.reverse, by simpa using congrArg List.reverse h, fun x hx => ?_⟩
    rw [← touchesUart_iff]
    simpa using hn x (by simpa using hx)
  · rintro ⟨es, fs, h, hn⟩
    refine ⟨fs.reverse, es.reverse, by simp [h], fun x hx => ?_⟩
    have := hn x (by simpa using hx)
    rw [← touchesUart_iff] at this
    simpa using this

/-- A raw write of `DR` is let through exactly after a poll that lets it pass (R73, R269). -/
theorem transmitPolled_iff {u : UartIx} {s : State} : transmitPolled u s = true ↔ TransmitPolled s u := by
  constructor
  · intro h
    unfold transmitPolled at h
    split at h
    · rename_i a v hl
      simp only [Bool.and_eq_true, beq_iff_eq, Bool.not_eq_true'] at h
      obtain ⟨rfl, hv⟩ := h
      obtain ⟨_, es, fs, ht, hn⟩ := lastAccess_eq_some.1 hl
      exact ⟨es, v, fs, ht, hv, hn⟩
    · cases h
  · rintro ⟨es, v, fs, ht, hv, hn⟩
    have hl := lastAccess_eq_some.2 ⟨uartAccess_rd_fr s.cfg u v, es, fs, ht, hn⟩
    simp only [transmitPolled, hl, beq_self_eq_true, Bool.true_and, Bool.not_eq_true']
    exact hv

end Sys2Proof.Machine
end

