-- ==== Sys2Proof/WellFormed.lean ====
section
/-! DEFINITION. When an instruction's operands are of the types of R100 and meet the operation's stated input
condition. `exec` does not assume it: what an operand outside it does is part of each meaning. -/

namespace Sys2Proof

/-- A pin operand is an integer in [0, 53] (R100, R161). -/
def pinInRange (pin : Int) : Bool := decide (0 ≤ pin) && decide (pin ≤ 53)

/-- The codec's input condition `width <= 32 - bit_offset` over the integers (R150). -/
def fieldInWord (bitOffset width : Nat) : Bool := decide (bitOffset + width ≤ 32)

/-- Well-formedness, instruction by instruction. Operands whose Lean type is exactly the spec's type need no
check; whether a descriptor is a registry entry depends on the configuration and is checked by `exec`. -/
def Instr.wellFormed : Instr → Bool
  | .extractField _ o n  => fieldInWord o n
  | .mergeField _ o n _  => fieldInWord o n
  | .setFunction p _     => pinInRange p
  | .enablePin p         => pinInRange p
  | .baudDivisor _ b     => decide (b ≠ 0)
  | .init _ _            => true
  | .send _ _            => true
  | .recv _              => true
  | .sendString _ _      => true
  | .getByIndex _        => true
  | .rdGpfsel _          => true
  | .wrGpfsel _ _        => true
  | .wrGppud _           => true
  | .wrGppudclk0 _       => true
  | .wrGppudclk1 _       => true
  | .rdDr _              => true
  | .wrDr _ _            => true
  | .rdFr _              => true
  | .wrIbrd _ _          => true
  | .wrFbrd _ v          => decide (v.toNat < 64)
  | .wrLcrh _ _          => true
  | .wrCr _ _            => true
  | .delay n             => decide (150 ≤ n)

end Sys2Proof
end

