-- ==== Sys2Proof/Tests/Slice0.lean ====
section
/-! SUPPORT. The model's own tests: ill-formed terms, words written out from the operation map, vectors of
95_test_vectors.md one step at a time, and for every statement with hypotheses a witness that meets them. -/

namespace Sys2Proof.Tests

open Sys2Proof.Machine Sys2Proof.Safety

/-! Helpers -/

/-- The board of the vectors: defaults, every register 0 (CR: 0x300). -/
def bench : State := State.reset

/-- UART 0 enabled, with scripted answers of its flag register and its data register. -/
def enabled (fr dr : List Word) : State :=
  { bench with uart := bench.uart.set 0 { bench.uart[0] with drv := .enabled }, answers := #v[⟨fr, dr⟩, ⟨[], []⟩] }

/-- A clock of so many hertz. -/
abbrev hertz (n : Nat) (h : 0 < n) : Clock := ⟨n, h⟩

/-- The bench after a poll of UART 0 that lets a write pass: FR answered 0. -/
def polled : State := { bench with trace := [.rd 0x3F201018 0] }

/-- Registry entry 0. -/
def d0 : Descriptor := bench.cfg.registry[0]

/-- The base of UART 0 and of the GPIO block at the defaults. -/
def u0 : Nat := 0x3F201000
def g0 : Nat := 0x3F200000

/-- What an answer's next state shows. -/
def see {α : Type} (f : State → α) : Answer State → Option α
  | .next t => some (f t)
  | _       => none

/-- The refusal of an answer. -/
def refusal : Answer State → Option Refusal
  | .refused r => some r
  | _          => none

/-- The result port. -/
def port (s : State) : Option OutcomeCode × Result := (s.outcome, s.result)

/-- The host's next act is the issue of a code. -/
def issuing (e : Encoded) (s : State) : State := { s with host := [{ early := false, request := .issue e }] }

/-! WellFormed: each check refuses an ill-formed term -/

theorem test_wf_extract : (Instr.extractField 0 30 3).wellFormed = false := by decide
theorem test_wf_merge : (Instr.mergeField 0 33 0 0).wellFormed = false := by decide
theorem test_wf_set_function_low : (Instr.setFunction (-1) .alt0).wellFormed = false := by decide
theorem test_wf_set_function_high : (Instr.setFunction 54 .alt0).wellFormed = false := by decide
theorem test_wf_enable_pin : (Instr.enablePin 54).wellFormed = false ∧ (Instr.enablePin (-1)).wellFormed = false := by decide
theorem test_wf_baud_rate : (Instr.baudDivisor (hertz 48000000 (by decide)) 0).wellFormed = false := by decide
theorem test_wf_fbrd : (Instr.wrFbrd d0 64).wellFormed = false := by decide
theorem test_wf_delay : (Instr.delay 149).wellFormed = false := by decide
theorem test_wf_good : (Instr.extractField 0 32 0).wellFormed = true ∧ (Instr.setFunction 53 .alt5).wellFormed = true ∧
    (Instr.wrFbrd d0 63).wellFormed = true ∧ (Instr.delay 150).wellFormed = true := by decide

/-! Decode: every row's word, written out from 30_encoding.md R105 and R106 and the list in 95_test_vectors.md -/

/-- What the decoder reads on the board of the vectors. -/
def reads (c : Code) (p : Ports) : Option Instr := (decode bench.cfg.gpio ⟨c, p⟩).toOption

theorem test_decode_extract_field (p : Ports) : reads (.op 0b0000#4) p = some (.extractField p.word p.bitOffset p.width) := rfl
theorem test_decode_merge_field (p : Ports) : reads (.op 0b0001#4) p = some (.mergeField p.word p.bitOffset p.width p.value) := rfl
theorem test_decode_set_function (p : Ports) : reads (.op 0b0010#4) p = some (.setFunction p.pin p.function) := rfl
theorem test_decode_enable_pin (p : Ports) : reads (.op 0b0011#4) p = some (.enablePin p.pin) := rfl
theorem test_decode_baud_divisor (p : Ports) : reads (.op 0b0100#4) p = some (.baudDivisor p.clock p.baudrate) := rfl
theorem test_decode_init (p : Ports) : reads (.op 0b0101#4) p = some (.init p.d p.baudrate) := rfl
theorem test_decode_send (p : Ports) : reads (.op 0b0110#4) p = some (.send p.d p.byte) := rfl
theorem test_decode_recv (p : Ports) : reads (.op 0b0111#4) p = some (.recv p.d) := rfl
theorem test_decode_send_string (p : Ports) : reads (.op 0b1000#4) p = some (.sendString p.d p.bytes) := rfl
theorem test_decode_get_by_index (p : Ports) : reads (.op 0b1001#4) p = some (.getByIndex p.index) := rfl
theorem test_decode_reserved (p : Ports) : reads (.op 0b1010#4) p = none ∧ reads (.op 0b1111#4) p = none := ⟨rfl, rfl⟩
theorem test_decode_rd_gpfsel1 (p : Ports) : reads (.uop 0b00000000100#11) p = some (.rdGpfsel 1) := rfl
theorem test_decode_wr_gpfsel3 (p : Ports) : reads (.uop 0b01000001100#11) p = some (.wrGpfsel 3 p.data) := rfl
theorem test_decode_wr_gppud (p : Ports) : reads (.uop 0b01010010100#11) p = some (.wrGppud p.data) := rfl
theorem test_decode_wr_gppudclk0 (p : Ports) : reads (.uop 0b01010011000#11) p = some (.wrGppudclk0 p.data) := rfl
theorem test_decode_wr_gppudclk1 (p : Ports) : reads (.uop 0b01010011100#11) p = some (.wrGppudclk1 p.data) := rfl
theorem test_decode_rd_dr (p : Ports) : reads (.uop 0b00100000000#11) p = some (.rdDr p.d) := rfl
theorem test_decode_wr_dr (p : Ports) : reads (.uop 0b01100000000#11) p = some (.wrDr p.d p.data) := rfl
theorem test_decode_rd_fr (p : Ports) : reads (.uop 0b00100011000#11) p = some (.rdFr p.d) := rfl
theorem test_decode_wr_ibrd (p : Ports) : reads (.uop 0b01100100100#11) p = some (.wrIbrd p.d p.data) := rfl
theorem test_decode_wr_fbrd (p : Ports) : reads (.uop 0b01100101000#11) p = some (.wrFbrd p.d p.data) := rfl
theorem test_decode_wr_lcrh (p : Ports) : reads (.uop 0b01100101100#11) p = some (.wrLcrh p.d p.data) := rfl
theorem test_decode_wr_cr (p : Ports) : reads (.uop 0b01100110000#11) p = some (.wrCr p.d p.data) := rfl
theorem test_decode_delay (p : Ports) : reads (.uop 0b10000000000#11) p = some (.delay p.cycles) := rfl
theorem test_decode_gap (p : Ports) :
    reads (.uop 0b00000011000#11) p = none ∧ reads (.uop 0b10000000001#11) p = none ∧
    reads (.uop 0b01100011000#11) p = none := ⟨rfl, rfl, rfl⟩
theorem test_table_word_op : decodeTableWord 4 0b0111 = some (.recv d0) := by decide
theorem test_table_word_uop : decodeTableWord 11 0x32C = some (.wrLcrh d0 0) := by decide
theorem test_fetch_table_word : step (bench.withFetchWord 11 0x400) = exec (.delay 0) bench := rfl

/-! The codec (95_test_vectors.md 2.1, 2.2) -/

theorem test_extract_31 : see port (exec (.extractField 0xDEADBEEF 1 31) bench) = some (some .ok, .word 0x6F56DF77) := by decide
theorem test_extract_whole : see port (exec (.extractField 0xFFFFFFFF 0 32) bench) = some (some .ok, .word 0xFFFFFFFF) := by decide
theorem test_merge_masks : see port (exec (.mergeField 0x12345678 28 4 0x1F) bench) = some (some .ok, .word 0xF2345678) := by decide
theorem test_merge_empty : see port (exec (.mergeField 0xABCDEF01 32 0 0xFFFFFFFF) bench) = some (some .ok, .word 0xABCDEF01) := by
  decide

/-! set_function and enable_pin (2.3, 2.4, 2.5) -/

/-- The latches after S0 and S1 of `set_function`. -/
def readLatches (idx off : Nat) (w : Word) : Latches :=
  { Latches.unwritten with idx := some idx, off := some off, word := some w }

theorem test_set_function_49 :
    see (fun t => (t.gpfsel[4], t.seq, t.trace))
      (microStep (.setFunction 49 .alt1) 2 (readLatches 4 27 0xC0000000) bench) =
      some (0xE8000000, .idle, [.wr (g0 + 16) 0xE8000000]) := by decide
theorem test_set_function_reads :
    see (fun t => (t.seq, t.trace)) (microStep (.setFunction 53 .alt3) 1 (readLatches 5 9 0) bench) =
      some (.running (.setFunction 53 .alt3) 2 (readLatches 5 9 0), [.rd (g0 + 20) 0]) := by decide
theorem test_enable_pin_53 :
    see (fun t => (t.gppudclk, t.trace)) (microStep (.enablePin 53) 2 .unwritten bench) =
      some (#v[0, 0x00200000], [.wr (g0 + 0x9C) 0x00200000]) := by decide
theorem test_enable_pin_last :
    see (fun t => (t.gppudclk, t.outcome, t.seq)) (microStep (.enablePin 14) 5 .unwritten { bench with gppudclk := #v[7, 7] }) =
      some (#v[0, 7], some .ok, .idle) := by decide

/-! baud_divisor (S2, 2.6) -/

theorem test_baud_tie : see port (exec (.baudDivisor (hertz 3000000 (by decide)) 38400) bench) = some (some .ok, .divisors 4 57) := by decide
theorem test_baud_zero : see port (exec (.baudDivisor (hertz 3 (by decide)) 0) bench) = some (some .divisorSkipped, .none) := by decide

/-! init (2.11, P1) -/

theorem test_init_divisors :
    see (fun t => t.seq) (microStep (.init d0 115200) 19 .unwritten bench) =
      some (.running (.init d0 115200) 20
        { Latches.unwritten with scaled := some 1667, ibrd := some 26, fbrd := some 3, res := some .ok }) := by decide
theorem test_init_last :
    see (fun t => (t.uart[0].cr, t.uart[0].drv, t.trace, t.outcome))
      (microStep (.init d0 0) 23 { Latches.unwritten with res := some .divisorSkipped } bench) =
      some (0x301, .enabled, [.wr (u0 + 0x30) 0x301], some .divisorSkipped) := by decide

/-! send, recv, send_string (2.7, 2.8, 2.9) -/

theorem test_send_polls :
    see (fun t => (t.trace, t.seq)) (microStep (.send d0 0xFF) 0 .unwritten (enabled [0xFFFFFFFF] [])) =
      some ([.rd (u0 + 0x18) 0xFFFFFFFF],
        .running (.send d0 0xFF) 0 { Latches.unwritten with word := some 0xFFFFFFFF }) := by decide
theorem test_send_writes :
    see (fun t => (t.uart[0].txLog, t.trace, t.outcome)) (microStep (.send d0 0xFF) 1 .unwritten (enabled [] [])) =
      some ([0xFF], [.wr u0 0x000000FF], some .ok) := by decide
theorem test_recv_ignores_txff :
    see (fun t => t.seq) (microStep (.recv d0) 0 .unwritten (enabled [0x00000020] [])) =
      some (.running (.recv d0) 1 { Latches.unwritten with word := some 0x20 }) := by decide
theorem test_recv_low_byte :
    see (fun t => (t.trace, port t)) (microStep (.recv d0) 1 .unwritten (enabled [] [0x00000F41])) =
      some ([.rd u0 0x00000F41], some .ok, .byte 0x41) := by decide
theorem test_send_string_line_feed :
    see (fun t => t.seq) (microStep (.sendString d0 [0x0A]) 1 { Latches.unwritten with i := some 0 } (enabled [] [])) =
      some (.running (.sendString d0 [0x0A]) 2 { Latches.unwritten with i := some 0 }) := by decide
theorem test_send_string_return_first :
    see (fun t => (t.uart[0].txLog, t.trace)) (microStep (.sendString d0 [0x0A]) 3 { Latches.unwritten with i := some 0 } (enabled [] [])) =
      some ([0x0D], [.wr u0 0x0000000D]) := by decide
theorem test_string_out : stringOut bench.cfg [0x61, 0x0A, 0x62] = [0x61, 0x0D, 0x0A, 0x62] := by decide

/-! get_by_index (2.10) -/

theorem test_get_by_index_minus_one : see port (exec (.getByIndex (-1)) bench) = some (some .notFound, .absent) := by decide
theorem test_get_by_index_wide : see port (exec (.getByIndex 4294967295) bench) = some (some .notFound, .absent) := by decide

/-! Micro-operations and raw transactions (2.12) -/

theorem test_rd_gpfsel :
    see (fun t => (t.trace, t.result)) (exec (.rdGpfsel 1) { bench with gpfsel := #v[0, 0x00024000, 0, 0, 0, 0] }) =
      some ([.rd (g0 + 4) 0x00024000], .word 0x00024000) := by decide
theorem test_wr_gpfsel : see (fun t => (t.trace, t.gpfsel[5])) (exec (.wrGpfsel 5 0xE00) bench) =
    some ([.wr (g0 + 20) 0xE00], 0xE00) := by decide
theorem test_wr_gppud : see (fun t => (t.trace, t.gppud)) (exec (.wrGppud 2) bench) = some ([.wr (g0 + 0x94) 2], 2) := by decide
theorem test_wr_gppudclk0 : see (fun t => (t.trace, t.gppudclk)) (exec (.wrGppudclk0 0x4000) bench) =
    some ([.wr (g0 + 0x98) 0x4000], #v[0x4000, 0]) := by decide
theorem test_wr_gppudclk1 : see (fun t => (t.trace, t.gppudclk)) (exec (.wrGppudclk1 1) bench) =
    some ([.wr (g0 + 0x9C) 1], #v[0, 1]) := by decide
theorem test_rd_dr : see (fun t => (t.trace, t.result)) (exec (.rdDr d0) (enabled [] [0x41])) =
    some ([.rd u0 0x41], .word 0x41) := by decide
theorem test_wr_dr_full :
    refusal (exec (.wrDr d0 0x48) { bench with trace := [.rd (u0 + 0x18) 0x20] }) = some .writeToFullTransmitBuffer := by decide
theorem test_wr_dr_low_byte : see (fun t => (t.trace, t.uart[0].txLog)) (exec (.wrDr d0 0x148) polled) =
    some ([.rd (u0 + 0x18) 0, .wr u0 0x148], [0x48]) := by decide
theorem test_wr_dr_unpolled :
    refusal (exec (.wrDr d0 0x48) bench) = some .writeToFullTransmitBuffer ∧
    refusal (exec (.wrDr d0 0x48) { bench with trace := [.rd (u0 + 0x18) 0, .wr u0 0x48] }) = some .writeToFullTransmitBuffer := by
  decide
theorem test_rd_fr : see (fun t => (t.trace, t.result)) (exec (.rdFr d0) (enabled [0x90] [])) =
    some ([.rd (u0 + 0x18) 0x90], .word 0x90) := by decide
theorem test_wr_ibrd : see (fun t => (t.trace, t.uart[0].ibrd)) (exec (.wrIbrd d0 0xBEEF) bench) =
    some ([.wr (u0 + 0x24) 0xBEEF], 0xBEEF) := by decide
theorem test_wr_fbrd : see (fun t => (t.trace, t.uart[0].fbrd)) (exec (.wrFbrd d0 3) bench) =
    some ([.wr (u0 + 0x28) 3], 3) := by decide
theorem test_wr_lcrh : see (fun t => (t.trace, t.uart[0].lcrh)) (exec (.wrLcrh d0 0x60) { bench with uart := bench.uart.set 0 { bench.uart[0] with lcrh := 0xFF } }) =
    some ([.wr (u0 + 0x2C) 0x60], 0x60) := by decide
theorem test_wr_cr : see (fun t => (t.trace, t.uart[0].cr, t.uart[1].cr)) (exec (.wrCr d0 0x301) bench) =
    some ([.wr (u0 + 0x30) 0x301], 0x301, 0x300) := by decide
theorem test_delay : see (fun t => t.trace) (exec (.delay 150) bench) = some [.dl 150] := by decide
theorem test_raw_hole : refusal (rawRead (g0 + 0x1C) 4 bench) = some .unmappedAddress := by decide
theorem test_raw_flag_write : refusal (rawWrite (u0 + 0x18) 4 0 bench) = some .writeToFlagRegister := by decide

/-! Refusals (2.13) -/

theorem test_other_uart_not_enabled : refusal (exec (.send bench.cfg.registry[1] 0x48) (enabled [] [])) = some .uartNotEnabled := by
  decide
theorem test_busy_first :
    refusal (exec (.setFunction 60 .alt0) { bench with seq := .running (.recv d0) 0 .unwritten }) = some .sequencerBusy := by decide

/-! Witnesses: a concrete state and operands that meet all the hypotheses of a statement together -/

/-- A running operation on a board. -/
def running (op : Operation) (upc : Nat) (lat : Latches) (s : State) : State := { s with seq := .running op upc lat }

/-- A configuration whose two UARTs share a pin. -/
def aliased : Config := { defaultConfig .first with registry := #v[d0, { base := 0x3F201400, tx := 15, rx := 33, fn := .alt3 }] }

/-- Configurations whose two UARTs share a base, or an address. -/
def sameBase : Config := { defaultConfig .first with registry := #v[d0, { base := d0.base, tx := 32, rx := 33, fn := .alt3 }] }
def overlapping : Config :=
  { defaultConfig .first with registry := #v[d0, { base := d0.base + 0x30, tx := 32, rx := 33, fn := .alt3 }] }

/-- A configuration that refuses a codec violation. -/
def refusing : Config := { defaultConfig .first with codecViolation := .refuse }

/-- A configuration with a clock of 2^36 Hz. -/
def fast : Config := { defaultConfig .first with uartClock := hertz (2 ^ 36) (by decide) }

/-- A board with another configuration. -/
def board (c : Config) : State := State.launch c familyPowerOn

theorem test_registry_constraint :
    registryConstrained { defaultConfig .first with registry := #v[{ d0 with fn := .input }, (defaultConfig .first).registry[1]] } = false ∧
    registryConstrained { defaultConfig .first with registry := #v[{ d0 with fn := .alt3 }, (defaultConfig .first).registry[1]] } = false := by
  decide
theorem test_parameter_constraints :
    parametersConstrained { defaultConfig .first with frRxfeBit := 5 } = false ∧
    parametersConstrained { defaultConfig .first with crEnable := 0 } = false ∧
    parametersConstrained { defaultConfig .first with crEnable := 0x303 } = false ∧
    parametersConstrained { defaultConfig .first with byteCr := 0x0A } = false ∧
    bitsSet (defaultConfig .first).crEnable = [0, 8, 9] := by decide
theorem test_peripheral_base : addressesFromBase { defaultConfig .second with peripheralBase := 0xFE200001 } = false := by decide
theorem standing_default : Standing (defaultConfig .first) := by decide
theorem ready_bench : Ready bench := by decide
theorem patient_bench : Patient bench := by decide

/-- The invariant on a board whose logs and trace are empty and no UART is configured. -/
theorem inv_of_parts {s : State} (hc : Standing s.cfg) (hd : ∀ u : UartIx, s.uart[u].drv ≠ .configured)
    (hl : ∀ u : UartIx, s.uart[u].txLog = []) (ht : s.trace = []) (hs : SequencerOk s) : Inv s :=
  ⟨hc, hs, fun u h => absurd h (hd u), fun u => by rw [hl u, ht]; rfl⟩

theorem witness_launch_configuration : Standing (defaultConfig .first) ∧ Standing (defaultConfig .second) := by decide

theorem witness_step_issue :
    let s := issuing ⟨.op 0b1001#4, zeroPorts d0⟩ bench
    s.seq = .idle ∧ s.host = [{ early := false, request := .issue ⟨.op 0b1001#4, zeroPorts d0⟩ }] ∧
    (decode s.cfg.gpio ⟨.op 0b1001#4, zeroPorts d0⟩).toOption = some (.getByIndex 0) := by decide
theorem witness_step_running :
    let s := running (.enablePin 53) 5 .unwritten bench
    s.seq = .running (.enablePin 53) 5 .unwritten ∧ hostIsEarly s = false := by decide
theorem witness_step_nothing : bench.seq = .idle ∧ bench.host = [] := by decide

theorem witness_descriptors_fit : descriptorsFit (defaultConfig .first).gpio = true := by decide
theorem witness_encode_of_decode :
    descriptorsFit bench.cfg.gpio = true ∧ decode bench.cfg.gpio ⟨.uop 0x014, zeroPorts d0⟩ = .ok (.rdGpfsel 5) := ⟨by decide, rfl⟩

theorem witness_reserved_selector :
    let e : Encoded := ⟨.op 0b1010#4, zeroPorts d0⟩
    10 ≤ (0b1010#4).toNat ∧ (issuing e bench).seq = .idle ∧ (issuing e bench).host = [{ early := false, request := .issue e }] := by
  decide
theorem witness_reserved_selector_last : 10 ≤ (0b1111#4).toNat := by decide

theorem test_issue_descriptor_no_row :
    refusal (step (issuing ⟨.uop 0b00010010100#11, zeroPorts d0⟩ bench)) = some .noSuchOperation ∧
    refusal (step (issuing ⟨.uop 0b10000000001#11, zeroPorts d0⟩ bench)) = some .noSuchOperation := by decide
theorem witness_descriptor_no_row :
    ¬ HasRow bench.cfg.gpio 0b00010010100#11 ∧ ¬ HasRow bench.cfg.gpio 0b01100011000#11 ∧
    ¬ HasRow bench.cfg.gpio 0b00000011000#11 ∧ ¬ HasRow bench.cfg.gpio 0b11111111111#11 := by unfold HasRow; decide
theorem witness_descriptor_issue :
    let e : Encoded := ⟨.uop 0b00010010100#11, zeroPorts d0⟩
    (issuing e bench).seq = .idle ∧ (issuing e bench).host = [{ early := false, request := .issue e }] := by decide
theorem witness_descriptor_row : descriptorsFit bench.cfg.gpio = true ∧
    HasRow bench.cfg.gpio 0b00000010100#11 ∧ HasRow bench.cfg.gpio 0b01010011100#11 ∧ HasRow bench.cfg.gpio 0b10000000000#11 := by
  unfold HasRow; decide

theorem witness_field_in_word : Ready bench ∧ 0 + 32 ≤ 32 ∧ 32 + 0 ≤ 32 ∧ 31 + 1 ≤ 32 := by decide
theorem witness_codec_draw : Ready bench ∧ 32 < 33 + 0 ∧ bench.cfg.codecViolation = .draw := by decide
theorem witness_codec_refuse : Ready (board refusing) ∧ 32 < 30 + 3 ∧ (board refusing).cfg.codecViolation = .refuse := by decide
theorem witness_codec_laws : 16 + 8 ≤ 32 ∧ 24 + 8 ≤ 32 ∧ (16 + 8 ≤ 24 ∨ 24 + 8 ≤ 16) := by decide

theorem witness_gpio_runs : Ready bench ∧ Patient bench ∧ (0 : Fin 2).val = (31 : Pin).val / 32 ∧ (1 : Fin 2).val = (32 : Pin).val / 32 := by
  decide
theorem witness_no_bleed_over : Ready bench ∧ Patient bench ∧ (5 : Fin 6).val = (53 : Pin).val / 10 ∧
    (0 < 10 ∧ 0 ≠ (53 : Pin).val % 10) ∧ (9 < 10 ∧ 9 ≠ (53 : Pin).val % 10) ∧ (4 : Fin 6) ≠ 5 := by decide
theorem witness_pin_out_of_range : Ready bench ∧ ((-1 : Int) < 0 ∨ 53 < (-1 : Int)) ∧ ((54 : Int) < 0 ∨ 53 < (54 : Int)) := by
  decide

theorem inv_bench : Inv bench := inv_of_parts (by decide) (by decide) (by decide) rfl trivial

/-- A board on which S2 of `set_function(53, Alt3)` is next. -/
def settingFunction : State := running (.setFunction 53 .alt3) 2 (readLatches 5 9 0) bench
theorem inv_setting_function : Inv settingFunction :=
  inv_of_parts (by decide) (by decide) (by decide) rfl ⟨by decide, fun _ => ⟨rfl, rfl⟩, fun _ => rfl⟩
theorem witness_gpio_frame_set_function : Inv settingFunction ∧
    settingFunction.seq = .running (.setFunction 53 .alt3) 2 (readLatches 5 9 0) ∧ (5 : Fin 6).val = (53 : Pin).val / 10 ∧ ∃ t, step settingFunction = .next t :=
  ⟨inv_setting_function, rfl, rfl, _, rfl⟩

/-- A board on which S5 of `enable_pin(53)` is next. -/
def enablingPin : State := running (.enablePin 53) 5 .unwritten bench
theorem inv_enabling_pin : Inv enablingPin :=
  inv_of_parts (by decide) (by decide) (by decide) rfl (show 5 ≤ 5 by decide)
theorem witness_gpio_frame_enable_pin : Inv enablingPin ∧
    enablingPin.seq = .running (.enablePin 53) 5 .unwritten ∧ (1 : Fin 2).val = (53 : Pin).val / 32 ∧ ∃ t, step enablingPin = .next t :=
  ⟨inv_enabling_pin, rfl, rfl, _, rfl⟩

theorem witness_baud : Ready bench ∧ (115200 : Word) ≠ 0 ∧ (0 : Word) = 0 ∧ 0 < 1 := by decide
theorem witness_baud_pair : 0 < 115200 ∧ 3 ≤ 63 ∧ 26 * 64 + 3 = (48000000 * 4 + 115200 / 2) / 115200 := by decide

theorem witness_init : Ready bench ∧ Patient bench ∧ (115200 : Word) ≠ 0 ∧ divisorFits bench.cfg 115200 = true := by decide
theorem witness_init_slowest : (1 : Word) ≠ 0 ∧ divisorFits bench.cfg 1 = true := by decide
theorem witness_init_overflow : Ready (board fast) ∧ (1 : Word) ≠ 0 ∧
    2 ^ 32 ≤ baudInteger (board fast).cfg.uartClock.val (1 : Word).toNat := by decide
theorem witness_init_fits : bench.cfg.uartClock.val * 4 + (0xFFFFFFFF : Word).toNat / 2 < 2 ^ 32 := by decide

/-- A board on which S19 of `init` with baud rate 0 is next. -/
def skippingDivisors : State := running (.init d0 0) 19 .unwritten bench
theorem inv_skipping_divisors : Inv skippingDivisors :=
  inv_of_parts (by decide) (by decide) (by decide) rfl
    ⟨by decide, trivial, by decide, ⟨0, rfl, by decide⟩, by decide, by decide⟩
theorem witness_init_frame : Inv skippingDivisors ∧ skippingDivisors.seq = .running (.init d0 0) 19 .unwritten ∧
    uartIndex skippingDivisors.cfg d0 = some 0 ∧ (1 : UartIx) ≠ 0 ∧ ((0 : Fin 6).val ≠ d0.tx.val / 10 ∧ (0 : Fin 6).val ≠ d0.rx.val / 10) ∧
    ((1 : Fin 2).val ≠ d0.tx.val / 32 ∧ (1 : Fin 2).val ≠ d0.rx.val / 32) ∧ ∃ t, step skippingDivisors = .next t :=
  ⟨inv_skipping_divisors, rfl, by decide, by decide, by decide, by decide, _, rfl⟩

/-- A board on which S23 of `init`, the enabling write, is next. -/
def enablingUart : State :=
  running (.init d0 0) 23 { Latches.unwritten with res := some .divisorSkipped }
    { bench with uart := bench.uart.set 0 { bench.uart[0] with drv := .configured } }
theorem inv_enabling_uart : Inv enablingUart := by
  refine ⟨by decide, ⟨by decide, trivial, by decide, ⟨0, rfl, fun _ => rfl⟩, by decide, fun _ => rfl⟩, ?_, ?_⟩
  · intro u h
    match u with
    | 0 => exact ⟨d0, 0, 23, _, rfl, by decide, by decide⟩
    | 1 => exact absurd h (by decide)
  · unfold TxLogIsTrace; decide
theorem witness_driver_skip : Inv skippingDivisors ∧
    see (fun t => t.uart[0].drv) (step skippingDivisors) = some .configured ∧ skippingDivisors.uart[0].drv ≠ .configured :=
  ⟨inv_skipping_divisors, by decide, by decide⟩
/-- A board on which S21 of `init`, the write of the fractional divisor, is next. -/
def writingFraction : State :=
  running (.init d0 115200) 21 { Latches.unwritten with ibrd := some 26, fbrd := some 3, res := some .ok } bench
theorem inv_writing_fraction : Inv writingFraction :=
  inv_of_parts (by decide) (by decide) (by decide) rfl
    ⟨by decide, trivial, by decide, ⟨0, rfl, by decide⟩, fun _ => ⟨by decide, by decide, by decide⟩, fun _ => rfl⟩
theorem witness_driver_fraction : Inv writingFraction ∧
    see (fun t => t.uart[0].drv) (step writingFraction) = some .configured ∧ writingFraction.uart[0].drv ≠ .configured :=
  ⟨inv_writing_fraction, by decide, by decide⟩
theorem witness_driver_enable : Inv enablingUart ∧
    see (fun t => t.uart[0].drv) (step enablingUart) = some .enabled ∧ enablingUart.uart[0].drv = .configured :=
  ⟨inv_enabling_uart, by decide, by decide⟩

theorem witness_send : Ready (enabled [0x20, 0] []) ∧ Patient (enabled [0x20, 0] []) ∧ (enabled [0x20, 0] []).uart[0].drv = .enabled ∧
    (∀ k, k < 1 → (frAnswer (enabled [0x20, 0] []) 0 k).getLsbD bench.cfg.frTxffBit.val = true) ∧
    (frAnswer (enabled [0x20, 0] []) 0 1).getLsbD bench.cfg.frTxffBit.val = false := by decide
theorem witness_recv : Ready (enabled [0x10, 0] []) ∧ Patient (enabled [0x10, 0] []) ∧ (enabled [0x10, 0] []).uart[0].drv = .enabled ∧
    (∀ k, k < 1 → (frAnswer (enabled [0x10, 0] []) 0 k).getLsbD bench.cfg.frRxfeBit.val = true) ∧
    (frAnswer (enabled [0x10, 0] []) 0 1).getLsbD bench.cfg.frRxfeBit.val = false := by decide
/-- The answers of three polled writes, the second one busy once. -/
def threePolls : List Poll := [([], 0), ([0x20], 0), ([], 0xDF)]
theorem witness_send_string :
    Ready (enabled [0, 0x20, 0, 0xDF, 7] []) ∧ Patient (enabled [0, 0x20, 0, 0xDF, 7] []) ∧
    (enabled [0, 0x20, 0, 0xDF, 7] []).uart[0].drv = .enabled ∧
    threePolls.length = (stringOut bench.cfg [0x61, 0x0A]).length ∧ (∀ p ∈ threePolls, TransmitPoll bench.cfg p) ∧
    (enabled [0, 0x20, 0, 0xDF, 7] []).answers[0].fr = pollScript threePolls ++ [7] := by
  refine ⟨by decide, by decide, by decide, by decide, ?_, by decide⟩
  simp only [threePolls, TransmitPoll, List.mem_cons, List.not_mem_nil, or_false, forall_eq_or_imp, forall_eq,
    false_implies, implies_true, true_and]
  decide
theorem witness_send_string_empty :
    ([] : List Poll).length = (stringOut bench.cfg []).length ∧ (enabled [] []).answers[0].fr = pollScript [] ++ [] := by decide

theorem witness_busy_wait_send :
    let s := running (.send d0 0x48) 0 .unwritten (enabled [0x20, 0x20] [])
    Standing s.cfg ∧ Patient s ∧ d0 = s.cfg.registry[0] ∧ ∀ j, j < 2 → (frAnswer s 0 j).getLsbD s.cfg.frTxffBit.val = true := by decide
theorem witness_busy_wait_recv :
    let s := running (.recv d0) 0 .unwritten (enabled [0x10, 0x10] [])
    Standing s.cfg ∧ Patient s ∧ d0 = s.cfg.registry[0] ∧ ∀ j, j < 2 → (frAnswer s 0 j).getLsbD s.cfg.frRxfeBit.val = true := by decide
theorem witness_busy_wait_string :
    let s := running (.sendString d0 [0x0A]) 2 { Latches.unwritten with i := some 0 } (enabled [0x20] [])
    Standing s.cfg ∧ Patient s ∧ d0 = s.cfg.registry[0] ∧ ∀ j, j < 1 → (frAnswer s 0 j).getLsbD s.cfg.frTxffBit.val = true := by decide

theorem inv_enabled (fr dr : List Word) (op : Operation) (k : Nat) (lat : Latches)
    (h : OperationAt (running op k lat (enabled fr dr)) op k lat) : Inv (running op k lat (enabled fr dr)) :=
  inv_of_parts (by show Standing (defaultConfig .first); decide)
    (fun u => match u with | 0 => fun e => nomatch e | 1 => fun e => nomatch e)
    (fun u => match u with | 0 => rfl | 1 => rfl) rfl h
theorem witness_data_frame_send : Inv (running (.send d0 0x48) 0 .unwritten (enabled [0] [])) ∧
    ∃ t, step (running (.send d0 0x48) 0 .unwritten (enabled [0] [])) = .next t :=
  ⟨inv_enabled _ _ _ _ _ ⟨by decide, 0, rfl, rfl, fun h => absurd h (by decide)⟩, _, rfl⟩
theorem witness_data_frame_recv : Inv (running (.recv d0) 0 .unwritten (enabled [0] [])) ∧
    ∃ t, step (running (.recv d0) 0 .unwritten (enabled [0] [])) = .next t :=
  ⟨inv_enabled _ _ _ _ _ ⟨by decide, 0, rfl, rfl, fun h => absurd h (by decide)⟩, _, rfl⟩
theorem witness_data_frame_send_string : Inv (running (.sendString d0 [0x0A]) 0 .unwritten (enabled [] [])) ∧
    ∃ t, step (running (.sendString d0 [0x0A]) 0 .unwritten (enabled [] [])) = .next t :=
  ⟨inv_enabled _ _ _ _ _ ⟨by decide, 0, rfl, rfl, fun h => absurd h (by decide), by decide⟩, _, rfl⟩

theorem witness_not_enabled : Ready bench ∧ bench.uart[0].drv ≠ .enabled ∧ bench.uart[1].drv ≠ .enabled := by decide
theorem witness_unknown_descriptor : Ready bench ∧ ∀ u : UartIx, bench.cfg.registry[u] ≠ noDescriptor := by decide
theorem witness_issue_frame :
    isNext (exec (.setFunction 0 .input) bench) = true ∧ isNext (exec (.enablePin 53) bench) = true ∧
    isNext (exec (.init d0 9600) bench) = true ∧ isNext (exec (.send d0 0) (enabled [] [])) = true ∧
    isNext (exec (.recv d0) (enabled [] [])) = true ∧ isNext (exec (.sendString d0 []) (enabled [] [])) = true := by decide
theorem witness_get_by_index : Ready bench ∧ ((-1 : Int) < 0 ∨ 2 ≤ (-1 : Int)) ∧ ((2 : Int) < 0 ∨ 2 ≤ (2 : Int)) := by decide
theorem witness_pure_frame :
    isNext (exec (.extractField 0 33 0) bench) = true ∧ isNext (exec (.mergeField 0 0 32 1) bench) = true ∧
    isNext (exec (.baudDivisor (hertz 1 (by decide)) 8) bench) = true ∧ isNext (exec (.getByIndex 2) bench) = true := by decide

theorem witness_read_data : Ready (enabled [] [0x41]) ∧ (enabled [] [0x41]).answers[0].dr = [0x41] ∧
    (enabled [] [0x41]).answers[1].dr = [] := by decide
theorem witness_write_data_polled : Ready polled ∧ TransmitPolled polled 0 :=
  ⟨by decide, [], 0, [], rfl, by decide, fun _ h => nomatch h⟩
theorem witness_write_data_unpolled : Ready bench ∧ ¬ TransmitPolled bench 0 := by
  refine ⟨by decide, ?_⟩
  rintro ⟨es, w, fs, h, _⟩
  exact absurd h (by simp [bench, State.reset, State.launch])
/-- The bench after a poll of UART 0 that found its transmit buffer full, and a delay. -/
def full : State := { bench with trace := [.rd 0x3F201018 0x20, .dl 150] }
theorem witness_write_data_full : Ready full ∧ LastFlagsFull full 0 :=
  ⟨by decide, [], 0x20, [.dl 150], rfl, by decide, by simp⟩
theorem witness_micro_operations_frame :
    isNext (exec (.rdGpfsel 5) bench) = true ∧ isNext (exec (.wrGpfsel 5 1) bench) = true ∧ isNext (exec (.wrGppud 1) bench) = true ∧
    isNext (exec (.wrGppudclk0 1) bench) = true ∧ isNext (exec (.wrGppudclk1 1) bench) = true ∧
    isNext (exec (.rdDr d0) bench) = true ∧ isNext (exec (.wrDr d0 1) polled) = true ∧ isNext (exec (.rdFr d0) bench) = true ∧
    isNext (exec (.wrIbrd d0 1) bench) = true ∧ isNext (exec (.wrFbrd d0 1) bench) = true ∧
    isNext (exec (.wrLcrh d0 1) bench) = true ∧ isNext (exec (.wrCr d0 1) bench) = true ∧ isNext (exec (.delay 150) bench) = true := by
  decide

theorem witness_raw_size : (1 : Nat) ≠ 4 ∧ (8 : Nat) ≠ 4 := by decide
theorem witness_raw_misaligned : (g0 + 4 + 2) % 4 ≠ 0 ∧ (g0 + 4 + 2) = regAddr bench.cfg (.gpfsel 1) + 2 := by decide
theorem witness_raw_hole : (g0 + 0x1C) % 4 = 0 ∧ ∀ r, regAddr bench.cfg r ≠ g0 + 0x1C := by
  refine ⟨by decide, fun r => ?_⟩
  have h : ∀ r ∈ allRegs, regAddr bench.cfg r ≠ g0 + 0x1C := by decide
  exact h r (mem_allRegs r)
theorem witness_storage : Standing bench.cfg ∧ stored bench (.cr 1) = some 0x300 ∧ stored bench (.gppudclk 1) = some 0 := by decide
theorem witness_raw_read :
    let s : State := { bench with host := [{ early := false, request := .read (regAddr bench.cfg (.cr 0)) 4 }] }
    Ready s ∧ s.host = [{ early := false, request := .read (regAddr s.cfg (.cr 0)) 4 }] ∧ stored s (.cr 0) = some 0x300 := by decide

theorem witness_busy :
    let s : State := { running (.recv d0) 0 .unwritten bench with host := [{ early := true, request := .read 0 4 }] }
    s.seq ≠ .idle ∧ hostIsEarly s = true := by decide
theorem witness_raw_write :
    let s : State := { bench with host := [{ early := false, request := .write (regAddr bench.cfg (.lcrh 1)) 4 7 }] }
    Ready s ∧ s.host = [{ early := false, request := .write (regAddr s.cfg (.lcrh 1)) 4 7 }] ∧ stored s (.lcrh 1) = some 0 := by decide
/-- UART 0's scripts with the host's next act a raw transaction. -/
def rawNext (r : Request) : State := { enabled [0x90] [0x41] with host := [{ early := false, request := r }] }
theorem witness_raw_read_flags : Ready (rawNext (.read (regAddr bench.cfg (.fr 0)) 4)) := by decide
theorem witness_raw_read_data : Ready (rawNext (.read (regAddr bench.cfg (.dr 0)) 4)) ∧
    (enabled [0x90] [0x41]).answers[0].dr = [0x41] ∧ (enabled [0x90] [0x41]).answers[1].dr = [] := by decide
theorem witness_raw_refusals : Ready (rawNext (.read 0 1)) ∧ Ready (rawNext (.write (g0 + 2) 4 0)) ∧
    Ready (rawNext (.read (g0 + 0x1C) 4)) ∧ Ready (rawNext (.write (u0 + 0x18) 4 0)) ∧
    refusal (step (rawNext (.read 0 1))) = some .badAccessSize ∧ refusal (step (rawNext (.write (g0 + 2) 4 0))) = some .misaligned ∧
    refusal (step (rawNext (.read (g0 + 0x1C) 4))) = some .unmappedAddress ∧
    refusal (step (rawNext (.write (u0 + 0x18) 4 0))) = some .writeToFlagRegister := by decide
theorem witness_raw_write_flags :
    let s : State := { bench with host := [{ early := false, request := .write (regAddr bench.cfg (.fr 0)) 4 0 }] }
    Ready s ∧ s.host = [{ early := false, request := .write (regAddr s.cfg (.fr 0)) 4 0 }] := by decide
theorem witness_raw_write_data (s : State) (hs : s = polled ∨ s = full ∨ s = bench) :
    let t : State := { s with host := [{ early := false, request := .write (regAddr bench.cfg (.dr 0)) 4 0x48 }] }
    Ready t ∧ t.host = [{ early := false, request := .write (regAddr t.cfg (.dr 0)) 4 0x48 }] := by
  rcases hs with rfl | rfl | rfl <;> decide
theorem witness_aliased : (board aliased).seq = .idle ∧ Aliased (board aliased).cfg ∧ (board sameBase).seq = .idle ∧
    Aliased (board sameBase).cfg ∧ Aliased overlapping :=
  ⟨rfl, .inr (.inl (by decide)), rfl, .inl (by decide), .inr (.inr ⟨.cr 0, .dr 1, by decide, by decide⟩)⟩
theorem witness_not_aliased : bench.seq = .idle ∧ ¬ Aliased bench.cfg := by
  refine ⟨rfl, ?_⟩
  rintro (h | h | ⟨r, r', hne, h⟩)
  · exact absurd h (by decide)
  · exact absurd h (by decide)
  · exact hne (regAddr_injective standing_default.1 h)
theorem witness_step_next : step bench = .next bench := rfl
theorem witness_step_with_event : see (fun t => t.trace.length) (step enablingPin) = some 1 := by decide
theorem witness_tx_log_grows :
    see (fun t => t.uart[0].txLog) (step (running (.send d0 0x48) 1 .unwritten (enabled [] []))) = some [0x48] := by decide
theorem witness_never_stops : Inv enablingPin ∧ enablingPin.seq ≠ .idle ∧ Patient enablingPin :=
  ⟨inv_enabling_pin, by decide, by decide⟩
theorem witness_polled_trace : Inv bench ∧ PolledTrace bench ∧ OperationsOnly bench ∧ step bench = .next bench :=
  ⟨inv_bench, trivial, (fun _ h => nomatch h), rfl⟩

/-- A board on which the write of `send` is next, its poll done. -/
def sending : State :=
  running (.send d0 0x48) 1 { Latches.unwritten with word := some 0 } { enabled [] [] with trace := [.rd (u0 + 0x18) 0] }
theorem inv_sending : Inv sending := by
  refine ⟨by decide, ⟨by decide, 0, rfl, rfl, fun _ => ⟨0, rfl, by decide⟩⟩, ?_, ?_⟩
  · exact fun u => match u with | 0 => fun e => nomatch e | 1 => fun e => nomatch e
  · unfold TxLogIsTrace; decide
theorem witness_polled_trace_sending : Inv sending ∧ PolledTrace sending ∧ OperationsOnly sending ∧ ∃ t, step sending = .next t := by
  refine ⟨inv_sending, ⟨?_, trivial⟩, (fun _ h => nomatch h), _, rfl⟩
  intro u
  refine ⟨fun v e => (nomatch e), fun v e => ?_⟩
  match u with
  | 0 => exact absurd e (by simp [u0, drOff, uartBase, sending, running, enabled, bench, State.reset, State.launch, defaultConfig, boardBase])
  | 1 => exact absurd e (by simp [u0, drOff, uartBase, sending, running, enabled, bench, State.reset, State.launch, defaultConfig, boardBase])

end Sys2Proof.Tests
end

section
/-! PROOFS. What the shared operations keep, said with `Keeps` and `AnswersNothing`: the frame rules that the proofs of
10_state.md use. -/

namespace Sys2Proof.Machine

open Sys2Proof.Safety

/-! The relation `Keeps` -/

theorem keeps_refl (l : List Reg) (s : State) : Keeps l s s :=
  ⟨rfl, rfl, fun _ _ => rfl, fun _ => rfl, fun _ _ => rfl⟩

/-- A frame that lists more registers says less. -/
theorem keeps_mono {l l' : List Reg} {s t : State} (hl : l ⊆ l') (h : Keeps l s t) : Keeps l' s t := by
  obtain ⟨hcfg, hhost, hreg, hdrv, hlog⟩ := h
  exact ⟨hcfg, hhost, fun r hr => hreg r fun h => hr (hl h), hdrv, fun u hu => hlog u fun h => hu (hl h)⟩

/-! Keeping looks at neither the sequencer nor the result port nor the trace. -/

@[simp] theorem keeps_goTo (l : List Reg) (s t : State) (op : Operation) (k : Nat) (lat : Latches) :
    Keeps l s (goTo op k lat t) ↔ Keeps l s t := by simp [Keeps]

@[simp] theorem keeps_finish (l : List Reg) (s t : State) (c : OutcomeCode) (r : Result) :
    Keeps l s (finish c r t) ↔ Keeps l s t := by simp [Keeps]

@[simp] theorem keeps_logEvent (l : List Reg) (s t : State) (e : Event) : Keeps l s (logEvent e t) ↔ Keeps l s t := by
  simp [Keeps]

@[simp] theorem answersNothing_goTo (s t : State) (op : Operation) (k : Nat) (lat : Latches) :
    AnswersNothing s (goTo op k lat t) ↔ AnswersNothing s t := Iff.rfl

@[simp] theorem answersNothing_finish (s t : State) (c : OutcomeCode) (r : Result) :
    AnswersNothing s (finish c r t) ↔ AnswersNothing s t := Iff.rfl

@[simp] theorem answersNothing_logEvent (s t : State) (e : Event) : AnswersNothing s (logEvent e t) ↔ AnswersNothing s t :=
  Iff.rfl

/-! Reads and writes -/

/-- The registers' words depend on the four register fields alone. -/
theorem stored_congr {s t : State} (hg : t.gpfsel = s.gpfsel) (hp : t.gppud = s.gppud) (hc : t.gppudclk = s.gppudclk)
    (hu : t.uart = s.uart) (r : Reg) : stored t r = stored s r := by
  cases r <;> simp only [stored, hg, hp, hc, hu]

/-- A read keeps every register, log and driver state. -/
theorem readReg_keeps (s : State) (r : Reg) : Keeps [] s (readReg s r).2 :=
  ⟨readReg_cfg s r, readReg_host s r,
   fun r' _ => stored_congr (readReg_gpfsel s r) (readReg_gppud s r) (readReg_gppudclk s r) (readReg_uart s r) r',
   fun u => by rw [readReg_uart], fun u _ => by rw [readReg_uart]⟩

/-- A write keeps every other register, log and driver state, and takes no answer of the environment. -/
theorem writeReg_keeps {r : Reg} {v : Word} {s t : State} (h : writeReg r v s = .next t) :
    Keeps [r] s t ∧ AnswersNothing s t := by
  have hf := writeReg_frame h
  refine ⟨⟨by rw [hf], by rw [hf], fun r' hr => ?_, writeReg_drv h, fun u hu => ?_⟩, by rw [hf], by rw [hf]⟩
  · rw [writeReg_stored h, if_neg fun c => hr (by simp [c.1])]
  · rw [writeReg_txLog h, if_neg fun c => hu (by simp [c])]

/-- A storage register can be written (R21). -/
theorem writeReg_of_stored {r : Reg} {s : State} {w : Word} (v : Word) (h : stored s r = some w) :
    ∃ t, writeReg r v s = .next t := by
  cases r with
  | dr u => cases h
  | fr u => cases h
  | _ => exact ⟨_, rfl⟩

theorem writeReg_trace {r : Reg} {v : Word} {s t : State} (h : writeReg r v s = .next t) : t.trace = s.trace := by
  rw [writeReg_frame h]

theorem memRead_keeps {a n : Nat} {s : State} {p : Word × State} (h : memRead a n s = .next p) : Keeps [] s p.2 := by
  obtain ⟨r, _, rfl⟩ := memRead_eq_next.1 h
  simpa using readReg_keeps s r

theorem memRead_trace {a n : Nat} {s : State} {p : Word × State} (h : memRead a n s = .next p) :
    p.2.trace = s.trace ++ [.rd a p.1] := by
  obtain ⟨r, _, rfl⟩ := memRead_eq_next.1 h
  simp

/-- In a standing configuration a write at a register's address is the write of that register. -/
theorem memWrite_regAddr_eq_next {r : Reg} {v : Word} {s t : State} (hst : Standing s.cfg)
    (h : memWrite (regAddr s.cfg r) 4 v s = .next t) :
    ∃ w, writeReg r v s = .next w ∧ t = logEvent (.wr (regAddr s.cfg r) v) w := by
  obtain ⟨hdisjoint, haligned, _⟩ := hst
  rw [memWrite_regAddr hdisjoint haligned] at h
  obtain ⟨w, hw, e⟩ := andThen_eq_next.1 h
  cases e
  exact ⟨w, hw, rfl⟩

theorem memWrite_keeps {r : Reg} {v : Word} {s t : State} (hst : Standing s.cfg)
    (h : memWrite (regAddr s.cfg r) 4 v s = .next t) : Keeps [r] s t ∧ AnswersNothing s t := by
  obtain ⟨w, hw, rfl⟩ := memWrite_regAddr_eq_next hst h
  simpa using writeReg_keeps hw

/-- A descriptor operand's base is the base of its UART. -/
theorem base_of_uartIndex {c : Config} {d : Descriptor} {u : UartIx} (h : uartIndex c d = some u) :
    d.base = uartBase c u := by
  rw [uartBase, registry_of_uartIndex h]

/-! Driver states and logs through a step -/

/-- Setting a driver state sets that of one UART. -/
theorem setDriver_drv (u u' : UartIx) (d : Driver) (s : State) :
    (setDriver u d s).uart[u'].drv = if u' = u then d else s.uart[u'].drv := by
  simp only [setDriver_uart, Fin.getElem_fin, Vector.getElem_set, ← Fin.ext_iff, eq_comm (a := u)]
  split <;> rfl

/-- Setting a driver state keeps every log. -/
theorem setDriver_txLog (u u' : UartIx) (d : Driver) (s : State) : (setDriver u d s).uart[u'].txLog = s.uart[u'].txLog := by
  simp only [setDriver_uart, Fin.getElem_fin, Vector.getElem_set]
  split <;> simp_all

/-- An act keeps a log or appends one byte to it (R36). -/
theorem act_txLog {s w : State} (h : Act s w) (u : UartIx) :
    w.uart[u].txLog = s.uart[u].txLog ∨ ∃ b, w.uart[u].txLog = s.uart[u].txLog ++ [b] := by
  cases h with
  | nothing => exact .inl rfl
  | read a r h => simp
  | write a v r w h hw =>
    rw [logEvent_uart, writeReg_txLog hw]
    split
    · exact .inr ⟨_, rfl⟩
    · exact .inl rfl
  | delay n => exact .inl rfl
  | draw => exact .inl rfl

theorem sameBlock_cfg {w t : State} (h : SameBlock w t) : t.cfg = w.cfg := by rw [h]
theorem sameBlock_uart {w t : State} (h : SameBlock w t) : t.uart = w.uart := by rw [h]
theorem sameBlock_trace {w t : State} (h : SameBlock w t) : t.trace = w.trace := by rw [h]

/-- A step is one act, with the parameters, the logs and the trace of the act. -/
theorem step_act {s t : State} (h : step s = .next t) :
    ∃ host w, Act { s with host := host } w ∧ t.cfg = w.cfg ∧ t.trace = w.trace ∧
      ∀ u : UartIx, t.uart[u].txLog = w.uart[u].txLog := by
  obtain ⟨host, w, x, hact, hx, hblock⟩ := step_effect h
  refine ⟨host, w, hact, ?_⟩
  rw [sameBlock_cfg hblock, sameBlock_trace hblock, sameBlock_uart hblock]
  rcases hx with rfl | ⟨_, _, u, v, _, _, _, _, rfl⟩
  · exact ⟨rfl, rfl, fun _ => rfl⟩
  · exact ⟨rfl, rfl, fun u' => setDriver_txLog u u' v w⟩

end Sys2Proof.Machine
end

section
/-! PROOFS. The statements of 10_state.md that follow from the laws of the state and of one step. -/

namespace Sys2Proof.Machine

open Sys2Proof.Safety

/-- Settles O1: each clause reads a field of the launch state, for either UART (R40). -/
theorem launchStateIsAsListed : Obligations.LaunchStateIsAsListed := by
  intro c p
  refine ⟨rfl, rfl, fun u => ?_, fun _ => rfl, rfl, fun _ => rfl, fun u => ?_⟩
  · match u with
    | 0 => exact ⟨rfl, rfl⟩
    | 1 => exact ⟨rfl, rfl⟩
  · match u with
    | 0 => exact ⟨rfl, rfl, rfl, rfl⟩
    | 1 => exact ⟨rfl, rfl, rfl, rfl⟩

/-- Settles O3: the three branches of one step (R33, R105, R261). -/
theorem stepRunsTheDecodedInstruction : Obligations.StepRunsTheDecodedInstruction := by
  intro s
  refine ⟨fun a rest e i hs hh hr hd => ?_, fun op k lat hs he => ?_, fun hs hh => ?_⟩
  · simp only [step, advance, hs, hh, hr, serve, issue, hd]
  · simp [step, advance, hs, he]
  · simp only [step, advance, hs, hh]

/-- Settles O53: a step is an act, and no act changes the parameters (R38, R221). -/
theorem stepKeepsParameters : Obligations.StepKeepsParameters := by
  intro s t h
  obtain ⟨_, w, hact, hcfg, _, _⟩ := step_act h
  rw [hcfg, (act_frame hact).1]

/-- Settles O55: a step is an act, and an act appends at most one byte to a log (R36). -/
theorem transmitLogOnlyGrows : Obligations.TransmitLogOnlyGrows := by
  intro s t u h
  obtain ⟨_, w, hact, _, _, hlog⟩ := step_act h
  rw [hlog u]
  exact act_txLog hact u

/-- Settles O49: a storage register's address reaches it, where a read answers its word and a write replaces it (R21). -/
theorem storageHoldsLastWord : Obligations.StorageHoldsLastWord := by
  intro s r v w ⟨hdisjoint, haligned, _⟩ hr
  have read : ∀ {s' : State} {w' : Word}, s'.cfg = s.cfg → stored s' r = some w' →
      memRead (regAddr s.cfg r) 4 s' = .next (w', logEvent (.rd (regAddr s.cfg r) w') s') := by
    intro s' w' hcfg hw'
    rw [← hcfg] at hdisjoint haligned ⊢
    rw [memRead_regAddr hdisjoint haligned, readReg_stored hw']
  obtain ⟨t, hw⟩ := writeReg_of_stored v hr
  have hstored : stored t r = some v := by rw [writeReg_stored hw]; simp [hr]
  obtain ⟨hkeeps, hnothing⟩ := writeReg_keeps hw
  refine ⟨read rfl hr, logEvent (.wr (regAddr s.cfg r) v) t, ?_, by simpa using hstored, by simpa using hkeeps,
    by simpa using hnothing, by rw [logEvent_trace, writeReg_trace hw], _, read hkeeps.1 (by simpa using hstored)⟩
  rw [memWrite_regAddr hdisjoint haligned, hw, andThen_next]

/-! Issuing a micro-stepped operation -/

theorem execSetFunction_eq_next {pin : Int} {f : Function} {s t : State} (h : exec (.setFunction pin f) s = .next t) :
    ∃ p : Pin, pin = p.val ∧ t = started (.setFunction p f) s := by
  obtain ⟨p, hp, e⟩ := withPin_eq_next.1 (whenReady_eq_next.1 h).2.2
  cases e; exact ⟨p, hp, rfl⟩

theorem execEnablePin_eq_next {pin : Int} {s t : State} (h : exec (.enablePin pin) s = .next t) :
    ∃ p : Pin, pin = p.val ∧ t = started (.enablePin p) s := by
  obtain ⟨p, hp, e⟩ := withPin_eq_next.1 (whenReady_eq_next.1 h).2.2
  cases e; exact ⟨p, hp, rfl⟩

theorem execInit_eq_next {d : Descriptor} {b : Word} {s t : State} (h : exec (.init d b) s = .next t) :
    t = started (.init d b) s ∧ divisorFits s.cfg b = true ∧ ∃ u, uartIndex s.cfg d = some u := by
  obtain ⟨u, hu, e⟩ := withUart_eq_next.1 (whenReady_eq_next.1 h).2.2
  split at e
  · cases e; exact ⟨rfl, ‹_›, u, hu⟩
  · cases e

/-- `send`, `recv` and `send_string` are issued under the same checks (R192, D34). -/
theorem issueEnabled_eq_next {d : Descriptor} {op : Operation} {s t : State}
    (h : (whenReady s <| withUart d s fun u => whenEnabled u s (.next (beginOp op s))) = .next t) :
    t = started op s ∧ ∃ u, uartIndex s.cfg d = some u ∧ s.uart[u].drv = .enabled := by
  obtain ⟨u, hu, e⟩ := withUart_eq_next.1 (whenReady_eq_next.1 h).2.2
  obtain ⟨hdrv, e⟩ := whenEnabled_eq_next.1 e
  cases e; exact ⟨rfl, u, hu, hdrv⟩

/-- Settles O32: after its checks each of the six operations answers its start (R33). -/
theorem issueFrame : Obligations.IssueFrame := by
  intro s t d
  exact ⟨fun _ _ => execSetFunction_eq_next, fun _ => execEnablePin_eq_next, fun _ h => (execInit_eq_next h).1,
    fun _ h => (issueEnabled_eq_next h).1, fun h => (issueEnabled_eq_next h).1, fun _ h => (issueEnabled_eq_next h).1⟩

end Sys2Proof.Machine
end

section
/-! PROOFS. The GPIO operations while they run: each micro-step keeps the sequencer in order and writes its own registers
only (R160, R162, R75). -/

namespace Sys2Proof.Machine

open Sys2Proof.Safety

/-! The sequencer in order, after each way a micro-step ends -/

@[simp] theorem operationAt_goTo (s : State) (op op' : Operation) (k k' : Nat) (lat lat' : Latches) :
    OperationAt (goTo op' k' lat' s) op k lat ↔ OperationAt s op k lat := by cases op <;> rfl

theorem sequencerOk_of_idle {s : State} (h : s.seq = .idle) : SequencerOk s := by
  unfold SequencerOk; rw [h]; trivial

theorem sequencerOk_running {s : State} {op : Operation} {k : Nat} {lat : Latches} (h : s.seq = .running op k lat) :
    SequencerOk s ↔ OperationAt s op k lat := by
  unfold SequencerOk; rw [h]

@[simp] theorem sequencerOk_finish (c : OutcomeCode) (r : Result) (s : State) : SequencerOk (finish c r s) := trivial

@[simp] theorem sequencerOk_goTo (op : Operation) (k : Nat) (lat : Latches) (s : State) :
    SequencerOk (goTo op k lat s) ↔ OperationAt s op k lat :=
  operationAt_goTo s op op k k lat lat

/-! `set_function` -/

/-- At its first micro-step `set_function` needs no latch. -/
theorem setFunctionAt_zero (s : State) (p : Pin) (lat : Latches) : SetFunctionAt s p 0 lat := by simp [SetFunctionAt]

/-- The micro-step before the last writes the latches and reads the word that the last one needs (R160). -/
theorem setFunctionBody_next {p : Pin} {f : Function} {k : Nat} {lat : Latches} {s : State} {x : State × Latches}
    (hst : Standing s.cfg) (hk : k < 2) (hat : SetFunctionAt s p k lat) (h : setFunctionBody p f k lat s = .next x) :
    SetFunctionAt x.1 p (k + 1) x.2 := by
  obtain ⟨_, hlat, _⟩ := hat
  match k with
  | 0 =>
    cases h
    simp [SetFunctionAt]
  | 1 =>
    obtain ⟨hidx, hoff⟩ := hlat le_rfl
    rw [setFunctionBody_one hst f hidx] at h
    cases h
    simp [SetFunctionAt, hidx, hoff]

/-- A micro-step of `set_function` writes the pin's function-select word only. -/
theorem setFunctionBody_keeps {p : Pin} {f : Function} {k : Nat} {lat : Latches} {s : State} {x : State × Latches}
    (hst : Standing s.cfg) (hat : SetFunctionAt s p k lat) (h : setFunctionBody p f k lat s = .next x) :
    Keeps [.gpfsel (fselIndex p)] s x.1 ∧ AnswersNothing s x.1 := by
  obtain ⟨hk, hlat, hword⟩ := hat
  match k with
  | 0 =>
    cases h
    exact ⟨keeps_refl _ s, rfl, rfl⟩
  | 1 =>
    obtain ⟨hidx, _⟩ := hlat le_rfl
    rw [setFunctionBody_one hst f hidx] at h
    cases h
    exact ⟨(keeps_logEvent ..).2 (keeps_refl _ s), rfl, rfl⟩
  | 2 =>
    obtain ⟨hidx, hoff⟩ := hlat (by decide)
    simp only [setFunctionBody, hidx, hoff, hword rfl, withLatch_some] at h
    obtain ⟨t, ht, e⟩ := andThen_eq_next.1 h
    cases e
    exact memWrite_keeps (r := .gpfsel (fselIndex p)) hst ht

theorem setFunctionStep_keeps {p : Pin} {f : Function} {k : Nat} {lat : Latches} {s t : State} (hst : Standing s.cfg)
    (hat : SetFunctionAt s p k lat) (h : setFunctionStep p f k lat s = .next t) :
    SequencerOk t ∧ Keeps [.gpfsel (fselIndex p)] s t ∧ AnswersNothing s t := by
  obtain ⟨x, hx, e⟩ := andThen_eq_next.1 h
  have hkeeps := setFunctionBody_keeps hst hat hx
  split at e
  · cases e
    simpa using hkeeps
  · have hk : k < 2 := by have := hat.1; omega
    cases e
    simpa using ⟨setFunctionBody_next hst hk hat hx, hkeeps⟩

/-! `enable_pin` -/

/-- A micro-step of `enable_pin` writes the pull-mode word and the pin's pull-clock word only. -/
theorem enablePinBody_keeps {p : Pin} {k : Nat} {lat : Latches} {s : State} {x : State × Latches} (hst : Standing s.cfg)
    (h : enablePinBody p k lat s = .next x) :
    Keeps [.gppud, .gppudclk (clkIndex p)] s x.1 ∧ AnswersNothing s x.1 := by
  have write : ∀ (r : Reg) (v : Word), r ∈ [Reg.gppud, .gppudclk (clkIndex p)] →
      (andThen (memWrite (regAddr s.cfg r) 4 v s) fun t => .next (t, lat)) = .next x →
      Keeps [.gppud, .gppudclk (clkIndex p)] s x.1 ∧ AnswersNothing s x.1 := by
    intro r v hr h
    obtain ⟨t, ht, e⟩ := andThen_eq_next.1 h
    cases e
    obtain ⟨hkeeps, hnothing⟩ := memWrite_keeps hst ht
    exact ⟨keeps_mono (by simpa using hr) hkeeps, hnothing⟩
  have delay : x = (delayFor 150 s, lat) → Keeps [.gppud, .gppudclk (clkIndex p)] s x.1 ∧ AnswersNothing s x.1 := by
    rintro rfl
    exact ⟨(keeps_logEvent ..).2 (keeps_refl _ s), rfl, rfl⟩
  unfold enablePinBody at h
  split at h
  · exact write .gppud _ (by simp) h
  · cases h; exact delay rfl
  · exact write (.gppudclk (clkIndex p)) _ (by simp) h
  · cases h; exact delay rfl
  · exact write .gppud _ (by simp) h
  · exact write (.gppudclk (clkIndex p)) _ (by simp) h
  · cases h

theorem enablePinStep_keeps {p : Pin} {k : Nat} {lat : Latches} {s t : State} (hst : Standing s.cfg) (hk : k ≤ 5)
    (h : enablePinStep p k lat s = .next t) :
    SequencerOk t ∧ Keeps [.gppud, .gppudclk (clkIndex p)] s t ∧ AnswersNothing s t := by
  obtain ⟨x, hx, e⟩ := andThen_eq_next.1 h
  have hkeeps := enablePinBody_keeps hst hx
  split at e
  · cases e
    simpa using hkeeps
  · have hnext : OperationAt x.1 (.enablePin p) (k + 1) x.2 := by show k + 1 ≤ 5; omega
    cases e
    simpa using ⟨hnext, hkeeps⟩

/-- A step of a state that meets the invariant, while an operation runs, is a micro-step of it in order. -/
theorem step_running {s t : State} {op : Operation} {k : Nat} {lat : Latches} (hinv : Inv s) (h : step s = .next t)
    (hs : s.seq = .running op k lat) : Standing s.cfg ∧ OperationAt s op k lat ∧ microStep op k lat s = .next t := by
  obtain ⟨hst, hseq, _, _⟩ := hinv
  refine ⟨hst, (sequencerOk_running hs).1 hseq, ?_⟩
  rcases step_cases h with ⟨op', k', lat', hs', _, hstep⟩ | ⟨_, _, hs', _⟩ | ⟨hs', _⟩
  · cases hs.symm.trans hs'; exact hstep
  · cases hs.symm.trans hs'
  · cases hs.symm.trans hs'

/-- Settles O17: a micro-step writes the registers of its pin, at the indices of R101 (R160, R162). -/
theorem gpioMicroStepsFrame : Obligations.GpioMicroStepsFrame := by
  intro s t hinv h
  constructor
  · intro p f k lat w hs hw
    obtain ⟨hst, hat, hstep⟩ := step_running hinv h hs
    obtain rfl : w = fselIndex p := Fin.ext hw
    exact (setFunctionStep_keeps hst hat hstep).2
  · intro p k lat w hs hw
    obtain ⟨hst, hat, hstep⟩ := step_running hinv h hs
    obtain rfl : w = clkIndex p := Fin.ext hw
    exact (enablePinStep_keeps hst hat hstep).2

end Sys2Proof.Machine
end

section
/-! PROOFS. `send`, `recv` and `send_string` while they run: each micro-step keeps the sequencer in order and changes no
log but, by a write of the data register, that of its own UART (R194, R196, R198). -/

namespace Sys2Proof.Machine

open Sys2Proof.Safety

/-- One poll: it keeps every register and log, answers a word of the flag register, and goes on when the tested flag is
clear, with that poll as the last event (R194, R196, R269). -/
theorem pollStep_eq_next {flag : Config → Word → Bool} {d : Descriptor} {op : Operation} {here onward : Nat}
    {lat : Latches} {s t : State} {u : UartIx} (hu : uartIndex s.cfg d = some u)
    (h : pollStep flag d op here onward lat s = .next t) :
    ∃ v w, Keeps [] s w ∧
      ((t = goTo op here { lat with word := some v } w) ∨
       (t = goTo op onward { lat with word := some v } w ∧ Polled flag w u)) := by
  obtain ⟨⟨v, w⟩, hw, e⟩ := andThen_eq_next.1 h
  have hkeeps := memRead_keeps hw
  refine ⟨v, w, hkeeps, ?_⟩
  cases e
  cases hflag : flag s.cfg v with
  | true => exact .inl rfl
  | false =>
    refine .inr ⟨rfl, v, ?_, by rw [hkeeps.1]; exact hflag⟩
    rw [memRead_trace hw, hkeeps.1, base_of_uartIndex hu, List.getLast?_concat]

/-- The write of a descriptor's data register is that of its UART's. -/
theorem memWrite_data_keeps {d : Descriptor} {v : Word} {s t : State} {u : UartIx} (hst : Standing s.cfg)
    (hu : uartIndex s.cfg d = some u) (h : memWrite (d.base + drOff) 4 v s = .next t) : Keeps [.dr u] s t := by
  rw [base_of_uartIndex hu] at h
  exact (memWrite_keeps (r := .dr u) hst h).1

/-- What stands of the UART of a running data operation in a state that keeps it. -/
theorem enabled_of_keeps {l : List Reg} {d : Descriptor} {s w : State} {u : UartIx} (h : Keeps l s w)
    (hu : uartIndex s.cfg d = some u) (hdrv : s.uart[u].drv = .enabled) :
    uartIndex w.cfg d = some u ∧ w.uart[u].drv = .enabled := by
  obtain ⟨hcfg, _, _, hdriver, _⟩ := h
  exact ⟨by rw [hcfg, hu], by rw [hdriver, hdrv]⟩

theorem sendStep_keeps {d : Descriptor} {b : Byte} {k : Nat} {lat : Latches} {s t : State} (hst : Standing s.cfg)
    (hat : OperationAt s (.send d b) k lat) (h : sendStep d b k lat s = .next t) :
    SequencerOk t ∧ ∃ u, uartIndex s.cfg d = some u ∧ Keeps [.dr u] s t := by
  obtain ⟨_, u, hu, hdrv, _⟩ := hat
  unfold sendStep at h
  split at h
  · obtain ⟨v, w, hkeeps, rfl | ⟨rfl, hpolled⟩⟩ := pollStep_eq_next hu h
    all_goals
      obtain ⟨huw, hdw⟩ := enabled_of_keeps hkeeps hu hdrv
      refine ⟨(sequencerOk_goTo ..).2 ⟨by decide, u, huw, hdw, ?_⟩, u, hu, 
        by simpa using keeps_mono (by simp) hkeeps⟩
    · intro hk; cases hk
    · exact fun _ => hpolled
  · obtain ⟨w, hw, e⟩ := andThen_eq_next.1 h
    cases e
    exact ⟨sequencerOk_finish .., u, hu, by simpa using memWrite_data_keeps hst hu hw⟩
  · cases h

theorem recvStep_keeps {d : Descriptor} {k : Nat} {lat : Latches} {s t : State}
    (hat : OperationAt s (.recv d) k lat) (h : recvStep d k lat s = .next t) : SequencerOk t ∧ Keeps [] s t := by
  obtain ⟨_, u, hu, hdrv, _⟩ := hat
  unfold recvStep at h
  split at h
  · obtain ⟨v, w, hkeeps, rfl | ⟨rfl, hpolled⟩⟩ := pollStep_eq_next hu h
    all_goals
      obtain ⟨huw, hdw⟩ := enabled_of_keeps hkeeps hu hdrv
      refine ⟨(sequencerOk_goTo ..).2 ⟨by decide, u, huw, hdw, ?_⟩, by simpa using hkeeps⟩
    · intro hk; cases hk
    · exact fun _ => hpolled
  · obtain ⟨p, hp, e⟩ := andThen_eq_next.1 h
    cases e
    exact ⟨sequencerOk_finish .., by simpa using memRead_keeps hp⟩
  · cases h

/-! `send_string` -/

theorem withByte_eq_next {bytes : List Byte} {i : Nat} {f : Byte → Answer State} {t : State} :
    withByte bytes i f = .next t ↔ ∃ b, bytes[i]? = some b ∧ f b = .next t := by
  cases h : bytes[i]? <;> simp [withByte, h]

/-- A step of `send_string` is in order: its UART is enabled as before, the index latch is written, and what the label asks
besides (the poll, a byte left, the line feed) holds; a label that does not ask needs no proof. -/
theorem sendStringAt_of_keeps {l : List Reg} {d : Descriptor} {bs : List Byte} {s w : State} {u : UartIx} {k i : Nat}
    {lat : Latches} (hkeeps : Keeps l s w) (hu : uartIndex s.cfg d = some u) (hdrv : s.uart[u].drv = .enabled)
    (hk : k ≤ 5) (hi : lat.i = some i) (hle : i ≤ bs.length) (hlt : 2 ≤ k → i < bs.length := by simp)
    (hlf : k = 2 ∨ k = 3 → bs[i]? = some s.cfg.byteLf := by simp)
    (hpoll : k = 3 ∨ k = 5 → Polled txff w u := by simp) :
    SequencerOk (goTo (.sendString d bs) k lat w) := by
  obtain ⟨huw, hdw⟩ := enabled_of_keeps hkeeps hu hdrv
  exact (sequencerOk_goTo ..).2 ⟨hk, u, huw, hdw, hpoll, fun _ => ⟨i, hi, hle, hlt, by rwa [hkeeps.1]⟩⟩

/-- S1 ends the operation or goes on to the poll of the byte's carriage return or of the byte (R198). -/
theorem sendStringStep_one_keeps {d : Descriptor} {bs : List Byte} {lat : Latches} {s t : State} {u : UartIx}
    (hu : uartIndex s.cfg d = some u) (hdrv : s.uart[u].drv = .enabled) (h : sendStringStep d bs 1 lat s = .next t) :
    SequencerOk t ∧ Keeps [] s t := by
  obtain ⟨i, hi, h⟩ := withLatch_eq_next.1 h
  split at h
  · cases h
    exact ⟨sequencerOk_finish .., by simpa using keeps_refl [] s⟩
  · obtain ⟨b, hb, e⟩ := withByte_eq_next.1 h
    obtain ⟨hlt, _⟩ := List.getElem?_eq_some_iff.1 hb
    cases e
    refine ⟨?_, by simpa using keeps_refl [] s⟩
    split
    · next hlf =>
      exact sendStringAt_of_keeps (keeps_refl [] s) hu hdrv (by decide) hi hlt.le (fun _ => hlt) (fun _ => hlf ▸ hb)
    · exact sendStringAt_of_keeps (keeps_refl [] s) hu hdrv (by decide) hi hlt.le (fun _ => hlt)

theorem sendStringStep_keeps {d : Descriptor} {bs : List Byte} {k : Nat} {lat : Latches} {s t : State}
    (hst : Standing s.cfg) (hat : OperationAt s (.sendString d bs) k lat) (h : sendStringStep d bs k lat s = .next t) :
    SequencerOk t ∧ ∃ u, uartIndex s.cfg d = some u ∧ Keeps [.dr u] s t := by
  obtain ⟨hk, u, hu, hdrv, _, hlatch⟩ := hat
  suffices SequencerOk t ∧ Keeps [.dr u] s t from ⟨this.1, u, hu, this.2⟩
  match k with
  | 0 =>
    cases h
    exact ⟨sendStringAt_of_keeps (keeps_refl [] s) hu hdrv (by decide) rfl (Nat.zero_le _),
      by simpa using keeps_refl _ s⟩
  | 1 =>
    obtain ⟨hseq, hkeeps⟩ := sendStringStep_one_keeps hu hdrv h
    exact ⟨hseq, keeps_mono (List.nil_subset _) hkeeps⟩
  | 2 =>
    obtain ⟨i, hi, hle, hlt, hlf⟩ := hlatch (by decide)
    obtain ⟨v, w, hkeeps, rfl | ⟨rfl, hpolled⟩⟩ := pollStep_eq_next hu h
    all_goals refine ⟨?_, by simpa using keeps_mono (List.nil_subset _) hkeeps⟩
    · exact sendStringAt_of_keeps hkeeps hu hdrv (by decide) hi hle hlt hlf
    · exact sendStringAt_of_keeps hkeeps hu hdrv (by decide) hi hle (fun _ => hlt le_rfl) (fun _ => hlf (.inl rfl))
        fun _ => hpolled
  | 3 =>
    obtain ⟨i, hi, hle, hlt, _⟩ := hlatch (by decide)
    obtain ⟨w, hw, e⟩ := andThen_eq_next.1 h
    have hkeeps := memWrite_data_keeps hst hu hw
    cases e
    exact ⟨sendStringAt_of_keeps hkeeps hu hdrv (by decide) hi hle (fun _ => hlt (by decide)), by simpa using hkeeps⟩
  | 4 =>
    obtain ⟨i, hi, hle, hlt, _⟩ := hlatch (by decide)
    obtain ⟨v, w, hkeeps, rfl | ⟨rfl, hpolled⟩⟩ := pollStep_eq_next hu h
    all_goals refine ⟨?_, by simpa using keeps_mono (List.nil_subset _) hkeeps⟩
    · exact sendStringAt_of_keeps hkeeps hu hdrv (by decide) hi hle hlt
    · exact sendStringAt_of_keeps hkeeps hu hdrv (by decide) hi hle (fun _ => hlt (by decide)) (hpoll := fun _ => hpolled)
  | 5 =>
    obtain ⟨i, _, h⟩ := withLatch_eq_next.1 h
    obtain ⟨b, hb, h⟩ := withByte_eq_next.1 h
    obtain ⟨hlt, _⟩ := List.getElem?_eq_some_iff.1 hb
    obtain ⟨w, hw, e⟩ := andThen_eq_next.1 h
    have hkeeps := memWrite_data_keeps hst hu hw
    cases e
    exact ⟨sendStringAt_of_keeps hkeeps hu hdrv (by decide) rfl hlt, by simpa using hkeeps⟩

/-- Settles O29: of the block a data operation touches its own UART's data register only (R194, R196, R198). -/
theorem dataMicroStepsFrame : Obligations.DataMicroStepsFrame := by
  intro s t hinv h
  refine ⟨fun d b k lat hs => ?_, fun d k lat hs => ?_, fun d bs k lat hs => ?_⟩
  all_goals obtain ⟨hst, hat, hstep⟩ := step_running hinv h hs
  · exact (sendStep_keeps hst hat hstep).2
  · exact (recvStep_keeps hat hstep).2
  · exact (sendStringStep_keeps hst hat hstep).2

end Sys2Proof.Machine
end

section
/-! PROOFS. `init` while it runs: its pin steps keep the latches of the `set_function` in line in order, its UART steps
move the driver state (R190, R191, R242). -/

namespace Sys2Proof.Machine

open Sys2Proof.Safety

/-! The pin steps -/

/-- The label at which the `set_function` of the RX pin begins (R190). -/
def rxFunctionStart : PinOrder → Nat
  | .perPin => 9
  | .functionsFirst => 3

/-- In either order the pin steps are in order when the two `set_function` in line are. -/
theorem initPinAt_iff {s : State} {d : Descriptor} {k : Nat} {lat : Latches} :
    InitPinAt s d k lat ↔
      (k < 3 → SetFunctionAt s d.tx k lat) ∧
      (rxFunctionStart s.cfg.initPinOrder ≤ k → k < rxFunctionStart s.cfg.initPinOrder + 3 →
        SetFunctionAt s d.rx (k - rxFunctionStart s.cfg.initPinOrder) lat) := by
  unfold InitPinAt
  cases s.cfg.initPinOrder with
  | perPin => simp only [rxFunctionStart]; grind
  | functionsFirst => simp only [rxFunctionStart]; grind

theorem initPinBody_of_tx {d : Descriptor} {k : Nat} (lat : Latches) (s : State) (hk : k < 3) :
    initPinBody d k lat s = setFunctionBody d.tx d.fn k lat s := by
  unfold initPinBody
  cases s.cfg.initPinOrder <;> exact if_pos hk

theorem initPinBody_of_rx {d : Descriptor} {k : Nat} (lat : Latches) (s : State)
    (hlo : rxFunctionStart s.cfg.initPinOrder ≤ k) (hhi : k < rxFunctionStart s.cfg.initPinOrder + 3) :
    initPinBody d k lat s = setFunctionBody d.rx d.fn (k - rxFunctionStart s.cfg.initPinOrder) lat s := by
  unfold initPinBody
  cases h : s.cfg.initPinOrder with
  | perPin =>
    simp only [h, rxFunctionStart] at hlo hhi ⊢
    rw [if_neg (by omega), if_neg (by omega), if_pos hhi]
  | functionsFirst =>
    simp only [h, rxFunctionStart] at hlo hhi ⊢
    rw [if_neg (by omega), if_pos hhi]

/-- Past the two `set_function` in line the pin steps need no latch. -/
theorem initPinAt_of_le {s : State} {d : Descriptor} {k : Nat} {lat : Latches} (hk : 12 ≤ k) : InitPinAt s d k lat := by
  have hstart : rxFunctionStart s.cfg.initPinOrder ≤ 9 := by cases s.cfg.initPinOrder <;> decide
  exact initPinAt_iff.2 ⟨fun h => by omega, fun _ h => by omega⟩

/-- A pin step of `init` leaves the next one in order. -/
theorem initPinBody_next {d : Descriptor} {k : Nat} {lat : Latches} {s : State} {x : State × Latches}
    (hst : Standing s.cfg) (hat : InitPinAt s d k lat) (h : initPinBody d k lat s = .next x) :
    InitPinAt x.1 d (k + 1) x.2 := by
  obtain ⟨htx, hrx⟩ := initPinAt_iff.1 hat
  have hcfg : x.1.cfg = s.cfg := (act_frame (initPinBody_effect h)).1
  refine initPinAt_iff.2 ⟨fun hk => ?_, fun hlo hhi => ?_⟩
  · rw [initPinBody_of_tx lat s (by omega)] at h
    exact setFunctionBody_next hst (by omega) (htx (by omega)) h
  · rw [hcfg] at hlo hhi ⊢
    by_cases hfirst : k + 1 = rxFunctionStart s.cfg.initPinOrder
    · rw [hfirst, Nat.sub_self]
      exact setFunctionAt_zero ..
    · rw [initPinBody_of_rx lat s (by omega) (by omega)] at h
      rw [Nat.sub_add_comm (by omega)]
      exact setFunctionBody_next hst (by omega) (hrx (by omega) (by omega)) h

/-! The UART steps -/

/-- What holds of a running `init` at every label, its pin latches apart: the operands passed the checks, exactly its own
UART is `Configured` and only from S22 on, and the latches of the divisor step are written (R190, R191, R242). -/
structure InitUartAt (s : State) (d : Descriptor) (b : Word) (k : Nat) (lat : Latches) (u : UartIx) : Prop where
  fits : divisorFits s.cfg b = true
  index : uartIndex s.cfg d = some u
  driver : ∀ u' : UartIx, s.uart[u'].drv = .configured ↔ 22 ≤ k ∧ u' = u
  divisors : k = 20 ∨ k = 21 → b ≠ 0 ∧ lat.ibrd = some (baudInteger s.cfg.uartClock.val b.toNat) ∧
    lat.fbrd = some (baudFraction s.cfg.uartClock.val b.toNat)
  outcome : 20 ≤ k → lat.res = some (initOutcome b)

/-- On a running `init` the rule on `Configured` speaks of its label and its descriptor. -/
theorem configuredOnlyInInit_running {s : State} {d : Descriptor} {b : Word} {k : Nat} {lat : Latches}
    (hs : s.seq = .running (.init d b) k lat) :
    ConfiguredOnlyInInit s ↔ ∀ u : UartIx, s.uart[u].drv = .configured → 22 ≤ k ∧ uartIndex s.cfg d = some u := by
  refine forall_congr' fun u => imp_congr_right fun _ => ⟨?_, fun h => ⟨d, b, k, lat, hs, h⟩⟩
  rintro ⟨d', b', k', lat', hs', h⟩
  cases hs.symm.trans hs'
  exact h

theorem initUartAt_of_operationAt {s : State} {d : Descriptor} {b : Word} {k : Nat} {lat : Latches}
    (hs : s.seq = .running (.init d b) k lat) (hat : OperationAt s (.init d b) k lat) (hconf : ConfiguredOnlyInInit s) :
    ∃ u, InitUartAt s d b k lat u := by
  obtain ⟨_, _, hfits, ⟨u, hu, hdrv⟩, hdiv, hout⟩ := hat
  refine ⟨u, hfits, hu, fun u' => ⟨fun h => ?_, fun ⟨hk, e⟩ => e ▸ hdrv hk⟩, hdiv, hout⟩
  obtain ⟨hk, hu'⟩ := (configuredOnlyInInit_running hs).1 hconf u' h
  exact ⟨hk, Option.some.inj (hu'.symm.trans hu)⟩

/-- With its pin steps in order, an `init` that goes on keeps both halves of the invariant that speak of it. -/
theorem initUartAt_goTo {s : State} {d : Descriptor} {b : Word} {k : Nat} {lat : Latches} {u : UartIx} (hk : k ≤ 23)
    (hpin : InitPinAt s d k lat) (h : InitUartAt s d b k lat u) :
    SequencerOk (goTo (.init d b) k lat s) ∧ ConfiguredOnlyInInit (goTo (.init d b) k lat s) := by
  constructor
  · have hdrv : 22 ≤ k → s.uart[u].drv = .configured := fun hk => (h.driver u).2 ⟨hk, rfl⟩
    exact (sequencerOk_goTo ..).2 ⟨hk, hpin, h.fits, ⟨u, h.index, hdrv⟩, h.divisors, h.outcome⟩
  · refine (configuredOnlyInInit_running rfl).2 fun u' hu' => ?_
    obtain ⟨hk, rfl⟩ := (h.driver u').1 hu'
    exact ⟨hk, h.index⟩

theorem configuredOnlyInInit_of_none {s : State} (h : ∀ u : UartIx, s.uart[u].drv ≠ .configured) :
    ConfiguredOnlyInInit s := fun u hu => absurd hu (h u)

/-- A label before the divisor step asks nothing of the latches. -/
theorem initUartAt_early {s w : State} {d : Descriptor} {b : Word} {k k' : Nat} {lat lat' : Latches} {u : UartIx}
    (h : InitUartAt s d b k lat u) (hact : Act s w) (hk : k < 20) (hk' : k' < 20) : InitUartAt w d b k' lat' u := by
  obtain ⟨hcfg, _, _, _, _, hdrv⟩ := act_frame hact
  refine ⟨hcfg ▸ h.fits, hcfg ▸ h.index, fun u' => ?_, by omega, by omega⟩
  rw [hdrv, h.driver u']
  omega

/-- A label that keeps the latches and the driver states keeps the rest in order. -/
theorem initUartAt_act {s w : State} {d : Descriptor} {b : Word} {k k' : Nat} {lat : Latches} {u : UartIx}
    (h : InitUartAt s d b k lat u) (hact : Act s w) (hk : 20 ≤ k) (hdrv : 22 ≤ k ↔ 22 ≤ k')
    (hdiv : k' = 20 ∨ k' = 21 → k = 20 ∨ k = 21) : InitUartAt w d b k' lat u := by
  obtain ⟨hcfg, _, _, _, _, hdriver⟩ := act_frame hact
  refine ⟨hcfg ▸ h.fits, hcfg ▸ h.index, fun u' => ?_, fun hk' => hcfg ▸ h.divisors (hdiv hk'),
    fun _ => h.outcome hk⟩
  rw [hdriver, h.driver u', hdrv]

/-- The end of the divisor step makes the UART `Configured` (R190, R191). -/
theorem initUartAt_configured {s w : State} {d : Descriptor} {b : Word} {k : Nat} {lat lat' : Latches} {u : UartIx}
    (h : InitUartAt s d b k lat u) (hact : Act s w) (hk : k < 22) (hout : lat'.res = some (initOutcome b)) :
    InitUartAt (setDriver u .configured w) d b 22 lat' u := by
  obtain ⟨hcfg, _, _, _, _, hdrv⟩ := act_frame hact
  refine ⟨by rw [setDriver_cfg, hcfg, h.fits], by rw [setDriver_cfg, hcfg, h.index], fun u' => ?_, by omega,
    fun _ => hout⟩
  have hother : s.uart[u'].drv ≠ .configured := fun c => by have := ((h.driver u').1 c).1; omega
  rw [setDriver_drv]
  split
  · next he => exact iff_of_true rfl ⟨le_rfl, he⟩
  · next hne => rw [hdrv]; exact iff_of_false hother fun c => hne c.2

/-- A UART step of `init` keeps the sequencer in order, and `Configured` inside the `init`. -/
theorem initUartStep_keeps {u : UartIx} {d : Descriptor} {b : Word} {k : Nat} {lat : Latches} {s t : State}
    (hat : InitUartAt s d b k lat u) (h : initUartStep u d b k lat s = .next t) :
    SequencerOk t ∧ ConfiguredOnlyInInit t := by
  unfold initUartStep at h
  split at h
  · -- S18: UART off
    obtain ⟨w, hw, e⟩ := andThen_eq_next.1 h
    cases e
    exact initUartAt_goTo (by decide) (initPinAt_of_le (by decide))
      (initUartAt_early hat (act_of_memWrite hw) (by decide) (by decide))
  · -- S19: the divisor step, skipped for baud rate 0 or done
    split at h
    · next hb =>
      cases h
      exact initUartAt_goTo (by decide) (initPinAt_of_le (by decide))
        (initUartAt_configured hat .nothing (by decide) (by simp [initOutcome, hb]))
    · next hb =>
      cases h
      refine initUartAt_goTo (by decide) (initPinAt_of_le (by decide))
        ⟨hat.fits, hat.index, fun u' => ?_, fun _ => ⟨hb, rfl, rfl⟩, fun _ => ?_⟩
      · rw [hat.driver u']; simp
      · rw [initOutcome, if_neg hb]
  · -- S20: IBRD
    obtain ⟨i, _, h⟩ := withLatch_eq_next.1 h
    obtain ⟨w, hw, e⟩ := andThen_eq_next.1 h
    cases e
    exact initUartAt_goTo (by decide) (initPinAt_of_le (by decide))
      (initUartAt_act hat (act_of_memWrite hw) (by decide) (by decide) (by decide))
  · -- S21: FBRD, the end of the divisor step
    obtain ⟨f, _, h⟩ := withLatch_eq_next.1 h
    obtain ⟨w, hw, e⟩ := andThen_eq_next.1 h
    cases e
    exact initUartAt_goTo (by decide) (initPinAt_of_le (by decide))
      (initUartAt_configured hat (act_of_memWrite hw) (by decide) (hat.outcome (by decide)))
  · -- S22: LCRH
    obtain ⟨w, hw, e⟩ := andThen_eq_next.1 h
    cases e
    exact initUartAt_goTo (by decide) (initPinAt_of_le (by decide))
      (initUartAt_act hat (act_of_memWrite hw) (by decide) (by decide) (by decide))
  · -- S23: the enabling write ends the operation
    obtain ⟨code, _, h⟩ := withLatch_eq_next.1 h
    obtain ⟨w, hw, e⟩ := andThen_eq_next.1 h
    obtain ⟨_, _, _, _, _, hdrv⟩ := act_frame (act_of_memWrite hw)
    cases e
    refine ⟨sequencerOk_finish .., configuredOnlyInInit_of_none fun u' => ?_⟩
    rw [finish_uart, setDriver_drv]
    split
    · decide
    · next hne => rw [hdrv, Ne, hat.driver u']; exact fun c => hne c.2
  · cases h

theorem initStep_keeps {d : Descriptor} {b : Word} {k : Nat} {lat : Latches} {s t : State} (hst : Standing s.cfg)
    (hs : s.seq = .running (.init d b) k lat) (hop : OperationAt s (.init d b) k lat) (hconf : ConfiguredOnlyInInit s)
    (h : initStep d b k lat s = .next t) : SequencerOk t ∧ ConfiguredOnlyInInit t := by
  obtain ⟨u, hat⟩ := initUartAt_of_operationAt hs hop hconf
  obtain ⟨_, hpin, _⟩ := hop
  unfold initStep at h
  split at h
  · obtain ⟨x, hx, e⟩ := andThen_eq_next.1 h
    cases e
    exact initUartAt_goTo (by omega) (initPinBody_next hst hpin hx)
      (initUartAt_early hat (initPinBody_effect hx) (by omega) (by omega))
  · rw [withUart_of_index hat.index] at h
    exact initUartStep_keeps hat h

end Sys2Proof.Machine
end

section
/-! PROOFS. Every step keeps the invariant of the block: its four parts, one after the other. -/

namespace Sys2Proof.Machine

open Sys2Proof.Safety

/-! The logs agree with the trace (R36) -/

theorem bytesWritten_append (a : Nat) (es fs : List Event) :
    bytesWritten a (es ++ fs) = bytesWritten a es ++ bytesWritten a fs := by
  induction es with
  | nil => rfl
  | cons e es ih =>
    cases e with
    | rd b v => exact ih
    | dl n => exact ih
    | wr b v =>
      simp only [List.cons_append, bytesWritten, ih]
      split <;> rfl

/-- An act keeps the agreement: a write at a data register's address is the one that fills its log. -/
theorem act_keeps_txLogIsTrace {s w : State} (hd : descriptorsDisjoint s.cfg = true) (h : Act s w) (hlog : TxLogIsTrace s) :
    TxLogIsTrace w := by
  intro u
  have hu := hlog u
  rw [(act_frame h).1]
  cases h with
  | nothing => exact hu
  | read a r h => simpa [bytesWritten_append, bytesWritten] using hu
  | delay n => simpa [bytesWritten_append, bytesWritten] using hu
  | draw => exact hu
  | write a v r w h hw =>
    have haddr : a = uartBase s.cfg u + drOff ↔ r = .dr u := by
      rw [← regAddr_of_regAt h]
      exact ⟨fun e => regAddr_injective hd (r' := .dr u) e, fun e => e ▸ rfl⟩
    rw [logEvent_uart, logEvent_trace, writeReg_trace hw, writeReg_txLog hw, bytesWritten_append, hu]
    simp only [bytesWritten, haddr]
    split <;> simp

theorem step_keeps_txLogIsTrace {s t : State} (hd : descriptorsDisjoint s.cfg = true) (h : step s = .next t)
    (hlog : TxLogIsTrace s) : TxLogIsTrace t := by
  obtain ⟨host, w, hact, hcfg, htrace, huart⟩ := step_act h
  have hw : TxLogIsTrace w := act_keeps_txLogIsTrace (s := { s with host := host }) hd hact hlog
  intro u
  rw [huart, hcfg, htrace]
  exact hw u

/-! What the host asks of an idle sequencer -/

/-- A raw read ends at once. -/
theorem rawRead_seq {a n : Nat} {s t : State} (h : rawRead a n s = .next t) : t.seq = .idle := by
  obtain ⟨_, _, rfl⟩ := rawRead_eq_next.1 h; rfl

/-- A raw write ends at once. -/
theorem rawWrite_seq {a n : Nat} {v : Word} {s t : State} (h : rawWrite a n v s = .next t) : t.seq = .idle := by
  obtain ⟨_, _, _, _, _, rfl⟩ := rawWrite_eq_next.1 h; rfl

/-- A codec call ends at once. -/
theorem codecCall_seq {o n : Nat} {v : Word} {s t : State} (h : codecCall o n v s = .next t) : t.seq = .idle := by
  unfold codecCall at h
  split at h
  · cases h; rfl
  · split at h <;> cases h; rfl

/-- An operation in order at S0 with every latch unwritten is in order when it has been started. -/
theorem sequencerOk_started {op : Operation} {s : State} (h : OperationAt s op 0 .unwritten) : SequencerOk (started op s) :=
  (operationAt_goTo s op op 0 0 .unwritten .unwritten).2 h

/-- Issuing an instruction leaves the sequencer idle or at S0 of an operation whose operands passed the checks. -/
theorem exec_sequencerOk {i : Instr} {s t : State} (h : exec i s = .next t) : SequencerOk t := by
  cases i with
  | setFunction p f =>
    obtain ⟨q, _, rfl⟩ := execSetFunction_eq_next h
    exact sequencerOk_started (setFunctionAt_zero ..)
  | enablePin p =>
    obtain ⟨q, _, rfl⟩ := execEnablePin_eq_next h
    exact sequencerOk_started (op := .enablePin q) (Nat.zero_le 5)
  | init d b =>
    obtain ⟨rfl, hfits, u, hu⟩ := execInit_eq_next h
    have hpin : InitPinAt s d 0 .unwritten := initPinAt_iff.2
      ⟨fun _ => setFunctionAt_zero .., fun _ _ => by rw [Nat.zero_sub]; exact setFunctionAt_zero ..⟩
    exact sequencerOk_started ⟨by decide, hpin, hfits, ⟨u, hu, by simp⟩, by simp, by simp⟩
  | send d b =>
    obtain ⟨rfl, u, hu, hdrv⟩ := issueEnabled_eq_next h
    exact sequencerOk_started (op := .send d b) ⟨by decide, u, hu, hdrv, by simp⟩
  | recv d =>
    obtain ⟨rfl, u, hu, hdrv⟩ := issueEnabled_eq_next h
    exact sequencerOk_started (op := .recv d) ⟨by decide, u, hu, hdrv, by simp⟩
  | sendString d bs =>
    obtain ⟨rfl, u, hu, hdrv⟩ := issueEnabled_eq_next h
    exact sequencerOk_started (op := .sendString d bs) ⟨by decide, u, hu, hdrv, by simp, by simp⟩
  | extractField w o n => exact sequencerOk_of_idle (codecCall_seq (whenReady_eq_next.1 h).2.2)
  | mergeField w o n v => exact sequencerOk_of_idle (codecCall_seq (whenReady_eq_next.1 h).2.2)
  | baudDivisor f b =>
    have e := (whenReady_eq_next.1 h).2.2
    split at e <;> (cases e; exact sequencerOk_finish ..)
  | getByIndex k =>
    have e := (whenReady_eq_next.1 h).2.2
    split at e <;> (cases e; exact sequencerOk_finish ..)
  | delay n => cases (whenReady_eq_next.1 h).2.2; exact sequencerOk_finish ..
  | rdGpfsel n => exact sequencerOk_of_idle (rawRead_seq (whenReady_eq_next.1 h).2.2)
  | wrGpfsel n v => exact sequencerOk_of_idle (rawWrite_seq (whenReady_eq_next.1 h).2.2)
  | wrGppud v => exact sequencerOk_of_idle (rawWrite_seq (whenReady_eq_next.1 h).2.2)
  | wrGppudclk0 v => exact sequencerOk_of_idle (rawWrite_seq (whenReady_eq_next.1 h).2.2)
  | wrGppudclk1 v => exact sequencerOk_of_idle (rawWrite_seq (whenReady_eq_next.1 h).2.2)
  | rdDr d | rdFr d =>
    obtain ⟨_, _, e⟩ := withUart_eq_next.1 (whenReady_eq_next.1 h).2.2
    exact sequencerOk_of_idle (rawRead_seq e)
  | wrDr d v | wrIbrd d v | wrFbrd d v | wrLcrh d v | wrCr d v =>
    obtain ⟨_, _, e⟩ := withUart_eq_next.1 (whenReady_eq_next.1 h).2.2
    exact sequencerOk_of_idle (rawWrite_seq e)

theorem serve_sequencerOk {r : Request} {s t : State} (h : serve r s = .next t) : SequencerOk t := by
  cases r with
  | issue e =>
    replace h : issue e s = .next t := h
    unfold issue at h
    split at h
    · exact exec_sequencerOk h
    · cases h
    · cases h
  | read a n => exact sequencerOk_of_idle (rawRead_seq (whenReady_eq_next.1 h).2.2)
  | write a n v => exact sequencerOk_of_idle (rawWrite_seq (whenReady_eq_next.1 h).2.2)

/-! The sequencer and the driver states through a step -/

/-- Outside `init` no UART is `Configured` (R242). -/
theorem drv_ne_configured {s : State} (hconf : ConfiguredOnlyInInit s)
    (hs : ∀ d b k lat, s.seq ≠ .running (.init d b) k lat) (u : UartIx) : s.uart[u].drv ≠ .configured := by
  intro hu
  obtain ⟨d, b, k, lat, hseq, _⟩ := hconf u hu
  exact hs d b k lat hseq

/-- Only a step of a running `init` changes a driver state, so outside it none becomes `Configured`. -/
theorem step_keeps_none_configured {s t : State} (h : step s = .next t) (hconf : ConfiguredOnlyInInit s)
    (hs : ∀ d b k lat, s.seq ≠ .running (.init d b) k lat) : ConfiguredOnlyInInit t := by
  obtain ⟨host, w, x, hact, hx, hblock⟩ := step_effect h
  rcases hx with rfl | ⟨d, b, _, _, k, lat, hseq, _⟩
  · refine configuredOnlyInInit_of_none fun u => ?_
    obtain ⟨_, _, _, _, _, hdrv⟩ := act_frame hact
    rw [sameBlock_uart hblock, hdrv]
    exact drv_ne_configured hconf hs u
  · exact absurd hseq (hs d b k lat)

/-- A step keeps the two parts of the invariant that speak of the sequencer, by the operation that runs. -/
theorem step_keeps_sequencer {s t : State} (hst : Standing s.cfg) (hseq : SequencerOk s) (hconf : ConfiguredOnlyInInit s)
    (h : step s = .next t) : SequencerOk t ∧ ConfiguredOnlyInInit t := by
  have hother := step_keeps_none_configured h hconf
  rcases step_cases h with ⟨op, k, lat, hs, _, hstep⟩ | ⟨a, rest, hs, _, hserve⟩ | ⟨_, _, rfl⟩
  · have hat := (sequencerOk_running hs).1 hseq
    cases op with
    | init d b => exact initStep_keeps hst hs hat hconf hstep
    | setFunction p f => exact ⟨(setFunctionStep_keeps hst hat hstep).1, hother (by simp [hs])⟩
    | enablePin p => exact ⟨(enablePinStep_keeps hst hat hstep).1, hother (by simp [hs])⟩
    | send d b => exact ⟨(sendStep_keeps hst hat hstep).1, hother (by simp [hs])⟩
    | recv d => exact ⟨(recvStep_keeps hat hstep).1, hother (by simp [hs])⟩
    | sendString d bs => exact ⟨(sendStringStep_keeps hst hat hstep).1, hother (by simp [hs])⟩
  · exact ⟨serve_sequencerOk hserve, hother (by simp [hs])⟩
  · exact ⟨hseq, hconf⟩

/-- Settles O57: the configuration stands since no step changes it, the sequencer by the operation that runs, the logs by
the one act of the step. -/
theorem stepKeepsInvariant : Obligations.StepKeepsInvariant := by
  intro s t ⟨hst, hseq, hconf, hlog⟩ h
  obtain ⟨hseq', hconf'⟩ := step_keeps_sequencer hst hseq hconf h
  exact ⟨stepKeepsParameters s t h ▸ hst, hseq', hconf', step_keeps_txLogIsTrace hst.1 h hlog⟩

end Sys2Proof.Machine
end

section
/-! PROOFS. What the checks and the accesses refuse, and when: the checks of R64, R66 and R137 in the order of log 12, and
the check of R76 before every instruction. -/

namespace Sys2Proof.Machine

open Sys2Proof.Safety

theorem andThen_eq_refused {α β : Type} {x : Answer α} {f : α → Answer β} {r : Refusal} :
    andThen x f = .refused r ↔ x = .refused r ∨ ∃ a, x = .next a ∧ f a = .refused r := by
  cases x <;> simp

/-! The checks of an access, in the order of log 12 -/

theorem access_of_size_ne {c : Config} {a n : Nat} (hn : n ≠ 4) : access c a n = .refused .badAccessSize := if_pos hn

theorem access_of_misaligned {c : Config} {a : Nat} (ha : a % 4 ≠ 0) : access c a 4 = .refused .misaligned := by
  simp [access, ha]

theorem access_of_unmapped {c : Config} {a : Nat} (ha : a % 4 = 0) (hr : ∀ r, regAddr c r ≠ a) :
    access c a 4 = .refused .unmappedAddress := by
  simp [access, ha, regAt_none hr]

/-! A refused access stops each transaction before it reads or writes anything. -/

section
variable {s : State} {a n : Nat} {r : Refusal} (h : access s.cfg a n = .refused r)
include h

theorem memRead_of_access_refused : memRead a n s = .refused r := by rw [memRead, h, andThen_refused]

theorem memWrite_of_access_refused (v : Word) : memWrite a n v s = .refused r := by rw [memWrite, h, andThen_refused]

theorem rawRead_of_access_refused : rawRead a n s = .refused r := by
  rw [rawRead, memRead_of_access_refused h, andThen_refused]

theorem rawWrite_of_access_refused (v : Word) : rawWrite a n v s = .refused r := by rw [rawWrite, h, andThen_refused]

end

/-! The flag register has no write (R137). -/

theorem memWrite_flags_refused {s : State} (hst : Standing s.cfg) (u : UartIx) (v : Word) :
    memWrite (regAddr s.cfg (.fr u)) 4 v s = .refused .writeToFlagRegister := by
  obtain ⟨hdisjoint, haligned, _⟩ := hst
  rw [memWrite_regAddr hdisjoint haligned]
  rfl

theorem rawWrite_flags_refused {s : State} (hst : Standing s.cfg) (u : UartIx) (v : Word) :
    rawWrite (regAddr s.cfg (.fr u)) 4 v s = .refused .writeToFlagRegister := by
  have hmem := memWrite_flags_refused hst u v
  obtain ⟨hdisjoint, haligned, _⟩ := hst
  rw [rawWrite, access_regAddr hdisjoint haligned, andThen_next, hmem, andThen_refused]

/-! The step of a ready block is the raw transaction the host asks for. -/

/-- An idle sequencer serves the host's next act (R33). -/
theorem step_of_act {s : State} {act : HostAct} {rest : List HostAct} (hs : s.seq = .idle) (hhost : s.host = act :: rest) :
    step s = serve act.request { s with host := rest } := by
  simp only [step, advance, hs, hhost]

section
variable {s : State} {act : HostAct} {rest : List HostAct} {a n : Nat} (hready : Ready s) (hhost : s.host = act :: rest)
include hready hhost

theorem step_of_read (hr : act.request = .read a n) : step s = rawRead a n { s with host := rest } := by
  obtain ⟨hidle, hdisjoint, _⟩ := hready
  rw [step_of_act hidle hhost, hr]
  exact whenReady_of_idle (s := { s with host := rest }) hidle hdisjoint

theorem step_of_write {v : Word} (hr : act.request = .write a n v) : step s = rawWrite a n v { s with host := rest } := by
  obtain ⟨hidle, hdisjoint, _⟩ := hready
  rw [step_of_act hidle hhost, hr]
  exact whenReady_of_idle (s := { s with host := rest }) hidle hdisjoint

/-- A raw transaction whose access is refused is refused so by the step. -/
theorem step_of_access_refused {v : Word} {r : Refusal} (hr : act.request = .read a n ∨ act.request = .write a n v)
    (h : access s.cfg a n = .refused r) : step s = .refused r := by
  rcases hr with hr | hr
  · rw [step_of_read hready hhost hr]; exact rawRead_of_access_refused (s := { s with host := rest }) h
  · rw [step_of_write hready hhost hr]; exact rawWrite_of_access_refused (s := { s with host := rest }) h v

end

/-! Aliasing -/

/-- The registers are listed once each. -/
theorem nodup_allRegs : allRegs.Nodup := by decide

theorem allDistinct_addresses_iff {c : Config} :
    allDistinct (allRegs.map (regAddr c)) = true ↔ ∀ r r', regAddr c r = regAddr c r' → r = r' := by
  rw [allDistinct_iff_nodup, List.nodup_map_iff_inj_on nodup_allRegs]
  exact ⟨fun h r r' => h r (mem_allRegs r) r' (mem_allRegs r'), fun h r _ r' _ => h r r'⟩

theorem allDistinct_pins_iff {c : Config} :
    allDistinct (registryPins c) = true ↔
      ¬ (c.registry[0].tx = c.registry[0].rx ∨ c.registry[0].tx = c.registry[1].tx ∨
         c.registry[0].tx = c.registry[1].rx ∨ c.registry[0].rx = c.registry[1].tx ∨
         c.registry[0].rx = c.registry[1].rx ∨ c.registry[1].tx = c.registry[1].rx) := by
  simp [allDistinct_iff_nodup, registryPins, Fin.ext_iff, not_or, and_assoc]

/-- Equal bases put the two data registers at one address. -/
theorem regAddr_dr_of_bases {c : Config} (h : c.registry[0].base = c.registry[1].base) :
    regAddr c (.dr 0) = regAddr c (.dr 1) := congrArg (· + drOff) h

/-- `DescriptorsDisjoint` fails exactly under aliasing (R76, R61, log 18). -/
theorem descriptorsDisjoint_eq_false_iff {c : Config} : descriptorsDisjoint c = false ↔ Aliased c := by
  rw [← Bool.not_eq_true, descriptorsDisjoint, Bool.and_eq_true, allDistinct_pins_iff, allDistinct_addresses_iff]
  unfold Aliased
  constructor
  · intro h
    by_contra hn
    obtain ⟨_, hn⟩ := not_or.1 hn
    obtain ⟨hpins, haddr⟩ := not_or.1 hn
    exact h ⟨hpins, fun r r' e => by_contra fun hne => haddr ⟨r, r', hne, e⟩⟩
  · rintro (hbase | hpins | ⟨r, r', hne, e⟩) ⟨hdistinct, hinj⟩
    · exact absurd (hinj _ _ (regAddr_dr_of_bases hbase)) (by decide)
    · exact hdistinct hpins
    · exact hne (hinj r r' e)

/-! Only the check before an operation refuses for aliasing. -/

theorem whenReady_eq_aliased_iff {s : State} {x : Answer State} (hs : s.seq = .idle)
    (hx : x ≠ .refused .aliasedConfiguration) :
    whenReady s x = .refused .aliasedConfiguration ↔ descriptorsDisjoint s.cfg = false := by
  refine ⟨fun h => ?_, whenReady_of_aliased hs⟩
  by_contra hd
  rw [whenReady_of_idle hs (by simpa using hd)] at h
  exact hx h

theorem access_not_aliased {c : Config} {a n : Nat} : access c a n ≠ .refused .aliasedConfiguration := by
  unfold access
  split
  · simp
  · split
    · simp
    · split <;> simp

theorem writeReg_not_aliased {r : Reg} {v : Word} {s : State} : writeReg r v s ≠ .refused .aliasedConfiguration := by
  cases r <;> simp [writeReg]

theorem memRead_not_aliased {a n : Nat} {s : State} : memRead a n s ≠ .refused .aliasedConfiguration := by
  simp [memRead, andThen_eq_refused, access_not_aliased]

theorem memWrite_not_aliased {a n : Nat} {v : Word} {s : State} : memWrite a n v s ≠ .refused .aliasedConfiguration := by
  simp [memWrite, andThen_eq_refused, access_not_aliased, writeReg_not_aliased]

theorem rawRead_not_aliased {a n : Nat} {s : State} : rawRead a n s ≠ .refused .aliasedConfiguration := by
  simp [rawRead, andThen_eq_refused, memRead_not_aliased]

theorem rawWrite_not_aliased {a n : Nat} {v : Word} {s : State} : rawWrite a n v s ≠ .refused .aliasedConfiguration := by
  have hmem : andThen (memWrite a n v s) (fun t => .next (finish .ok .none t)) ≠ .refused .aliasedConfiguration := by
    simp [andThen_eq_refused, memWrite_not_aliased]
  intro h
  rcases andThen_eq_refused.1 h with h | ⟨r, _, h⟩
  · exact access_not_aliased h
  · split at h
    · split at h
      · exact hmem h
      · cases h
    · exact hmem h

theorem codecCall_not_aliased {o n : Nat} {v : Word} {s : State} : codecCall o n v s ≠ .refused .aliasedConfiguration := by
  unfold codecCall
  split
  · simp
  · split <;> simp

theorem withUart_not_aliased {d : Descriptor} {s : State} {f : UartIx → Answer State}
    (hf : ∀ u, f u ≠ .refused .aliasedConfiguration) : withUart d s f ≠ .refused .aliasedConfiguration := by
  unfold withUart
  split
  · exact hf _
  · simp

theorem withPin_not_aliased {pin : Int} {f : Pin → Answer State} (hf : ∀ p, f p ≠ .refused .aliasedConfiguration) :
    withPin pin f ≠ .refused .aliasedConfiguration := by
  unfold withPin
  split
  · exact hf _
  · simp

theorem whenEnabled_not_aliased {u : UartIx} {s : State} {x : Answer State} (hx : x ≠ .refused .aliasedConfiguration) :
    whenEnabled u s x ≠ .refused .aliasedConfiguration := by
  unfold whenEnabled
  split
  · exact hx
  · simp

/-- Every instruction is issued under the checks of R238, and nothing after them refuses for aliasing. -/
theorem exec_eq_whenReady (i : Instr) (s : State) :
    ∃ x, exec i s = whenReady s x ∧ x ≠ .refused .aliasedConfiguration := by
  cases i with
  | extractField w o n => exact ⟨_, rfl, codecCall_not_aliased⟩
  | mergeField w o n v => exact ⟨_, rfl, codecCall_not_aliased⟩
  | setFunction p f => exact ⟨_, rfl, withPin_not_aliased fun _ => by simp⟩
  | enablePin p => exact ⟨_, rfl, withPin_not_aliased fun _ => by simp⟩
  | baudDivisor f b => exact ⟨_, rfl, by split <;> simp⟩
  | init d b => exact ⟨_, rfl, withUart_not_aliased fun _ => by split <;> simp⟩
  | send d b => exact ⟨_, rfl, withUart_not_aliased fun _ => whenEnabled_not_aliased (by simp)⟩
  | recv d => exact ⟨_, rfl, withUart_not_aliased fun _ => whenEnabled_not_aliased (by simp)⟩
  | sendString d bs => exact ⟨_, rfl, withUart_not_aliased fun _ => whenEnabled_not_aliased (by simp)⟩
  | getByIndex k => exact ⟨_, rfl, by split <;> simp⟩
  | rdGpfsel n => exact ⟨_, rfl, rawRead_not_aliased⟩
  | wrGpfsel n v => exact ⟨_, rfl, rawWrite_not_aliased⟩
  | wrGppud v => exact ⟨_, rfl, rawWrite_not_aliased⟩
  | wrGppudclk0 v => exact ⟨_, rfl, rawWrite_not_aliased⟩
  | wrGppudclk1 v => exact ⟨_, rfl, rawWrite_not_aliased⟩
  | rdDr d => exact ⟨_, rfl, withUart_not_aliased fun _ => rawRead_not_aliased⟩
  | wrDr d v => exact ⟨_, rfl, withUart_not_aliased fun _ => rawWrite_not_aliased⟩
  | rdFr d => exact ⟨_, rfl, withUart_not_aliased fun _ => rawRead_not_aliased⟩
  | wrIbrd d v => exact ⟨_, rfl, withUart_not_aliased fun _ => rawWrite_not_aliased⟩
  | wrFbrd d v => exact ⟨_, rfl, withUart_not_aliased fun _ => rawWrite_not_aliased⟩
  | wrLcrh d v => exact ⟨_, rfl, withUart_not_aliased fun _ => rawWrite_not_aliased⟩
  | wrCr d v => exact ⟨_, rfl, withUart_not_aliased fun _ => rawWrite_not_aliased⟩
  | delay n => exact ⟨_, rfl, by simp⟩

end Sys2Proof.Machine
end

section
/-! PROOFS. The statements of 20_memory.md. -/

namespace Sys2Proof.Machine

open Sys2Proof.Safety

/-- Settles O60: each address is R61's sum; distinctness and alignment are the first two conditions of a standing
configuration. -/
theorem addressMapIsAsListed : Obligations.AddressMapIsAsListed := by
  intro c
  refine ⟨fun _ => rfl, rfl, rfl, rfl, fun _ => ⟨rfl, rfl, rfl, rfl, rfl, rfl⟩, ?_⟩
  rintro ⟨hdisjoint, haligned, _⟩
  exact ⟨fun _ _ => regAddr_injective hdisjoint, regAddr_aligned haligned⟩

/-- Settles O54: a step is an act, and an act appends at most one event (R71). -/
theorem oneEventPerStep : Obligations.OneEventPerStep := by
  intro s t h
  obtain ⟨host, w, hact, _, htrace, _⟩ := step_act h
  rw [htrace]
  exact act_trace (s := { s with host := host }) hact

/-- Settles O48: each check of an access refuses by its name, the primitives, the raw transactions and the step pass the
refusal on, and the flag register's write is refused behind the checks (R64, R66, R137). -/
theorem rawAccessRefusals : Obligations.RawAccessRefusals := by
  intro s a n v
  have both : ∀ {m : Nat} {r : Refusal}, access s.cfg a m = .refused r →
      memRead a m s = .refused r ∧ memWrite a m v s = .refused r :=
    fun h => ⟨memRead_of_access_refused h, memWrite_of_access_refused h v⟩
  refine ⟨fun hn => both (access_of_size_ne hn), fun ha => both (access_of_misaligned ha),
    fun ha hr => both (access_of_unmapped ha hr), fun hst u => memWrite_flags_refused hst u v,
    fun act rest hready hhost => ⟨fun hreq => ?_, fun u hreq => ?_⟩⟩
  · have refused : ∀ {r : Refusal}, access s.cfg a n = .refused r → step s = .refused r :=
      step_of_access_refused hready hhost hreq
    refine ⟨fun hn => refused (access_of_size_ne hn), ?_, ?_⟩
    · rintro rfl ha
      exact refused (access_of_misaligned ha)
    · rintro rfl ha hr
      exact refused (access_of_unmapped ha hr)
  · rw [step_of_write hready hhost hreq]
    exact rawWrite_flags_refused (s := { s with host := rest }) hready.2 u v

/-- Settles O52: an instruction is refused for aliasing by the check before it alone, and that check is R76's condition. -/
theorem aliasedRefused : Obligations.AliasedRefused := by
  intro s i hs
  obtain ⟨x, hexec, hx⟩ := exec_eq_whenReady i s
  have hiff : exec i s = .refused .aliasedConfiguration ↔ Aliased s.cfg := by
    rw [hexec, whenReady_eq_aliased_iff hs hx, descriptorsDisjoint_eq_false_iff]
  exact ⟨hiff.2, fun hn h => hn (hiff.1 h)⟩

end Sys2Proof.Machine
end

section
/-! PROOFS. The decoder read row by row: the fields of a descriptor, the row of every code of R105 and R106 whatever the
ports hold, and what the decoder answers on the codes that spell no instruction (R108). -/

namespace Sys2Proof

open Sys2Proof.Safety

/-! The fields of a descriptor (R106) -/

theorem transactionDesc_toNat (we blk : Bool) {off : Nat} (h : off < 256) :
    (transactionDesc we blk off).toNat = (if we then 512 else 0) + (if blk then 256 else 0) + off := by
  cases we <;> cases blk <;> simp [transactionDesc] <;> omega

theorem descOff_lt (desc : BitVec 11) : descOff desc < 256 := Nat.mod_lt _ (by decide)

/-- The four fields of a descriptor add up to it. -/
theorem toNat_eq_fields (desc : BitVec 11) :
    desc.toNat = (if descK desc then 1024 else 0) + (if descWe desc then 512 else 0) + (if descBlk desc then 256 else 0) +
      descOff desc := by
  have hlt := desc.isLt
  simp only [descK, descWe, descBlk, descOff, BitVec.getLsbD, Nat.testBit_eq_decide_div_mod_eq, decide_eq_true_eq]
  split <;> split <;> split <;> omega

/-- A transaction's descriptor is the one of its fields. -/
theorem transactionDesc_fields {desc : BitVec 11} (hk : descK desc = false) :
    transactionDesc (descWe desc) (descBlk desc) (descOff desc) = desc := by
  apply BitVec.eq_of_toNat_eq
  rw [transactionDesc_toNat _ _ (descOff_lt desc), toNat_eq_fields desc, hk]
  simp

section
variable (we blk : Bool) {off : Nat} (h : off < 256)
include h

theorem descK_transactionDesc : descK (transactionDesc we blk off) = false := by
  rw [descK, BitVec.getLsbD, transactionDesc_toNat we blk h, Nat.testBit_eq_decide_div_mod_eq, decide_eq_false_iff_not]
  cases we <;> cases blk <;> simp <;> omega

theorem descWe_transactionDesc : descWe (transactionDesc we blk off) = we := by
  rw [descWe, BitVec.getLsbD, transactionDesc_toNat we blk h, Nat.testBit_eq_decide_div_mod_eq]
  cases we <;> cases blk <;> simp <;> omega

theorem descBlk_transactionDesc : descBlk (transactionDesc we blk off) = blk := by
  rw [descBlk, BitVec.getLsbD, transactionDesc_toNat we blk h, Nat.testBit_eq_decide_div_mod_eq]
  cases we <;> cases blk <;> simp <;> omega

theorem descOff_transactionDesc : descOff (transactionDesc we blk off) = off := by
  rw [descOff, transactionDesc_toNat we blk h]
  cases we <;> cases blk <;> simp <;> omega

/-- The decoder on a transaction of the GPIO block reads its row. -/
theorem decode_gpio_transaction (g : GpioLayout) (p : Ports) :
    decode g ⟨.uop (transactionDesc we false off), p⟩ = decodeGpio g we off p := by
  simp [decode, decodeUop, descK_transactionDesc, descWe_transactionDesc, descBlk_transactionDesc,
    descOff_transactionDesc, h]

end

/-! The rows of the GPIO block, whose offsets are parameters -/

/-- The function-select word found at an offset stands there, and is found where it stands. -/
theorem gpfselAtOff_eq_some_iff {g : GpioLayout} {off : Nat} {n : Fin 6} :
    gpfselAtOff g off = some n ↔ off = g.gpfselOff + 4 * n.val := by
  have found {m : Fin 6} (h : gpfselAtOff g off = some m) : g.gpfselOff + 4 * m.val = off :=
    beq_iff_eq.1 (List.find?_some (p := fun k : Fin 6 => g.gpfselOff + 4 * k.val == off) h)
  have listed : ∀ k : Fin 6, k ∈ [0, 1, 2, 3, 4, 5] := by decide
  refine ⟨fun h => (found h).symm, fun h => ?_⟩
  cases e : gpfselAtOff g off with
  | none => exact absurd (beq_iff_eq.2 h.symm) (List.find?_eq_none.1 e n (listed n))
  | some m =>
    have hm := found e
    exact congrArg some (Fin.ext (by omega))

theorem gpfselAtOff_eq_none_iff {g : GpioLayout} {off : Nat} :
    gpfselAtOff g off = none ↔ ∀ n : Fin 6, off ≠ g.gpfselOff + 4 * n.val := by
  simp only [Option.eq_none_iff_forall_ne_some, ne_eq, gpfselAtOff_eq_some_iff]

/-- Where the offsets fit the descriptor, each is below 256 and the three other words stand apart from the six
function-select words and from each other. -/
theorem offsets_of_fit {g : GpioLayout} (h : descriptorsFit g = true) :
    (g.gpfselOff + 20 < 256 ∧ g.gppudOff < 256 ∧ g.gppudclk0Off < 256 ∧ g.gppudclk1Off < 256) ∧
    (gpfselAtOff g g.gppudOff = none ∧ gpfselAtOff g g.gppudclk0Off = none ∧ gpfselAtOff g g.gppudclk1Off = none) ∧
    g.gppudclk0Off ≠ g.gppudOff ∧ g.gppudclk1Off ≠ g.gppudOff ∧ g.gppudclk1Off ≠ g.gppudclk0Off := by
  simp only [descriptorsFit, Bool.and_eq_true, decide_eq_true_eq, List.all_eq_true] at h
  obtain ⟨hlt, hnodup⟩ := h
  simp only [gpioOffsets, List.forall_mem_cons] at hlt
  simp only [gpioOffsets, List.nodup_cons, List.mem_cons, not_or] at hnodup
  simp only [gpfselAtOff_eq_none_iff, Fin.forall_fin_succ]
  refine ⟨by omega, ⟨?_, ?_, ?_⟩, by omega⟩ <;> simp <;> omega

section
variable {g : GpioLayout} (hfit : descriptorsFit g = true) (p : Ports)
include hfit

theorem decode_gpfsel (we : Bool) (n : Fin 6) :
    decode g ⟨.uop (transactionDesc we false (g.gpfselOff + 4 * n.val)), p⟩ =
      .ok (if we then .wrGpfsel n p.data else .rdGpfsel n) := by
  obtain ⟨⟨hoff, _⟩, _⟩ := offsets_of_fit hfit
  have hlt : g.gpfselOff + 4 * n.val < 256 := by omega
  have hsome : gpfselAtOff g (g.gpfselOff + 4 * n.val) = some n := gpfselAtOff_eq_some_iff.2 rfl
  cases we <;> simp [decode_gpio_transaction, decodeGpio, hlt, hsome]

theorem decode_gppud : decode g ⟨.uop (transactionDesc true false g.gppudOff), p⟩ = .ok (.wrGppud p.data) := by
  obtain ⟨⟨_, hoff, _, _⟩, ⟨hnone, _, _⟩, _⟩ := offsets_of_fit hfit
  simp [decode_gpio_transaction, decodeGpio, hoff, hnone]

theorem decode_gppudclk0 :
    decode g ⟨.uop (transactionDesc true false g.gppudclk0Off), p⟩ = .ok (.wrGppudclk0 p.data) := by
  obtain ⟨⟨_, _, hoff, _⟩, ⟨_, hnone, _⟩, hpud, _⟩ := offsets_of_fit hfit
  simp [decode_gpio_transaction, decodeGpio, hoff, hnone, hpud]

theorem decode_gppudclk1 :
    decode g ⟨.uop (transactionDesc true false g.gppudclk1Off), p⟩ = .ok (.wrGppudclk1 p.data) := by
  obtain ⟨⟨_, _, _, hoff⟩, ⟨_, _, hnone⟩, _, hpud, hclk⟩ := offsets_of_fit hfit
  simp [decode_gpio_transaction, decodeGpio, hoff, hnone, hpud, hclk]

end

/-! What spells an instruction: the codes the encoder writes -/

/-- A selector that spells an operation is the operation's own (R105). -/
theorem encode_of_decodeOp {g : GpioLayout} {sel : BitVec 4} {p : Ports} {i : Instr} (h : decodeOp sel p = .ok i) :
    (encode g i).code = .op sel := by
  unfold decodeOp at h
  split at h <;> cases h <;> (rename_i hsel; exact congrArg Code.op (BitVec.eq_of_toNat_eq hsel.symm))

/-- A UART row that spells a micro-operation is the micro-operation's own (R106). -/
theorem encode_of_decodeUart {g : GpioLayout} {we : Bool} {off : Nat} {p : Ports} {i : Instr}
    (h : decodeUart we off p = .ok i) : (encode g i).code = .uop (transactionDesc we true off) := by
  unfold decodeUart at h
  split at h <;> cases h <;> rfl

/-- What a GPIO row can spell: an access of a function-select word, or a write of one of the three other words. -/
theorem decodeGpio_eq_ok {g : GpioLayout} {we : Bool} {off : Nat} {p : Ports} {i : Instr}
    (h : decodeGpio g we off p = .ok i) :
    (∃ n : Fin 6, off = g.gpfselOff + 4 * n.val ∧ i = if we then .wrGpfsel n p.data else .rdGpfsel n) ∨
    (we = true ∧ (off = g.gppudOff ∧ i = .wrGppud p.data ∨ off = g.gppudclk0Off ∧ i = .wrGppudclk0 p.data ∨
      off = g.gppudclk1Off ∧ i = .wrGppudclk1 p.data)) := by
  unfold decodeGpio at h
  split at h
  · next n hn => cases h; exact .inl ⟨n, gpfselAtOff_eq_some_iff.1 hn, rfl⟩
  · next n hn => cases h; exact .inl ⟨n, gpfselAtOff_eq_some_iff.1 hn, rfl⟩
  · cases h
  · refine .inr ⟨rfl, ?_⟩
    split at h
    · next hoff => cases h; exact .inl ⟨hoff, rfl⟩
    split at h
    · next hoff => cases h; exact .inr (.inl ⟨hoff, rfl⟩)
    split at h
    · next hoff => cases h; exact .inr (.inr ⟨hoff, rfl⟩)
    · cases h

/-- A GPIO row that spells a micro-operation is the micro-operation's own (R106). -/
theorem encode_of_decodeGpio {g : GpioLayout} {we : Bool} {off : Nat} {p : Ports} {i : Instr}
    (h : decodeGpio g we off p = .ok i) : (encode g i).code = .uop (transactionDesc we false off) := by
  rcases decodeGpio_eq_ok h with ⟨n, rfl, rfl⟩ | ⟨rfl, ⟨rfl, rfl⟩ | ⟨rfl, rfl⟩ | ⟨rfl, rfl⟩⟩
  · cases we <;> rfl
  · rfl
  · rfl
  · rfl

/-- A descriptor that spells a micro-operation is a delay's or a transaction's in one of the two blocks (R106). -/
theorem decodeUop_eq_ok {g : GpioLayout} {desc : BitVec 11} {p : Ports} {i : Instr} (h : decodeUop g desc p = .ok i) :
    (desc = 0x400 ∧ i = .delay p.cycles) ∨ descK desc = false ∧
      ((descBlk desc = true ∧ decodeUart (descWe desc) (descOff desc) p = .ok i) ∨
       (descBlk desc = false ∧ decodeGpio g (descWe desc) (descOff desc) p = .ok i)) := by
  unfold decodeUop at h
  split at h
  · split at h
    · next hdesc => cases h; exact .inl ⟨hdesc, rfl⟩
    · cases h
  · next hk =>
    refine .inr ⟨Bool.eq_false_of_not_eq_true hk, ?_⟩
    split at h
    · next hblk => exact .inl ⟨hblk, h⟩
    · next hblk => exact .inr ⟨Bool.eq_false_of_not_eq_true hblk, h⟩

/-- A code that spells an instruction is the instruction's own (R105, R106). -/
theorem encode_of_decode {g : GpioLayout} {e : Encoded} {i : Instr} (h : decode g e = .ok i) :
    (encode g i).code = e.code := by
  obtain ⟨code, p⟩ := e
  cases code with
  | op sel => exact encode_of_decodeOp h
  | uop desc =>
    rcases decodeUop_eq_ok h with ⟨rfl, rfl⟩ | ⟨hk, ⟨hblk, hrow⟩ | ⟨hblk, hrow⟩⟩
    · rfl
    · rw [encode_of_decodeUart hrow, ← hblk, transactionDesc_fields hk]
    · rw [encode_of_decodeGpio hrow, ← hblk, transactionDesc_fields hk]

/-! What spells none (R108) -/

theorem decodeOp_of_reserved {sel : BitVec 4} (p : Ports) (h : 10 ≤ sel.toNat) :
    decodeOp sel p = .error .noSuchOperation := by
  unfold decodeOp
  split
  case h_11 => rfl
  all_goals omega

/-- Format `UOP` has one way to reject. -/
theorem decodeUop_eq_error {g : GpioLayout} {desc : BitVec 11} {p : Ports} {r : Reject} (h : decodeUop g desc p = .error r) :
    r = .noSuchMicroOperation := by
  unfold decodeUop decodeUart decodeGpio at h
  repeat' split at h
  all_goals cases h
  all_goals rfl

/-- A UART row that spells a micro-operation is one of the seven of R106. -/
theorem mem_uartRows_of_decodeUart {we : Bool} {off : Nat} {p : Ports} {i : Instr} (h : decodeUart we off p = .ok i) :
    (if we then 512 else 0) + 256 + off ∈ [0x100, 0x300, 0x118, 0x324, 0x328, 0x32C, 0x330, 0x400] := by
  unfold decodeUart at h
  split at h <;> cases h <;> decide

/-- A descriptor that spells a micro-operation is a pattern of R106. -/
theorem hasRow_of_decodeUop {g : GpioLayout} {desc : BitVec 11} {p : Ports} {i : Instr} (h : decodeUop g desc p = .ok i) :
    HasRow g desc := by
  have hsum := toNat_eq_fields desc
  rcases decodeUop_eq_ok h with ⟨rfl, _⟩ | ⟨hk, ⟨hblk, hrow⟩ | ⟨hblk, hrow⟩⟩
  · exact .inr (.inr (by decide))
  · rw [hk, hblk] at hsum
    refine .inr (.inr ?_)
    simpa [hsum] using mem_uartRows_of_decodeUart hrow
  · rw [hk, hblk] at hsum
    rcases decodeGpio_eq_ok hrow with ⟨n, hoff, _⟩ | ⟨hwe, hoff⟩
    · rw [hoff] at hsum
      refine .inl ⟨n, ?_⟩
      cases hwe : descWe desc <;> simp [hsum, hwe]
    · rw [hwe] at hsum
      refine .inr (.inl ?_)
      rcases hoff with ⟨hoff, _⟩ | ⟨hoff, _⟩ | ⟨hoff, _⟩ <;> simp [hsum, hoff]

/-- Where the offsets fit, a pattern of R106 spells a micro-operation. -/
theorem decode_of_hasRow {g : GpioLayout} {desc : BitVec 11} (p : Ports) (hfit : descriptorsFit g = true)
    (h : HasRow g desc) : ∃ i, decode g ⟨.uop desc, p⟩ = .ok i := by
  obtain ⟨⟨hsel, hpud, hclk0, hclk1⟩, _⟩ := offsets_of_fit hfit
  have gpio {we : Bool} {off : Nat} (hlt : off < 256) (hdesc : desc.toNat = (if we then 512 else 0) + off) :
      desc = transactionDesc we false off :=
    BitVec.eq_of_toNat_eq (by rw [transactionDesc_toNat we false hlt, hdesc]; simp)
  rcases h with ⟨n, h | h⟩ | h | h
  · rw [gpio (we := false) (off := g.gpfselOff + 4 * n.val) (by omega) (by simpa using h)]
    exact ⟨_, decode_gpfsel hfit p false n⟩
  · rw [gpio (we := true) (off := g.gpfselOff + 4 * n.val) (by omega) (by simpa using h)]
    exact ⟨_, decode_gpfsel hfit p true n⟩
  · simp only [List.mem_cons, List.not_mem_nil, or_false] at h
    rcases h with h | h | h
    · rw [gpio (we := true) hpud h]; exact ⟨_, decode_gppud hfit p⟩
    · rw [gpio (we := true) hclk0 h]; exact ⟨_, decode_gppudclk0 hfit p⟩
    · rw [gpio (we := true) hclk1 h]; exact ⟨_, decode_gppudclk1 hfit p⟩
  · simp only [List.mem_cons, List.not_mem_nil, or_false] at h
    have hdesc : desc = BitVec.ofNat 11 desc.toNat := by simp
    rw [hdesc]
    rcases h with h | h | h | h | h | h | h | h <;> (rw [h]; exact ⟨_, rfl⟩)

end Sys2Proof
end

section
/-! PROOFS. The statements of 30_encoding.md. -/

namespace Sys2Proof.Machine

open Sys2Proof.Safety

/-! A code that spells no instruction, as the host issues it (R108, U8) -/

theorem step_of_reject {s : State} {a : HostAct} {rest : List HostAct} {e : Encoded} {r : Reject} (hs : s.seq = .idle)
    (hhost : s.host = a :: rest) (hreq : a.request = .issue e) (hdecode : decode s.cfg.gpio e = .error r) :
    step s = .refused .noSuchOperation := by
  rw [step_of_act hs hhost, hreq]
  cases r <;> simp only [serve, issue, hdecode]

/-! What the combinational operations change (R107) -/

/-- `t` is `s` but for the result port and the count of free words. -/
def SameButPort (s t : State) : Prop := t = { s with outcome := t.outcome, result := t.result, draws := t.draws }

theorem sameButPort_finish {s : State} (c : OutcomeCode) (x : Result) (n : Nat) (hs : s.seq = .idle) :
    SameButPort s (finish c x { s with draws := n }) := by
  rw [SameButPort, finish_of_idle (s := { s with draws := n }) c x hs]

theorem codecCall_sameButPort {o n : Nat} {v : Word} {s t : State} (hs : s.seq = .idle) (h : codecCall o n v s = .next t) :
    SameButPort s t := by
  unfold codecCall at h
  split at h
  · cases h; exact sameButPort_finish _ _ s.draws hs
  · split at h
    · cases h; exact sameButPort_finish _ _ (s.draws + 1) hs
    · cases h

/-- Settles O5: the decoder finds the row that the encoder wrote; only the GPIO rows need the offsets to fit. -/
theorem decodeOfEncode : Obligations.DecodeOfEncode := by
  intro g i hfit
  cases i with
  | rdGpfsel n => exact decode_gpfsel hfit _ false n
  | wrGpfsel n v => exact decode_gpfsel hfit _ true n
  | wrGppud v => exact decode_gppud hfit _
  | wrGppudclk0 v => exact decode_gppudclk0 hfit _
  | wrGppudclk1 v => exact decode_gppudclk1 hfit _
  | _ => rfl

/-- Settles O6: each row the decoder accepts is the encoder's row of the instruction it answers, wherever the
offsets stand. -/
theorem encodeOfDecode : Obligations.EncodeOfDecode := fun _ _ _ _ h => encode_of_decode h

/-- Settles O8: what decodes has a row, so a descriptor without one is rejected, and the step refuses what the decoder
rejects; a row decodes where the offsets fit. -/
theorem descriptorsWithoutRow : Obligations.DescriptorsWithoutRow := by
  intro s desc p
  refine ⟨fun hrow => ?_, decode_of_hasRow p⟩
  have hdecode : decode s.cfg.gpio ⟨.uop desc, p⟩ = .error .noSuchMicroOperation := by
    cases h : decode s.cfg.gpio ⟨.uop desc, p⟩ with
    | ok i => exact absurd (hasRow_of_decodeUop h) hrow
    | error r => rw [decodeUop_eq_error h]
  exact ⟨hdecode, fun a rest hs hhost hreq => step_of_reject hs hhost hreq hdecode⟩

/-- Settles O4: the decoder evaluated at each of the seven codes, whatever the ports hold. -/
theorem tableWordsDecode : Obligations.TableWordsDecode := fun _ => ⟨rfl, rfl, rfl, rfl, rfl, rfl, rfl⟩

/-- Settles O7: the decoder rejects every selector from 10 on, and the step refuses what the decoder rejects. -/
theorem reservedSelectorsRefused : Obligations.ReservedSelectorsRefused := by
  intro s sel p a rest hsel
  have hdecode (g : GpioLayout) : decode g ⟨.op sel, p⟩ = .error .noSuchOperation := decodeOp_of_reserved p hsel
  exact ⟨hdecode, fun hs hhost hreq => step_of_reject hs hhost hreq (hdecode _)⟩

/-- Settles O34: each of the four ends at once through `finish`, on a block that is idle and stays so. -/
theorem pureOperationsFrame : Obligations.PureOperationsFrame := by
  rintro s t i h (⟨w, o, n, rfl⟩ | ⟨w, o, n, v, rfl⟩ | ⟨f, b, rfl⟩ | ⟨k, rfl⟩) <;>
    obtain ⟨hs, _, h⟩ := whenReady_eq_next.1 h
  · exact codecCall_sameButPort hs h
  · exact codecCall_sameButPort hs h
  · split at h <;> (cases h; exact sameButPort_finish _ _ s.draws hs)
  · split at h <;> (cases h; exact sameButPort_finish _ _ s.draws hs)

end Sys2Proof.Machine
end

section
/-! PROOFS. Raw transactions at a register's own address on a ready block: what each answers, and what it keeps. The
micro-operations and the host's raw transactions are these. -/

namespace Sys2Proof.Machine

open Sys2Proof.Safety

/-! The environment's answers (R72) -/

/-- A read of FR is answered by the first answer to come, which is then used up. -/
theorem answerFr_eq (u : UartIx) (s : State) : answerFr u s = (frAnswer s u 0, afterFr s u 1) := by
  cases h : s.answers[u].fr with
  | nil =>
    have hset : s.answers.set u { s.answers[u] with fr := [] } = s.answers := by
      rw [← h]; exact Vector.set_getElem_self _
    simp only [answerFr_nil h, draw, frAnswer, afterFr, h, List.getElem?_nil, List.drop_nil, List.length_nil,
      Nat.sub_zero, Nat.add_zero, hset]
  | cons v rest =>
    have hdraws : 1 - (rest.length + 1) = 0 := by omega
    simp only [answerFr_cons h, frAnswer, afterFr, h, List.getElem?_cons_zero, List.drop_succ_cons, List.drop_zero,
      List.length_cons, hdraws, Nat.add_zero]

/-- A read of FR takes answers from its own UART's flag script only. -/
theorem answerFr_answers (u u' : UartIx) (s : State) :
    (answerFr u s).2.answers[u'].dr = s.answers[u'].dr ∧
    (u' ≠ u → (answerFr u s).2.answers[u'] = s.answers[u']) := by
  cases h : s.answers[u].fr with
  | nil => simp [answerFr_nil h]
  | cons v rest =>
    simp only [answerFr_cons h, Fin.getElem_fin, Vector.getElem_set, ← Fin.ext_iff]
    split <;> simp_all

/-- A read of DR takes answers from its own UART's data script only. -/
theorem answerDr_answers (u u' : UartIx) (s : State) :
    (answerDr u s).2.answers[u'].fr = s.answers[u'].fr ∧
    (u' ≠ u → (answerDr u s).2.answers[u'] = s.answers[u']) := by
  cases h : s.answers[u].dr with
  | nil => simp [answerDr_nil h]
  | cons v rest =>
    simp only [answerDr_cons h, Fin.getElem_fin, Vector.getElem_set, ← Fin.ext_iff]
    split <;> simp_all

/-! What a raw transaction answers on a ready block -/

section
variable {s : State} (hready : Ready s)
include hready

theorem whenReady_of_ready (x : Answer State) : whenReady s x = x := whenReady_of_idle hready.1 hready.2.1

/-- A micro-operation of a registry entry's UART passes the checks of R238. -/
theorem whenReady_withUart_registry (u : UartIx) (f : UartIx → Answer State) :
    whenReady s (withUart s.cfg.registry[u] s f) = f u := by
  rw [whenReady_of_ready hready, withUart_registry hready.2.1]

/-- A raw read answers what the register answers and records it (R130). -/
theorem rawRead_of_ready (r : Reg) {v : Word} {w : State} (hread : readReg s r = (v, w)) :
    rawRead (regAddr s.cfg r) 4 s = .next
      { w with trace := s.trace ++ [.rd (regAddr s.cfg r) v], outcome := some .ok, result := .word v } := by
  obtain ⟨hidle, hdisjoint, haligned, _⟩ := hready
  have hseq : w.seq = .idle := by rw [← hidle, ← readReg_seq s r, hread]
  have htrace : w.trace = s.trace := by rw [← readReg_trace s r, hread]
  rw [rawRead_regAddr hdisjoint haligned, hread, finish_of_idle (s := logEvent _ w) _ _ hseq, logEvent, htrace]

/-- A raw write writes the register and records it, at `DR` after a poll that lets it pass (R131, R139). -/
theorem rawWrite_of_ready (r : Reg) {v : Word} {w : State} (hwrite : writeReg r v s = .next w)
    (hpolled : ∀ u, r = .dr u → TransmitPolled s u := by simp) :
    rawWrite (regAddr s.cfg r) 4 v s = .next
      { w with trace := s.trace ++ [.wr (regAddr s.cfg r) v], outcome := some .ok, result := .none } := by
  obtain ⟨hidle, hdisjoint, haligned, _⟩ := hready
  have hseq : w.seq = .idle := by rw [writeReg_frame hwrite, hidle]
  rw [rawWrite_regAddr hdisjoint haligned (fun u hu => transmitPolled_iff.2 (hpolled u hu)) hwrite,
    finish_of_idle (s := logEvent _ w) _ _ hseq, logEvent, writeReg_trace hwrite]

/-- A raw write of `DR` without a poll that lets it pass is refused (R139, R269, log 13). -/
theorem rawWrite_data_refused {u : UartIx} (v : Word) (hpolled : ¬ TransmitPolled s u) :
    rawWrite (regAddr s.cfg (.dr u)) 4 v s = .refused .writeToFullTransmitBuffer := by
  obtain ⟨_, hdisjoint, haligned, _⟩ := hready
  rw [rawWrite, access_regAddr hdisjoint haligned, andThen_next]
  exact if_neg fun h => hpolled (transmitPolled_iff.1 h)

end

/-- After a last flag answer with `TXFF = 1` no poll lets a write pass: of the two reads of the flag register the later
one is the last (R139, R269). -/
theorem not_transmitPolled_of_full {s : State} {u : UartIx} (hfull : LastFlagsFull s u) : ¬ TransmitPolled s u := by
  obtain ⟨es, w, fs, htrace, hset, hlast⟩ := hfull
  rintro ⟨es', w', fs', htrace', hclear, hnone⟩
  rcases List.append_eq_append_iff.1 (htrace.symm.trans htrace') with ⟨as, _, h⟩ | ⟨as, _, h⟩
  · cases as with
    | nil => cases h; cases hset.symm.trans hclear
    | cons e as => cases h; exact hlast w' (by simp)
  · cases as with
    | nil => cases h; cases hset.symm.trans hclear
    | cons e as => cases h; exact hnone _ (by simp) (uartAccess_rd_fr s.cfg u w)

/-! What a raw transaction keeps -/

/-- Under `DescriptorsDisjoint` an access of a register's address that goes through reaches that register. -/
theorem eq_of_access_regAddr {c : Config} {r r' : Reg} {n : Nat} (hd : descriptorsDisjoint c = true)
    (h : access c (regAddr c r) n = .next r') : r' = r := by
  obtain ⟨_, _, hat⟩ := access_eq_next.1 h
  exact regAddr_injective hd (regAddr_of_regAt hat)

/-- A raw read keeps every register, and of the environment what the register's own read keeps. -/
theorem rawRead_frame {r : Reg} {n : Nat} {s t : State} (hd : descriptorsDisjoint s.cfg = true)
    (h : rawRead (regAddr s.cfg r) n s = .next t) :
    t.seq = .idle ∧ Keeps [] s t ∧ AnswersNothing (readReg s r).2 t := by
  obtain ⟨r', hr, rfl⟩ := rawRead_eq_next.1 h
  rw [eq_of_access_regAddr hd hr]
  exact ⟨rfl, by simpa using readReg_keeps s r, rfl, rfl⟩

/-- A raw write keeps every other register and takes no answer. -/
theorem rawWrite_frame {r : Reg} {n : Nat} {v : Word} {s t : State} (hd : descriptorsDisjoint s.cfg = true)
    (h : rawWrite (regAddr s.cfg r) n v s = .next t) : t.seq = .idle ∧ Keeps [r] s t ∧ AnswersNothing s t := by
  obtain ⟨r', w, hr, _, hw, rfl⟩ := rawWrite_eq_next.1 h
  rw [eq_of_access_regAddr hd hr] at hw
  exact ⟨rfl, by simpa using writeReg_keeps hw⟩

/-- A register's word does not depend on the host's acts to come. -/
theorem stored_host (s : State) (acts : List HostAct) (r : Reg) : stored { s with host := acts } r = stored s r :=
  stored_congr rfl rfl rfl rfl r

/-! The same for a micro-operation, whose address is that of a register -/

theorem gpioRead_frame {r : Reg} {s t : State} (h : whenReady s (rawRead (regAddr s.cfg r) 4 s) = .next t) :
    t.seq = .idle ∧ Keeps [] s t ∧ AnswersNothing (readReg s r).2 t := by
  obtain ⟨_, hdisjoint, h⟩ := whenReady_eq_next.1 h
  exact rawRead_frame hdisjoint h

theorem gpioWrite_frame {r : Reg} {v : Word} {s t : State} (h : whenReady s (rawWrite (regAddr s.cfg r) 4 v s) = .next t) :
    t.seq = .idle ∧ Keeps [r] s t ∧ AnswersNothing s t := by
  obtain ⟨_, hdisjoint, h⟩ := whenReady_eq_next.1 h
  exact rawWrite_frame hdisjoint h

section
variable {reg : UartIx → Reg} {off : Nat} {d : Descriptor} {s t : State}
  (hreg : ∀ u, regAddr s.cfg (reg u) = uartBase s.cfg u + off)
include hreg

theorem uartRead_frame (h : whenReady s (withUart d s fun _ => rawRead (d.base + off) 4 s) = .next t) :
    ∃ u, uartIndex s.cfg d = some u ∧ t.seq = .idle ∧ Keeps [] s t ∧ AnswersNothing (readReg s (reg u)).2 t := by
  obtain ⟨_, hdisjoint, h⟩ := whenReady_eq_next.1 h
  obtain ⟨u, hu, h⟩ := withUart_eq_next.1 h
  rw [base_of_uartIndex hu, ← hreg] at h
  exact ⟨u, hu, rawRead_frame hdisjoint h⟩

theorem uartWrite_frame {v : Word} (h : whenReady s (withUart d s fun _ => rawWrite (d.base + off) 4 v s) = .next t) :
    ∃ u, uartIndex s.cfg d = some u ∧ t.seq = .idle ∧ Keeps [reg u] s t ∧ AnswersNothing s t := by
  obtain ⟨_, hdisjoint, h⟩ := whenReady_eq_next.1 h
  obtain ⟨u, hu, h⟩ := withUart_eq_next.1 h
  rw [base_of_uartIndex hu, ← hreg] at h
  exact ⟨u, hu, rawWrite_frame hdisjoint h⟩

end

end Sys2Proof.Machine
end

section
/-! PROOFS. The statements of 40_register_access.md. -/

namespace Sys2Proof.Machine

open Sys2Proof.Safety

/-- Settles O39: the raw read of the UART's flag register, answered by the first flag answer to come. -/
theorem readFlagsValue : Obligations.ReadFlagsValue := by
  refine ⟨fun _ _ => rfl, fun s u hready => ?_⟩
  exact (whenReady_withUart_registry hready u _).trans (rawRead_of_ready hready (.fr u) (answerFr_eq u s))

/-- Settles O40: the raw read of the UART's data register, answered by the script or past its end by a free word. -/
theorem readDataValue : Obligations.ReadDataValue := by
  refine ⟨fun _ _ => rfl, fun s u hready => ?_⟩
  have hexec : exec (.rdDr s.cfg.registry[u]) s = rawRead (regAddr s.cfg (.dr u)) 4 s :=
    whenReady_withUart_registry hready u _
  rw [hexec]
  exact ⟨fun v rest h => rawRead_of_ready hready (.dr u) (answerDr_cons h),
    fun h => rawRead_of_ready hready (.dr u) (answerDr_nil h)⟩

/-- Settles O41: the raw write of the UART's data register goes through after a poll that lets it pass alone, and a last
flag answer with `TXFF = 1` is no such poll. -/
theorem writeDataValue : Obligations.WriteDataValue := by
  refine ⟨fun _ _ _ => rfl, fun s u v hready => ?_⟩
  have hexec : exec (.wrDr s.cfg.registry[u] v) s = rawWrite (regAddr s.cfg (.dr u)) 4 v s :=
    whenReady_withUart_registry hready u _
  rw [hexec]
  refine ⟨fun hpolled => ?_, rawWrite_data_refused hready v,
    fun hfull => rawWrite_data_refused hready v (not_transmitPolled_of_full hfull)⟩
  exact rawWrite_of_ready hready (.dr u) rfl (by rintro _ ⟨⟩; exact hpolled)

/-- Settles O47: each of the twelve transactions is at the address of the register it names, which its access reaches
under the checks it has passed; the delay writes the trace only. -/
theorem microOperationsFrame : Obligations.MicroOperationsFrame := by
  intro s t d v
  refine ⟨fun n => gpioRead_frame (r := .gpfsel n), fun n => gpioWrite_frame (r := .gpfsel n),
    gpioWrite_frame (r := .gppud), gpioWrite_frame (r := .gppudclk 0), gpioWrite_frame (r := .gppudclk 1),
    fun h => ?_, uartWrite_frame (reg := .dr) fun _ => rfl, fun h => ?_, uartWrite_frame (reg := .ibrd) fun _ => rfl,
    uartWrite_frame (reg := .fbrd) fun _ => rfl, uartWrite_frame (reg := .lcrh) fun _ => rfl,
    uartWrite_frame (reg := .cr) fun _ => rfl, fun n h => ?_⟩
  · obtain ⟨u, hu, hseq, hkeeps, hanswers, _⟩ := uartRead_frame (reg := .dr) (fun _ => rfl) h
    exact ⟨u, hu, hseq, hkeeps, fun u' => by rw [hanswers]; exact answerDr_answers u u' s⟩
  · obtain ⟨u, hu, hseq, hkeeps, hanswers, _⟩ := uartRead_frame (reg := .fr) (fun _ => rfl) h
    exact ⟨u, hu, hseq, hkeeps, fun u' => by rw [hanswers]; exact answerFr_answers u u' s⟩
  · cases (whenReady_eq_next.1 h).2.2
    exact ⟨rfl, by simpa [delayFor] using keeps_refl [] s, rfl, rfl⟩

/-- Settles O50: the step is the raw transaction the host asks for, at the register's own address, on the block with that
act taken off. -/
theorem rawTransactionsByHost : Obligations.RawTransactionsByHost := by
  intro s a rest hready hhost
  have hready' : Ready { s with host := rest } := hready
  refine ⟨fun r w hreq hr => ?_, fun r v w hreq hr => ?_, fun u hreq => ?_, fun u hreq => ?_, fun u v =>
    ⟨fun hreq => ?_, fun hreq => ?_⟩⟩
  · rw [step_of_read hready hhost hreq]
    exact rawRead_of_ready hready' r (readReg_stored ((stored_host s rest r).trans hr))
  · obtain ⟨_, hdisjoint, haligned, _⟩ := hready'
    have hr' := (stored_host s rest r).trans hr
    obtain ⟨w', hw⟩ := writeReg_of_stored v hr'
    have hraw := rawWrite_regAddr hdisjoint haligned (by rintro u rfl; cases hr) hw
    obtain ⟨hseq, hkeeps, hnothing⟩ := rawWrite_frame hdisjoint hraw
    refine ⟨_, (step_of_write hready hhost hreq).trans hraw, ?_, hkeeps, hnothing, hseq, ?_, rfl, rfl⟩
    · rw [stored_finish, stored_logEvent, writeReg_stored hw, hr', if_pos ⟨rfl, rfl⟩]
    · rw [finish_trace, logEvent_trace, writeReg_trace hw]
  · rw [step_of_read hready hhost hreq]
    exact rawRead_of_ready hready' (.fr u) (answerFr_eq u _)
  · rw [step_of_read hready hhost hreq]
    exact ⟨fun v vs h => rawRead_of_ready hready' (.dr u) (answerDr_cons h),
      fun h => rawRead_of_ready hready' (.dr u) (answerDr_nil h)⟩
  · rw [step_of_write hready hhost hreq]
    exact rawWrite_flags_refused (s := { s with host := rest }) hready.2 u v
  · rw [step_of_write hready hhost hreq]
    refine ⟨fun hfull => rawWrite_data_refused hready' v (not_transmitPolled_of_full hfull),
      rawWrite_data_refused hready' v, fun hpolled => ?_⟩
    exact rawWrite_of_ready hready' (.dr u) rfl (by rintro _ ⟨⟩; exact hpolled)

/-- Settles O35: the raw read of a function-select word. -/
theorem readGpfselValue : Obligations.ReadGpfselValue := by
  refine ⟨by decide, fun s n hready => ?_⟩
  exact (whenReady_of_ready hready _).trans (rawRead_of_ready hready (.gpfsel n) rfl)

/-- Settles O36: the raw write of a function-select word. -/
theorem writeGpfselValue : Obligations.WriteGpfselValue := by
  have hcode : ∀ n : Fin 6, transactionDesc true false (0 + 4 * n.val) = 0b01000000000#11 ||| BitVec.ofNat 11 (4 * n.val) := by
    decide
  refine ⟨fun n _ => congrArg Code.uop (hcode n), fun s n v hready => ?_⟩
  exact (whenReady_of_ready hready _).trans (rawWrite_of_ready hready (.gpfsel n) rfl)

/-- Settles O37: the raw write of the pull-mode word. -/
theorem writeGppudValue : Obligations.WriteGppudValue := by
  refine ⟨fun _ => rfl, fun s v hready => ?_⟩
  exact (whenReady_of_ready hready _).trans (rawWrite_of_ready hready .gppud rfl)

/-- Settles O38: the raw writes of the two pull-clock words. -/
theorem writeGppudclkValue : Obligations.WriteGppudclkValue := by
  refine ⟨fun _ => ⟨rfl, rfl⟩, fun s v hready => ⟨?_, ?_⟩⟩
  · exact (whenReady_of_ready hready _).trans (rawWrite_of_ready hready (.gppudclk 0) rfl)
  · exact (whenReady_of_ready hready _).trans (rawWrite_of_ready hready (.gppudclk 1) rfl)

/-- Settles O42: the raw write of the UART's integer divisor. -/
theorem writeIntegerDivisorValue : Obligations.WriteIntegerDivisorValue := by
  refine ⟨fun _ _ _ => rfl, fun s u v hready => ?_⟩
  exact (whenReady_withUart_registry hready u _).trans (rawWrite_of_ready hready (.ibrd u) rfl)

/-- Settles O43: the raw write of the UART's fractional divisor, whichever the word. -/
theorem writeFractionalDivisorValue : Obligations.WriteFractionalDivisorValue := by
  refine ⟨fun _ _ _ => rfl, fun s u v hready => ?_⟩
  exact (whenReady_withUart_registry hready u _).trans (rawWrite_of_ready hready (.fbrd u) rfl)

/-- Settles O44: the raw write of the UART's line control. -/
theorem writeLineControlValue : Obligations.WriteLineControlValue := by
  refine ⟨fun _ _ _ => rfl, fun s u v hready => ?_⟩
  exact (whenReady_withUart_registry hready u _).trans (rawWrite_of_ready hready (.lcrh u) rfl)

/-- Settles O45: the raw write of the UART's control register. -/
theorem writeControlValue : Obligations.WriteControlValue := by
  refine ⟨fun _ _ _ => rfl, fun s u v hready => ?_⟩
  exact (whenReady_withUart_registry hready u _).trans (rawWrite_of_ready hready (.cr u) rfl)

/-- Settles O46: a delay is one event, and ends on a block that is idle and stays so. -/
theorem delayValue : Obligations.DelayValue := by
  refine ⟨fun _ _ => rfl, fun s n hready => ?_⟩
  exact (whenReady_of_ready hready _).trans (congrArg _ (finish_of_idle (s := delayFor n s) .ok .none hready.1))

end Sys2Proof.Machine
end

section
/-! PROOFS. The bit-field codec: a codec word bit by bit, and what a codec call answers on a ready block. The laws of R153
compare two words bit by bit. -/

namespace Sys2Proof.Machine

open Sys2Proof.Safety

/-! The bits of a codec word -/

@[simp] theorem getElem_mask (n : Nat) {k : Nat} (hk : k < 32) : (mask n)[k] = decide (k < n) := by
  rw [← BitVec.getLsbD_eq_getElem, mask, BitVec.getLsbD_ofNat, Nat.testBit_two_pow_sub_one]
  simp [hk]

theorem toNat_mask {n : Nat} (h : n ≤ 32) : (mask n).toNat = 2 ^ n - 1 := by
  have hpow : 2 ^ n ≤ 2 ^ 32 := Nat.pow_le_pow_right (by decide) h
  have hpos : 0 < 2 ^ n := Nat.two_pow_pos n
  rw [mask, BitVec.toNat_ofNat, Nat.mod_eq_of_lt (by omega)]

/-- An extracted field has the word's bits at the offset, the width's number of them (R150). -/
@[simp] theorem getElem_extractBits (w : Word) (o n : Nat) {k : Nat} (hk : k < 32) :
    (extractBits w o n)[k] = (decide (k < n) && w.getLsbD (o + k)) := by
  rw [extractBits, BitVec.getElem_and, BitVec.getElem_ushiftRight, getElem_mask, Bool.and_comm]

/-- A merged word has the value's bits in the field and the word's own elsewhere (R151). -/
theorem getElem_mergeBits (w v : Word) (o n : Nat) {k : Nat} (hk : k < 32) :
    (mergeBits w o n v)[k] = if o ≤ k ∧ k < o + n then v[k - o] else w[k] := by
  by_cases hin : o ≤ k ∧ k < o + n
  · have hnotBelow : ¬ k < o := by omega
    have hwidth : k - o < n := by omega
    simp [mergeBits, hin, hnotBelow, hwidth]
  · obtain hbelow | habove : k < o ∨ ¬ k - o < n := by omega
    · simp [mergeBits, hin, hbelow]
    · simp [mergeBits, hin, habove]

/-- In an extracted field of width at most 32 stands the number of R150. -/
theorem toNat_extractBits {n : Nat} (w : Word) (o : Nat) (h : n ≤ 32) :
    (extractBits w o n).toNat = w.toNat / 2 ^ o % 2 ^ n := by
  rw [extractBits, BitVec.toNat_and, toNat_mask h, BitVec.toNat_ushiftRight, Nat.and_two_pow_sub_one_eq_mod,
    Nat.shiftRight_eq_div_pow]

/-! The laws of R153 -/

/-- Extracting the field just merged gives the masked value. -/
theorem extractBits_mergeBits_same (w v : Word) {o n : Nat} (hfield : o + n ≤ 32) :
    extractBits (mergeBits w o n v) o n = v &&& mask n := by
  ext k hk
  rw [getElem_extractBits _ _ _ hk, BitVec.getElem_and, getElem_mask n hk]
  by_cases hin : k < n
  · have hbit : o + k < 32 := by omega
    simp [hin, hbit, getElem_mergeBits]
  · simp [hin]

/-- A merge leaves a field that does not overlap. -/
theorem extractBits_mergeBits_disjoint (w v : Word) {o n o' n' : Nat} (hfield : o' + n' ≤ 32)
    (happart : o + n ≤ o' ∨ o' + n' ≤ o) :
    extractBits (mergeBits w o n v) o' n' = extractBits w o' n' := by
  ext k hk
  rw [getElem_extractBits _ _ _ hk, getElem_extractBits _ _ _ hk]
  by_cases hin : k < n'
  · have hbit : o' + k < 32 := by omega
    have hout : ¬ (o ≤ o' + k ∧ o' + k < o + n) := by omega
    simp [hbit, hout, getElem_mergeBits]
  · simp [hin]

/-- Merging back what was extracted gives the word. -/
theorem mergeBits_extractBits_same (w : Word) (o n : Nat) : mergeBits w o n (extractBits w o n) = w := by
  ext k hk
  rw [getElem_mergeBits _ _ _ _ hk]
  split
  case isTrue hin =>
    have hwidth : k - o < n := by omega
    simp [hwidth, Nat.add_sub_cancel' hin.1, hk]
  case isFalse => rfl

/-- Of two merges into the same field the second wins. -/
theorem mergeBits_mergeBits_same (w v₁ v₂ : Word) (o n : Nat) :
    mergeBits (mergeBits w o n v₁) o n v₂ = mergeBits w o n v₂ := by
  ext k hk
  simp only [getElem_mergeBits _ _ _ _ hk]
  split <;> rfl

/-! What a codec call answers on a ready block -/

/-- Inside the input condition the value, and the block as it was (R150, R151). -/
theorem codecCall_inside {s : State} {o n : Nat} (value : Word) (hidle : s.seq = .idle) (hfield : o + n ≤ 32) :
    codecCall o n value s = .next { s with outcome := some .ok, result := .word value } := by
  rw [codecCall, if_pos hfield, finish_of_idle .ok (.word value) hidle]

section
variable {s : State} {o n : Nat} (value : Word) (hfield : 32 < o + n)
include hfield

/-- Outside it, under `CODEC_VIOLATION = draw`, the next free word whatever the value (R152). -/
theorem codecCall_draw (hidle : s.seq = .idle) (hmode : s.cfg.codecViolation = .draw) :
    codecCall o n value s = .next { s with outcome := some .ok, result := .word (freeWord s.draws), draws := s.draws + 1 } := by
  rw [codecCall, if_neg (by omega), hmode]
  exact congrArg _ (finish_of_idle (s := (draw s).2) .ok (.word (freeWord s.draws)) hidle)

/-- Outside it, under `CODEC_VIOLATION = refuse`, a refusal (R152). -/
theorem codecCall_refuse (hmode : s.cfg.codecViolation = .refuse) : codecCall o n value s = .refused .codecInputCondition := by
  rw [codecCall, if_neg (by omega), hmode]

end

section
variable {s : State} (hready : Ready s) (w : Word) (o n : Nat)
include hready

theorem exec_extractField_of_ready : exec (.extractField w o n) s = codecCall o n (extractBits w o n) s :=
  whenReady_of_ready hready _

theorem exec_mergeField_of_ready (v : Word) : exec (.mergeField w o n v) s = codecCall o n (mergeBits w o n v) s :=
  whenReady_of_ready hready _

end

end Sys2Proof.Machine
end

section
/-! PROOFS. The statements of 41_bitfield_codec.md. -/

namespace Sys2Proof.Machine

open Sys2Proof.Safety

/-- Settles O9: the call ends with the extracted word, whose number is read off the shift and the mask. -/
theorem extractFieldValue : Obligations.ExtractFieldValue := by
  refine ⟨fun _ _ _ _ => rfl, fun s w o n hready hfield => ⟨?_, toNat_extractBits w o (by omega)⟩⟩
  rw [exec_extractField_of_ready hready, codecCall_inside _ hready.1 hfield]

/-- Settles O10: the call ends with the merged word, read bit by bit. -/
theorem mergeFieldValue : Obligations.MergeFieldValue := by
  refine ⟨fun _ _ _ _ _ => rfl, fun s w o n v hready hfield => ⟨?_, fun k hk => ?_⟩⟩
  · rw [exec_mergeField_of_ready hready, codecCall_inside _ hready.1 hfield]
  · rw [BitVec.getLsbD_eq_getElem hk, getElem_mergeBits w v o n hk, BitVec.getLsbD_eq_getElem, BitVec.getLsbD_eq_getElem]

/-- Settles O11: outside the input condition the answer does not depend on the operation. -/
theorem codecViolation : Obligations.CodecViolation := by
  intro s w v o n hready hfield
  rw [exec_extractField_of_ready hready, exec_mergeField_of_ready hready]
  exact ⟨fun hmode => ⟨codecCall_draw _ hfield hready.1 hmode, codecCall_draw _ hfield hready.1 hmode⟩,
    fun hmode => ⟨codecCall_refuse _ hfield hmode, codecCall_refuse _ hfield hmode⟩⟩

/-- Settles O12: the laws of the codec, each a lemma above. -/
theorem codecLaws : Obligations.CodecLaws := by
  intro w v v₁ v₂ o n hfield
  refine ⟨extractBits_mergeBits_same w v hfield, mergeBits_extractBits_same w o n,
    fun _ _ hfield' happart => extractBits_mergeBits_disjoint w v hfield' happart,
    mergeBits_mergeBits_same w v₁ v₂ o n, BitVec.isLt _, ?_⟩
  rw [toNat_extractBits w o (by omega)]
  exact Nat.mod_lt _ (Nat.two_pow_pos n)

end Sys2Proof.Machine
end

section
/-! PROOFS. The two GPIO operations run to their end: issued on a ready block they start the sequencer, every micro-step
goes on to the next label, and the last one ends the operation (R33, R160, R162). -/

namespace Sys2Proof.Machine

open Sys2Proof.Safety

/-! Issuing them (R161) -/

section
variable {s : State} (hready : Ready s)
include hready

theorem exec_setFunction_of_ready (p : Pin) (f : Function) :
    exec (.setFunction p.val f) s = .next (beginOp (.setFunction p f) s) :=
  (whenReady_of_ready hready _).trans (withPin_val p _)

theorem exec_enablePin_of_ready (p : Pin) : exec (.enablePin p.val) s = .next (beginOp (.enablePin p) s) :=
  (whenReady_of_ready hready _).trans (withPin_val p _)

end

/-! The micro-steps of an operation that ends `OK` at its last label -/

/-- The micro-steps of `op` are those of `body`: after each the next label, after the one at `last` the end, with outcome
`OK` and no value. -/
def RunsThrough (op : Operation) (last : Nat) (body : Nat → Latches → State → Answer (State × Latches)) : Prop :=
  ∀ k lat s, microStep op k lat s = andThen (body k lat s) fun q =>
    if k = last then .next (finish .ok .none q.1) else .next (goTo op (k + 1) q.2 q.1)

theorem setFunction_runsThrough (p : Pin) (f : Function) : RunsThrough (.setFunction p f) 2 (setFunctionBody p f) :=
  fun _ _ _ => rfl

theorem enablePin_runsThrough (p : Pin) : RunsThrough (.enablePin p) 5 (enablePinBody p) := fun _ _ _ => rfl

section
variable {op : Operation} {last k n : Nat} {body : Nat → Latches → State → Answer (State × Latches)} {s t : State}
  {lat lat' : Latches} (hop : RunsThrough op last body) (hp : Patient s)
include hop hp

/-- Before the last label a run goes on at the next one. -/
theorem runs_of_body (hs : s.seq = .running op k lat) (hk : k ≠ last) (hbody : body k lat s = .next (t, lat')) :
    runs (n + 1) s = runs n (goTo op (k + 1) lat' t) :=
  runs_of_running n hp hs (by rw [hop, hbody, andThen_next, if_neg hk])

/-- At the last label it ends. -/
theorem runs_of_last_body (hs : s.seq = .running op last lat) (hbody : body last lat s = .next (t, lat')) :
    runs 1 s = .next (finish .ok .none t) :=
  runs_of_running 0 hp hs (by rw [hop, hbody, andThen_next, if_pos rfl])

end

/-! The run of `set_function` -/

/-- The three micro-steps of `set_function` on any block (R160). The premises speak of the host and the parameters alone,
so at every later state of the run they are by definition those of the first. -/
theorem runs_setFunction {p : Pin} {f : Function} {lat : Latches} {s : State} (hp : Patient s) (hst : Standing s.cfg) :
    runs 3 (goTo (.setFunction p f) 0 lat s) = .next (finish .ok .none (afterSetFunction p f s)) := by
  have hop := setFunction_runsThrough p f
  calc runs 3 (goTo (.setFunction p f) 0 lat s)
    _ = _ := runs_of_body hop ‹_› rfl (by decide) (setFunctionBody_zero p f)
    _ = _ := runs_of_body hop ‹_› rfl (by decide) (setFunctionBody_one ‹_› f (by rfl))
    _ = _ := runs_of_last_body hop ‹_› rfl (setFunctionBody_two ‹_› f (by rfl) (by rfl) (by rfl))
    _ = .next (finish .ok .none (afterSetFunction p f s)) := by
      simp [finish, goTo, logEvent, afterSetFunction, setFunctionEvents, setFunctionWords, setFunctionWord]

/-! The run of `enable_pin`, by the block between two of its micro-steps -/

/-- The block after the first `k` micro-steps of `enable_pin` (R162): the words written so far, and as many events. -/
def duringEnablePin (p : Pin) (k : Nat) (s : State) : State :=
  { s with gppud := if k = 0 then s.gppud else pullOffWord s.cfg,
           gppudclk := if k < 3 then s.gppudclk else s.gppudclk.set (clkIndex p) (if k < 6 then clkWord p else 0),
           trace := s.trace ++ (enablePinEvents s.cfg p).take k }

theorem duringEnablePin_zero (p : Pin) (s : State) : duringEnablePin p 0 s = s := by simp [duringEnablePin]

theorem duringEnablePin_six (p : Pin) (s : State) : duringEnablePin p 6 s = afterEnablePin p s := by
  simp [duringEnablePin, afterEnablePin, enablePinEvents]

/-- Micro-step `k` makes of the block after `k` of them the block after `k + 1`. -/
theorem enablePinBody_during {op : Operation} {p : Pin} {k : Nat} {lat : Latches} {s : State} (hst : Standing s.cfg)
    (hk : k < 6) :
    enablePinBody p k lat (goTo op k lat (duringEnablePin p k s)) =
      .next (goTo op k lat (duringEnablePin p (k + 1) s), lat) := by
  have hst' : Standing (goTo op k lat (duringEnablePin p k s)).cfg := hst
  match k, hk with
  | 0, _ => rw [enablePinBody_zero hst']; simp [goTo, logEvent, duringEnablePin, enablePinEvents]
  | 1, _ => rw [enablePinBody_one]; simp [goTo, logEvent, delayFor, duringEnablePin, enablePinEvents]
  | 2, _ => rw [enablePinBody_two hst']; simp [goTo, logEvent, duringEnablePin, enablePinEvents]
  | 3, _ => rw [enablePinBody_three]; simp [goTo, logEvent, delayFor, duringEnablePin, enablePinEvents]
  | 4, _ => rw [enablePinBody_four hst']; simp [goTo, logEvent, duringEnablePin, enablePinEvents]
  | 5, _ => rw [enablePinBody_five hst']; simp [goTo, logEvent, duringEnablePin, enablePinEvents]

/-- A running `enable_pin` comes to each of its labels, with the block as it is there. -/
theorem runs_duringEnablePin {p : Pin} {lat : Latches} {s : State} (hp : Patient s) (hst : Standing s.cfg) {k : Nat}
    (hk : k ≤ 5) (n : Nat) :
    runs (k + n) (goTo (.enablePin p) 0 lat s) = runs n (goTo (.enablePin p) k lat (duringEnablePin p k s)) := by
  induction k generalizing n with
  | zero => rw [Nat.zero_add, duringEnablePin_zero]
  | succ k ih =>
    calc runs (k + 1 + n) (goTo (.enablePin p) 0 lat s)
      _ = runs (n + 1) (goTo (.enablePin p) k lat (duringEnablePin p k s)) := by
        rw [Nat.add_assoc, Nat.add_comm 1 n, ih (by omega)]
      _ = _ := runs_of_body (enablePin_runsThrough p) ‹_› rfl (by omega) (enablePinBody_during hst (by omega))
      _ = runs n (goTo (.enablePin p) (k + 1) lat (duringEnablePin p (k + 1) s)) := rfl

/-- The six micro-steps of `enable_pin` on any block (R162). -/
theorem runs_enablePin {p : Pin} {lat : Latches} {s : State} (hp : Patient s) (hst : Standing s.cfg) :
    runs 6 (goTo (.enablePin p) 0 lat s) = .next (finish .ok .none (afterEnablePin p s)) := by
  calc runs (5 + 1) (goTo (.enablePin p) 0 lat s)
    _ = runs 1 (goTo (.enablePin p) 5 lat (duringEnablePin p 5 s)) := runs_duringEnablePin hp hst le_rfl 1
    _ = _ := runs_of_last_body (enablePin_runsThrough p) ‹_› rfl (enablePinBody_during hst (by decide))
    _ = .next (finish .ok .none (afterEnablePin p s)) := by rw [duringEnablePin_six]; rfl

/-! The whole runs on a ready block -/

section
variable {s : State} (hready : Ready s) (hp : Patient s)
include hready hp

theorem runs_beginOp_setFunction (p : Pin) (f : Function) :
    runs 3 (beginOp (.setFunction p f) s) =
      .next { afterSetFunction p f s with outcome := some .ok, result := .none } := by
  rw [← finish_of_idle (s := afterSetFunction p f s) .ok .none hready.1]
  exact runs_setFunction (s := { s with outcome := none, result := .none }) hp hready.2

theorem runs_beginOp_enablePin (p : Pin) :
    runs 6 (beginOp (.enablePin p) s) = .next { afterEnablePin p s with outcome := some .ok, result := .none } := by
  rw [← finish_of_idle (s := afterEnablePin p s) .ok .none hready.1]
  exact runs_enablePin (s := { s with outcome := none, result := .none }) hp hready.2

end

/-! The function code in a pin's field (R101, R102) -/

theorem getElem?_functionIndex (f : Function) : allFunctions[(functionIndex f).val]? = some f := by cases f <;> rfl

theorem functionIndex_injective {f g : Function} (h : functionIndex f = functionIndex g) : f = g :=
  Option.some.inj (by rw [← getElem?_functionIndex f, ← getElem?_functionIndex g, h])

/-- Where `FSEL_CODE` is injective, decoding a function's code gives the function (R102). -/
theorem fselDecode_fselCode {c : Config} (hinj : FselInjective c) (f : Function) : fselDecode c (fselCode c f) = some f := by
  cases h : fselDecode c (fselCode c f) with
  | none => exact absurd (List.find?_eq_none.1 h f (List.mem_of_getElem? (getElem?_functionIndex f))) (by simp)
  | some g =>
    have hcode : fselCode c g = fselCode c f := by simpa using List.find?_some h
    rw [functionIndex_injective (hinj _ _ hcode)]

/-- A code fills its word's low three bits. -/
theorem fselWord_and_mask (c : Config) (f : Function) : fselWord c f &&& mask 3 = fselWord c f := by
  ext k hk
  by_cases hin : k < 3
  · simp [hin]
  · have hhigh : (fselCode c f).getLsbD k = false := BitVec.getLsbD_of_ge _ _ (by omega)
    simp [hin, fselWord, hhigh]

theorem setWidth_fselWord (c : Config) (f : Function) : (fselWord c f).setWidth 3 = fselCode c f :=
  BitVec.setWidth_setWidth_of_le _ (by decide)

/-- The words after `set_function`: the pin's own is the merged one, the others are as before (R160). -/
theorem getElem_setFunctionWords_same (c : Config) (gp : Vector Word 6) (p : Pin) (f : Function) :
    (setFunctionWords c gp p f)[fselIndex p] = setFunctionWord c gp p f := by
  simp [setFunctionWords]

theorem getElem_setFunctionWords_other (c : Config) (gp : Vector Word 6) {p : Pin} (f : Function) {n : Fin 6}
    (h : n ≠ fselIndex p) : (setFunctionWords c gp p f)[n] = gp[n] :=
  Vector.getElem_set_ne _ _ fun e => h (Fin.ext e.symm)

section
variable (c : Config) (gp : Vector Word 6) (p : Pin) (f : Function)

/-- The pin's field of the merged word is the function's code (R165). -/
theorem extractBits_setFunctionWord_same : extractBits (setFunctionWord c gp p f) (fselOffset p) 3 = fselWord c f := by
  have hfield : fselOffset p + 3 ≤ 32 := by unfold fselOffset; omega
  rw [setFunctionWord, extractBits_mergeBits_same _ _ hfield, fselWord_and_mask]

/-- A field apart from the pin's is as before (R165). -/
theorem extractBits_setFunctionWord_apart {o n : Nat} (hfield : o + n ≤ 32)
    (happart : fselOffset p + 3 ≤ o ∨ o + n ≤ fselOffset p) :
    extractBits (setFunctionWord c gp p f) o n = extractBits gp[fselIndex p] o n :=
  extractBits_mergeBits_disjoint _ _ hfield happart

end

end Sys2Proof.Machine
end

section
/-! PROOFS. The statements of 42_gpio_mux.md. -/

namespace Sys2Proof.Machine

open Sys2Proof.Safety

/-- Settles O13: the run of the three micro-steps. -/
theorem setFunctionRuns : Obligations.SetFunctionRuns :=
  ⟨fun _ _ _ => rfl, fun _ p f hready hp =>
    ⟨_, exec_setFunction_of_ready hready p f, runs_beginOp_setFunction hready hp p f⟩⟩

/-- Settles O14: the run of O13 writes one merged word, and the laws of the codec say what its fields hold; the fields of
the ten pins and bits [31:30] lie apart. -/
theorem setFunctionNoBleedOver : Obligations.SetFunctionNoBleedOver := by
  intro s p f w hready hp hw
  obtain rfl : w = fselIndex p := Fin.ext hw
  obtain ⟨_, _, _, _, hinj, _⟩ := hready.2
  refine ⟨_, _, exec_setFunction_of_ready hready p f, runs_beginOp_setFunction hready hp p f, ?_⟩
  simp only [afterSetFunction, getElem_setFunctionWords_same]
  have hown := extractBits_setFunctionWord_same s.cfg s.gpfsel p f
  refine ⟨hown, ?_, fun k hk hne => ?_, ?_, fun n hn => getElem_setFunctionWords_other _ _ f hn, rfl⟩
  · rw [← fselOffset, hown, setWidth_fselWord, fselDecode_fselCode hinj]
  · exact extractBits_setFunctionWord_apart _ _ _ _ (by omega) (by unfold fselOffset; omega)
  · exact extractBits_setFunctionWord_apart _ _ _ _ (by omega) (by unfold fselOffset; omega)

/-- Settles O16: the run of the six micro-steps. -/
theorem enablePinRuns : Obligations.EnablePinRuns := by
  refine ⟨fun _ _ => rfl, fun s p w hready hp hw => ?_⟩
  obtain rfl : w = clkIndex p := Fin.ext hw
  exact ⟨_, exec_enablePin_of_ready hready p, runs_beginOp_enablePin hready hp p⟩

/-- Settles O15: the check of the pin stands before anything else that a ready block does. -/
theorem pinOutOfRangeRefused : Obligations.PinOutOfRangeRefused := fun _ _ _ hready hout =>
  ⟨(whenReady_of_ready hready _).trans (withPin_of_out _ hout), (whenReady_of_ready hready _).trans (withPin_of_out _ hout)⟩

end Sys2Proof.Machine
end

section
/-! PROOFS. The baud-rate calculator: its `scaled` as one division and as a rounded quotient, the bound on its integer
part, and what the operations that use it answer on a ready block. -/

namespace Sys2Proof.Machine

open Sys2Proof.Safety

/-! The formula (R180, R182) -/

/-- The two divisions of R180 are one: the half is added before the quotient is taken. -/
theorem baudScaled_eq_div (f b : Nat) : baudScaled f b = (8 * f + b) / (2 * b) := by
  have hhalf : f * 4 + b / 2 = (8 * f + b) / 2 := by omega
  rw [baudScaled, hhalf, Nat.div_div_eq_div_mul]

/-- `scaled` is the quotient plus a half, rounded down. -/
theorem baudScaled_eq_floor (f : Nat) {b : Nat} (hb : 0 < b) :
    (baudScaled f b : Int) = ⌊(4 * f : ℚ) / b + 1 / 2⌋ := by
  have hb' : (b : ℚ) ≠ 0 := by positivity
  have hquot : (4 * f : ℚ) / b + 1 / 2 = ((8 * f + b : Nat) : ℚ) / (2 * b : Nat) := by
    push_cast
    field_simp
    ring
  rw [hquot, Rat.floor_natCast_div_natCast, baudScaled_eq_div, Int.natCast_div]

/-- So it is off the quotient by a half at most. -/
theorem abs_baudScaled_sub_le (f : Nat) {b : Nat} (hb : 0 < b) : |(baudScaled f b : ℚ) - 4 * f / b| ≤ 1 / 2 := by
  obtain ⟨hle, hlt⟩ := Int.floor_eq_iff.1 (baudScaled_eq_floor f hb).symm
  rw [Int.cast_natCast] at hle hlt
  exact abs_le.2 ⟨by linarith, by linarith⟩

theorem baudInteger_le (f b : Nat) : baudInteger f b ≤ f * 4 + b / 2 :=
  (Nat.div_le_self _ 64).trans (Nat.div_le_self _ b)

/-- For a rate other than 0 the check of `init` is the bound of a Word (R184). -/
theorem divisorFits_iff {b : Word} (hb : b ≠ 0) (c : Config) :
    divisorFits c b = true ↔ baudInteger c.uartClock.val b.toNat < 2 ^ 32 := by
  rw [divisorFits, decide_eq_false hb, Bool.false_or, decide_eq_true_iff]

/-! The operations on a ready block -/

section
variable {s : State} (hready : Ready s) (b : Word)
include hready

theorem exec_baudDivisor_of_ready (f : Clock) :
    exec (.baudDivisor f b) s =
      if b = 0 then .next { s with outcome := some .divisorSkipped, result := .none }
      else .next { s with outcome := some .ok,
                          result := .divisors (baudInteger f.val b.toNat) (baudFraction f.val b.toNat) } := by
  rw [← finish_of_idle _ _ hready.1, ← finish_of_idle _ _ hready.1]
  exact whenReady_of_ready hready _

theorem exec_init_of_ready (u : UartIx) :
    exec (.init s.cfg.registry[u] b) s =
      if divisorFits s.cfg b then .next (beginOp (.init s.cfg.registry[u] b) s) else .refused .calculatorOverflow :=
  whenReady_withUart_registry hready u _

end

end Sys2Proof.Machine
end

section
/-! PROOFS. The statements of 43_baud_calc.md. -/

namespace Sys2Proof.Machine

open Sys2Proof.Safety

/-- Settles O19: the pair is quotient and remainder by 64, which are unique. -/
theorem baudPairIsUnique : Obligations.BaudPairIsUnique := by
  refine fun f b _ => ⟨Nat.le_of_lt_succ (Nat.mod_lt _ (by decide)), Nat.div_add_mod' _ 64, fun i r hr hpair => ?_⟩
  have hscaled : r + 64 * i = baudScaled f b := (by ring : r + 64 * i = i * 64 + r).trans hpair
  obtain ⟨hquot, hrem⟩ := (Nat.div_mod_unique (by decide)).2 ⟨hscaled, Nat.lt_succ_of_le hr⟩
  exact ⟨hquot.symm, hrem.symm⟩

/-- Settles O20: `scaled` is a floor, and 1/128 is a 64th of its distance from the quotient. -/
theorem baudRoundsHalfUp : Obligations.BaudRoundsHalfUp := by
  refine fun f b hb => ⟨baudScaled_eq_floor f hb, ?_⟩
  calc |(baudScaled f b : ℚ) / 64 - f / (16 * b)|
    _ = |((baudScaled f b : ℚ) - 4 * f / b) / 64| := by ring_nf
    _ = |(baudScaled f b : ℚ) - 4 * f / b| / 64 := by rw [abs_div, abs_of_pos (by norm_num : (0 : ℚ) < 64)]
    _ ≤ 1 / 2 / 64 := by gcongr; exact abs_baudScaled_sub_le f hb
    _ = 1 / 128 := by norm_num

/-- Settles O24: the check of the divisor is all that `init` on a ready block can still fail, and the divisor is no more
than the number of the premise. -/
theorem initOverflowRefused : Obligations.InitOverflowRefused := by
  refine fun s u b hready hb => ⟨fun hover => ?_, fun hpremise => ?_⟩
  · rw [exec_init_of_ready hready, if_neg (mt (divisorFits_iff hb s.cfg).1 (Nat.not_lt.2 hover))]
  · exact (divisorFits_iff hb s.cfg).2 ((baudInteger_le _ _).trans_lt hpremise)

/-- Settles O18: on a ready block the call ends at once, with the pair or without one. -/
theorem baudDivisorValue : Obligations.BaudDivisorValue := by
  refine ⟨fun _ _ _ => rfl, fun s f b hready => ⟨fun hb => ?_, fun hb => ?_⟩⟩
  · rw [exec_baudDivisor_of_ready hready, if_neg hb]
    rfl
  · rw [exec_baudDivisor_of_ready hready, if_pos hb]

end Sys2Proof.Machine
end

section
/-! PROOFS. The frame of `init` while it runs: a micro-step writes the words of its two pins and the registers of its own
UART, and moves that UART's driver state alone (R190, R193, R39). -/

namespace Sys2Proof.Machine

open Sys2Proof.Safety

/-- The registers that `init` of a descriptor on UART `u` writes (R190). -/
def initRegs (d : Descriptor) (u : UartIx) : List Reg :=
  [.gpfsel (fselIndex d.tx), .gpfsel (fselIndex d.rx), .gppud, .gppudclk (clkIndex d.tx), .gppudclk (clkIndex d.rx),
   .ibrd u, .fbrd u, .lcrh u, .cr u]

/-- What a micro-step of `init` on UART `u` leaves alone (R193, R39). -/
def InitKeeps (d : Descriptor) (u : UartIx) (s t : State) : Prop :=
  t.cfg = s.cfg ∧ t.host = s.host ∧ AnswersNothing s t ∧ t.uart[u].txLog = s.uart[u].txLog ∧
  (∀ u', u' ≠ u → t.uart[u'] = s.uart[u']) ∧
  (∀ n : Fin 6, n.val ≠ d.tx.val / 10 → n.val ≠ d.rx.val / 10 → t.gpfsel[n] = s.gpfsel[n]) ∧
  (∀ w : Fin 2, w.val ≠ d.tx.val / 32 → w.val ≠ d.rx.val / 32 → t.gppudclk[w] = s.gppudclk[w])

/-- A UART none of whose registers is listed is kept whole. -/
theorem uart_eq_of_keeps {l : List Reg} {s t : State} {u : UartIx} (h : Keeps l s t) (hu : ∀ r ∈ uartRegs u, r ∉ l) :
    t.uart[u] = s.uart[u] := by
  obtain ⟨_, _, hreg, hdrv, hlog⟩ := h
  have hibrd := hreg (.ibrd u) (hu _ (by simp [uartRegs]))
  have hfbrd := hreg (.fbrd u) (hu _ (by simp [uartRegs]))
  have hlcrh := hreg (.lcrh u) (hu _ (by simp [uartRegs]))
  have hcr := hreg (.cr u) (hu _ (by simp [uartRegs]))
  simp only [stored, Option.some.injEq] at hibrd hfbrd hlcrh hcr
  have heta (x : Uart) : x = ⟨x.ibrd, x.fbrd, x.lcrh, x.cr, x.drv, x.txLog⟩ := rfl
  rw [heta t.uart[u], hibrd, hfbrd, hlcrh, hcr, hdrv, hlog u (hu _ (by simp [uartRegs]))]

section
variable {d : Descriptor} {u : UartIx} {s t : State}

@[simp] theorem initKeeps_goTo (op : Operation) (k : Nat) (lat : Latches) :
    InitKeeps d u s (goTo op k lat t) ↔ InitKeeps d u s t := Iff.rfl

/-- A step that writes none but the registers of `init` is framed so. -/
theorem initKeeps_of_keeps (h : Keeps (initRegs d u) s t) (hanswers : AnswersNothing s t) : InitKeeps d u s t := by
  have hother : ∀ u', u' ≠ u → t.uart[u'] = s.uart[u'] :=
    fun u' hne => uart_eq_of_keeps h (by simp [uartRegs, initRegs, hne])
  obtain ⟨hcfg, hhost, hreg, _, hlog⟩ := h
  refine ⟨hcfg, hhost, hanswers, hlog u (by simp [initRegs]), hother, fun n htx hrx => ?_, fun w htx hrx => ?_⟩
  · exact Option.some.inj (hreg (.gpfsel n) (by simp [initRegs, fselIndex, Fin.ext_iff, htx, hrx]))
  · exact Option.some.inj (hreg (.gppudclk w) (by simp [initRegs, clkIndex, Fin.ext_iff, htx, hrx]))

/-- Setting the driver state of the own UART is inside the frame. -/
theorem initKeeps_setDriver (v : Driver) (h : InitKeeps d u s t) : InitKeeps d u s (setDriver u v t) := by
  obtain ⟨hcfg, hhost, hanswers, hlog, hother, hgpio⟩ := h
  refine ⟨hcfg, hhost, hanswers, by rw [setDriver_txLog, hlog], fun u' hne => ?_, hgpio⟩
  rw [setDriver_uart, ← hother u' hne]
  exact Vector.getElem_set_ne _ _ fun e => hne (Fin.ext e.symm)

/-- A pin step of `init` is a micro-step of `set_function` or of `enable_pin` on one of the two pins. -/
theorem initPinBody_keeps {k : Nat} {lat : Latches} {x : State × Latches} (hst : Standing s.cfg)
    (hat : InitPinAt s d k lat) (h : initPinBody d k lat s = .next x) : InitKeeps d u s x.1 := by
  have function {p : Pin} {j : Nat} (hp : Reg.gpfsel (fselIndex p) ∈ initRegs d u) (hat : SetFunctionAt s p j lat)
      (h : setFunctionBody p d.fn j lat s = .next x) : InitKeeps d u s x.1 := by
    obtain ⟨hkeeps, hanswers⟩ := setFunctionBody_keeps hst hat h
    exact initKeeps_of_keeps (keeps_mono (by simpa using hp) hkeeps) hanswers
  have enable {p : Pin} {j : Nat} (hp : Reg.gppudclk (clkIndex p) ∈ initRegs d u)
      (h : enablePinBody p j lat s = .next x) : InitKeeps d u s x.1 := by
    obtain ⟨hkeeps, hanswers⟩ := enablePinBody_keeps hst h
    exact initKeeps_of_keeps (keeps_mono (by simpa [initRegs] using hp) hkeeps) hanswers
  unfold InitPinAt at hat
  unfold initPinBody at h
  cases horder : s.cfg.initPinOrder with
  | perPin =>
    simp only [horder] at hat h
    split_ifs at hat h
    · exact function (by simp [initRegs]) hat h
    · exact enable (by simp [initRegs]) h
    · exact function (by simp [initRegs]) hat h
    · exact enable (by simp [initRegs]) h
  | functionsFirst =>
    simp only [horder] at hat h
    split_ifs at hat h
    · exact function (by simp [initRegs]) hat h
    · exact function (by simp [initRegs]) hat h
    · exact enable (by simp [initRegs]) h
    · exact enable (by simp [initRegs]) h

/-- The write of one of the UART's registers that `init` writes. -/
theorem initKeeps_of_memWrite {r : Reg} {a : Nat} {v : Word} (hst : Standing s.cfg) (ha : a = regAddr s.cfg r)
    (hr : r ∈ initRegs d u) (h : memWrite a 4 v s = .next t) : InitKeeps d u s t := by
  subst ha
  obtain ⟨hkeeps, hanswers⟩ := memWrite_keeps hst h
  exact initKeeps_of_keeps (keeps_mono (by simpa using hr) hkeeps) hanswers

/-- A UART step of `init` writes at most one of its registers and sets at most its driver state. -/
theorem initUartStep_initKeeps {b : Word} {k : Nat} {lat : Latches} (hst : Standing s.cfg)
    (hu : uartIndex s.cfg d = some u) (h : initUartStep u d b k lat s = .next t) : InitKeeps d u s t := by
  have write {r : Reg} {off : Nat} {v : Word} {w : State} (hoff : regAddr s.cfg r = uartBase s.cfg u + off)
      (hr : r ∈ initRegs d u) (h : memWrite (d.base + off) 4 v s = .next w) : InitKeeps d u s w :=
    initKeeps_of_memWrite hst (by rw [hoff, base_of_uartIndex hu]) hr h
  have hrefl : InitKeeps d u s s := initKeeps_of_keeps (keeps_refl _ s) ⟨rfl, rfl⟩
  unfold initUartStep at h
  split at h
  · obtain ⟨w, hw, e⟩ := andThen_eq_next.1 h
    cases e
    exact (initKeeps_goTo ..).2 (write (r := .cr u) rfl (by simp [initRegs]) hw)
  · split at h
    · cases h
      exact initKeeps_setDriver .configured hrefl
    · cases h
      exact hrefl
  · obtain ⟨_, _, h⟩ := withLatch_eq_next.1 h
    obtain ⟨w, hw, e⟩ := andThen_eq_next.1 h
    cases e
    exact (initKeeps_goTo ..).2 (write (r := .ibrd u) rfl (by simp [initRegs]) hw)
  · obtain ⟨_, _, h⟩ := withLatch_eq_next.1 h
    obtain ⟨w, hw, e⟩ := andThen_eq_next.1 h
    cases e
    exact initKeeps_setDriver .configured (write (r := .fbrd u) rfl (by simp [initRegs]) hw)
  · obtain ⟨w, hw, e⟩ := andThen_eq_next.1 h
    cases e
    exact (initKeeps_goTo ..).2 (write (r := .lcrh u) rfl (by simp [initRegs]) hw)
  · obtain ⟨_, _, h⟩ := withLatch_eq_next.1 h
    obtain ⟨w, hw, e⟩ := andThen_eq_next.1 h
    cases e
    exact initKeeps_setDriver .enabled (write (r := .cr u) rfl (by simp [initRegs]) hw)
  · cases h

theorem initStep_initKeeps {b : Word} {k : Nat} {lat : Latches} (hst : Standing s.cfg)
    (hat : OperationAt s (.init d b) k lat) (hu : uartIndex s.cfg d = some u) (h : initStep d b k lat s = .next t) :
    InitKeeps d u s t := by
  obtain ⟨_, hpin, _⟩ := hat
  unfold initStep at h
  split at h
  · obtain ⟨x, hx, e⟩ := andThen_eq_next.1 h
    cases e
    exact initPinBody_keeps hst hpin hx
  · rw [withUart_of_index hu] at h
    exact initUartStep_initKeeps hst hu h

end

end Sys2Proof.Machine
end

section
/-! PROOFS. Every access of a data register directly follows its poll: a step appends at most one event, and the event
of a data register comes only where the sequencer has just polled (R200, R269). -/

namespace Sys2Proof.Machine

open Sys2Proof.Safety

/-! The rule on a trace that grows at its end -/

theorem polledFrom_concat (c : Config) (prev : Option Event) (es : List Event) (e : Event) :
    PolledFrom c prev (es ++ [e]) ↔ PolledFrom c prev es ∧ PolledEvent c (es.getLast?.or prev) e := by
  induction es generalizing prev with
  | nil => simp [PolledFrom]
  | cons x es ih =>
    have hlast : (x :: es).getLast?.or prev = es.getLast?.or (some x) := by
      cases es <;> simp [List.getLast?_cons]
    rw [List.cons_append, PolledFrom, PolledFrom, ih, hlast, and_assoc]

/-- A step appends nothing to the trace, or one event that the rule lets follow the last one. -/
def PolledStep (s t : State) : Prop :=
  t.cfg = s.cfg ∧ (t.trace = s.trace ∨ ∃ e, t.trace = s.trace ++ [e] ∧ PolledEvent s.cfg s.trace.getLast? e)

theorem PolledStep.polledTrace {s t : State} (h : PolledStep s t) (hs : PolledTrace s) : PolledTrace t := by
  obtain ⟨hcfg, htrace | ⟨e, htrace, he⟩⟩ := h
  · rw [PolledTrace, hcfg, htrace]
    exact hs
  · rw [PolledTrace, hcfg, htrace, polledFrom_concat, Option.or_none]
    exact ⟨hs, he⟩

theorem polledStep_of_trace {s t : State} (hcfg : t.cfg = s.cfg) (htrace : t.trace = s.trace) : PolledStep s t :=
  ⟨hcfg, .inl htrace⟩

@[simp] theorem polledStep_goTo (s t : State) (op : Operation) (k : Nat) (lat : Latches) :
    PolledStep s (goTo op k lat t) ↔ PolledStep s t := Iff.rfl

@[simp] theorem polledStep_finish (s t : State) (c : OutcomeCode) (r : Result) :
    PolledStep s (finish c r t) ↔ PolledStep s t := Iff.rfl

/-! The rule on one event: at a register's address it asks for a poll when that register is a data register -/

section
variable {c : Config} (hd : descriptorsDisjoint c = true) (prev : Option Event) (r : Reg) (v : Word)
include hd

/-- An address of R61 is a data register's when its register is that one. -/
theorem regAddr_eq_data_iff (u : UartIx) : regAddr c r = uartBase c u + drOff ↔ r = .dr u :=
  ⟨fun e => regAddr_injective hd (r' := .dr u) e, fun e => e ▸ rfl⟩

theorem polledEvent_rd_iff :
    PolledEvent c prev (.rd (regAddr c r) v) ↔
      ∀ u, r = .dr u → ∃ w, prev = some (.rd (uartBase c u + frOff) w) ∧ rxfe c w = false := by
  simp [PolledEvent, regAddr_eq_data_iff hd, rxfe]

theorem polledEvent_wr_iff :
    PolledEvent c prev (.wr (regAddr c r) v) ↔
      ∀ u, r = .dr u → ∃ w, prev = some (.rd (uartBase c u + frOff) w) ∧ txff c w = false := by
  simp [PolledEvent, regAddr_eq_data_iff hd, txff]

end

/-! A quiet act: one that takes no answer and fills no log reaches no data register -/

/-- A read of a data register takes an answer or draws a free word (R72). -/
theorem not_answersNothing_readReg_dr (s : State) (u : UartIx) : ¬ AnswersNothing s (readReg s (.dr u)).2 := by
  rintro ⟨hanswers, hdraws⟩
  cases h : s.answers[u].dr with
  | nil =>
    rw [readReg, answerDr_nil h, draw_snd_draws] at hdraws
    omega
  | cons v rest =>
    rw [readReg, answerDr_cons h] at hanswers
    have hu := congrArg (fun a : Vector Answers 2 => a[u].dr) hanswers
    simp only [Fin.getElem_fin, Vector.getElem_set_self] at hu
    exact List.ne_cons_self (hu.trans h)

theorem polledStep_of_quiet {s w : State} (hd : descriptorsDisjoint s.cfg = true) (hact : Act s w)
    (hanswers : AnswersNothing s w) (hlog : ∀ u : UartIx, w.uart[u].txLog = s.uart[u].txLog) : PolledStep s w := by
  refine ⟨(act_frame hact).1, ?_⟩
  cases hact with
  | nothing => exact .inl rfl
  | draw => exact .inl rfl
  | delay n => exact .inr ⟨.dl n, rfl, fun u => ⟨nofun, nofun⟩⟩
  | read a r hr =>
    refine .inr ⟨.rd a (readReg s r).1, by simp, ?_⟩
    rw [← regAddr_of_regAt hr, polledEvent_rd_iff hd]
    rintro u rfl
    exact absurd hanswers (not_answersNothing_readReg_dr s u)
  | write a v r w hr hw =>
    refine .inr ⟨.wr a v, by rw [logEvent_trace, writeReg_trace hw], ?_⟩
    rw [← regAddr_of_regAt hr, polledEvent_wr_iff hd]
    rintro u rfl
    have hu := hlog u
    rw [logEvent_uart, writeReg_txLog hw, if_pos rfl] at hu
    simp at hu

/-- The GPIO operations and `init` run by quiet steps. -/
theorem microStep_polledStep_of_quiet {op : Operation} {k : Nat} {lat : Latches} {s t : State} (hst : Standing s.cfg)
    (h : microStep op k lat s = .next t) (hanswers : AnswersNothing s t)
    (hlog : ∀ u : UartIx, t.uart[u].txLog = s.uart[u].txLog) : PolledStep s t := by
  obtain ⟨w, x, hact, hx, hblock⟩ := microStep_effect h
  rw [hblock] at hanswers
  rw [sameBlock_uart hblock] at hlog
  have hquiet (hanswers : AnswersNothing s w) (hlog : ∀ u : UartIx, w.uart[u].txLog = s.uart[u].txLog) :
      PolledStep s w := polledStep_of_quiet hst.1 hact hanswers hlog
  rw [PolledStep, sameBlock_cfg hblock, sameBlock_trace hblock]
  rcases hx with rfl | ⟨_, _, u, v, _, _, rfl⟩
  · exact hquiet hanswers hlog
  · exact hquiet hanswers fun u' => by rw [← hlog u', setDriver_txLog]

/-! The data operations -/

section
variable {d : Descriptor} {u : UartIx} {s t : State} (hst : Standing s.cfg) (hu : uartIndex s.cfg d = some u)
include hst hu

/-- A poll reads the flag register, which asks for nothing before it. -/
theorem pollStep_polledStep {flag : Config → Word → Bool} {op : Operation} {here onward : Nat} {lat : Latches}
    (h : pollStep flag d op here onward lat s = .next t) : PolledStep s t := by
  obtain ⟨⟨v, w⟩, hw, e⟩ := andThen_eq_next.1 h
  cases e
  refine ⟨(memRead_keeps hw).1, .inr ⟨_, memRead_trace hw, ?_⟩⟩
  rw [base_of_uartIndex hu]
  exact (polledEvent_rd_iff hst.1 _ (.fr u) v).2 (by simp)

/-- After a poll with `TXFF = 0` the data register may be written. -/
theorem memWrite_data_polledStep {v : Word} (hpolled : Polled txff s u) (h : memWrite (d.base + drOff) 4 v s = .next t) :
    PolledStep s t := by
  rw [base_of_uartIndex hu] at h
  obtain ⟨w, hw, rfl⟩ := memWrite_regAddr_eq_next (r := .dr u) hst h
  obtain ⟨⟨hcfg, _⟩, _⟩ := writeReg_keeps hw
  refine ⟨hcfg, .inr ⟨.wr (regAddr s.cfg (.dr u)) v, by rw [logEvent_trace, writeReg_trace hw], ?_⟩⟩
  rw [polledEvent_wr_iff hst.1]
  rintro _ ⟨⟩
  exact hpolled

/-- After a poll with `RXFE = 0` it may be read. -/
theorem memRead_data_polledStep {p : Word × State} (hpolled : Polled rxfe s u)
    (h : memRead (d.base + drOff) 4 s = .next p) : PolledStep s p.2 := by
  refine ⟨(memRead_keeps h).1, .inr ⟨_, memRead_trace h, ?_⟩⟩
  rw [base_of_uartIndex hu]
  refine (polledEvent_rd_iff hst.1 _ (.dr u) _).2 ?_
  rintro _ ⟨⟩
  exact hpolled

end

section
variable {d : Descriptor} {k : Nat} {lat : Latches} {s t : State} (hst : Standing s.cfg)
include hst

theorem sendStep_polledStep {b : Byte} (hat : OperationAt s (.send d b) k lat) (h : sendStep d b k lat s = .next t) :
    PolledStep s t := by
  obtain ⟨_, u, hu, _, hpolled⟩ := hat
  unfold sendStep at h
  split at h
  · exact pollStep_polledStep hst hu h
  · obtain ⟨w, hw, e⟩ := andThen_eq_next.1 h
    cases e
    exact (polledStep_finish ..).2 (memWrite_data_polledStep hst hu (hpolled rfl) hw)
  · cases h

theorem recvStep_polledStep (hat : OperationAt s (.recv d) k lat) (h : recvStep d k lat s = .next t) :
    PolledStep s t := by
  obtain ⟨_, u, hu, _, hpolled⟩ := hat
  unfold recvStep at h
  split at h
  · exact pollStep_polledStep hst hu h
  · obtain ⟨p, hp, e⟩ := andThen_eq_next.1 h
    cases e
    exact memRead_data_polledStep hst hu (hpolled rfl) hp
  · cases h

theorem sendStringStep_polledStep {bs : List Byte} (hat : OperationAt s (.sendString d bs) k lat)
    (h : sendStringStep d bs k lat s = .next t) : PolledStep s t := by
  obtain ⟨hk, u, hu, _, hpolled, _⟩ := hat
  have hrefl : PolledStep s s := polledStep_of_trace rfl rfl
  match k with
  | 0 =>
    cases h
    exact hrefl
  | 1 =>
    obtain ⟨i, _, h⟩ := withLatch_eq_next.1 h
    split at h
    · cases h
      exact hrefl
    · obtain ⟨b, _, e⟩ := withByte_eq_next.1 h
      cases e
      exact hrefl
  | 2 => exact pollStep_polledStep hst hu h
  | 3 =>
    obtain ⟨w, hw, e⟩ := andThen_eq_next.1 h
    cases e
    exact (polledStep_goTo ..).2 (memWrite_data_polledStep hst hu (hpolled (.inl rfl)) hw)
  | 4 => exact pollStep_polledStep hst hu h
  | 5 =>
    obtain ⟨i, _, h⟩ := withLatch_eq_next.1 h
    obtain ⟨b, _, h⟩ := withByte_eq_next.1 h
    obtain ⟨w, hw, e⟩ := andThen_eq_next.1 h
    cases e
    exact (polledStep_goTo ..).2 (memWrite_data_polledStep hst hu (hpolled (.inr rfl)) hw)

/-- A micro-step in order follows the rule, by the operation that runs. -/
theorem microStep_polledStep {op : Operation} (hat : OperationAt s op k lat) (h : microStep op k lat s = .next t) :
    PolledStep s t := by
  have hquiet := microStep_polledStep_of_quiet hst h
  cases op with
  | setFunction p f =>
    obtain ⟨_, ⟨_, _, _, _, hlog⟩, hanswers⟩ := setFunctionStep_keeps hst hat h
    exact hquiet hanswers fun u => hlog u (by simp)
  | enablePin p =>
    obtain ⟨_, ⟨_, _, _, _, hlog⟩, hanswers⟩ := enablePinStep_keeps hst hat h
    exact hquiet hanswers fun u => hlog u (by simp)
  | init d b =>
    obtain ⟨_, _, _, ⟨u, hu, _⟩, _⟩ := id hat
    obtain ⟨_, _, hanswers, hown, hother, _⟩ := initStep_initKeeps hst hat hu h
    refine hquiet hanswers fun u' => ?_
    by_cases hne : u' = u
    · rw [hne, hown]
    · rw [hother u' hne]
  | send d b => exact sendStep_polledStep hst hat h
  | recv d => exact recvStep_polledStep hst hat h
  | sendString d bs => exact sendStringStep_polledStep hst hat h

end

/-! The host's acts -/

/-- Issuing an operation of format `OP` performs no transaction (R105). -/
theorem exec_operation_trace {i : Instr} {g : GpioLayout} {sel : BitVec 4} {s t : State}
    (hi : (encode g i).code = .op sel) (h : exec i s = .next t) : t.cfg = s.cfg ∧ t.trace = s.trace := by
  have hpure (hi : (∃ w o n, i = .extractField w o n) ∨ (∃ w o n v, i = .mergeField w o n v) ∨
      (∃ f b, i = .baudDivisor f b) ∨ ∃ k, i = .getByIndex k) : t.cfg = s.cfg ∧ t.trace = s.trace := by
    rw [pureOperationsFrame s t i h hi]
    exact ⟨rfl, rfl⟩
  cases i with
  | extractField w o n => exact hpure (.inl ⟨w, o, n, rfl⟩)
  | mergeField w o n v => exact hpure (.inr (.inl ⟨w, o, n, v, rfl⟩))
  | baudDivisor f b => exact hpure (.inr (.inr (.inl ⟨f, b, rfl⟩)))
  | getByIndex k => exact hpure (.inr (.inr (.inr ⟨k, rfl⟩)))
  | setFunction p f =>
    obtain ⟨q, _, rfl⟩ := execSetFunction_eq_next h
    exact ⟨rfl, rfl⟩
  | enablePin p =>
    obtain ⟨q, _, rfl⟩ := execEnablePin_eq_next h
    exact ⟨rfl, rfl⟩
  | init d b => rw [(execInit_eq_next h).1]; exact ⟨rfl, rfl⟩
  | send d b | recv d | sendString d bs => rw [(issueEnabled_eq_next h).1]; exact ⟨rfl, rfl⟩
  | _ => cases hi

/-- Serving the issue of an operation performs no transaction. -/
theorem serve_operation_polledStep {sel : BitVec 4} {p : Ports} {s t : State}
    (h : serve (.issue ⟨.op sel, p⟩) s = .next t) : PolledStep s t := by
  replace h : issue ⟨.op sel, p⟩ s = .next t := h
  unfold issue at h
  split at h
  · next i hdecode =>
    obtain ⟨hcfg, htrace⟩ := exec_operation_trace (encode_of_decode hdecode) h
    exact polledStep_of_trace hcfg htrace
  · cases h
  · cases h

/-- A step takes acts of the host, and adds none. -/
theorem step_host_subset {s t : State} (h : step s = .next t) : t.host ⊆ s.host := by
  rcases step_cases h with ⟨op, k, lat, _, _, hstep⟩ | ⟨a, rest, _, hhost, hserve⟩ | ⟨_, _, rfl⟩
  · obtain ⟨w, x, hact, hx, hblock⟩ := microStep_effect hstep
    obtain ⟨_, _, _, _, hw, _⟩ := act_frame hact
    have ht : t.host = s.host := by
      rw [hblock, ← hw]
      rcases hx with rfl | ⟨_, _, _, _, _, _, rfl⟩ <;> rfl
    rw [ht]
    exact List.Subset.refl _
  · obtain ⟨w, hact, hblock⟩ := serve_effect hserve
    obtain ⟨_, _, _, _, hw, _⟩ := act_frame hact
    have ht : t.host = rest := by rw [hblock]; exact hw
    rw [ht, hhost]
    exact List.subset_cons_self _ _
  · exact List.Subset.refl _

/-- A step of a block in order whose host issues operations only follows the rule. -/
theorem step_polledStep {s t : State} (hinv : Inv s) (hops : OperationsOnly s) (h : step s = .next t) : PolledStep s t := by
  rcases step_cases h with ⟨op, k, lat, hs, _, _⟩ | ⟨a, rest, _, hhost, hserve⟩ | ⟨_, _, rfl⟩
  · obtain ⟨hst, hat, hstep⟩ := step_running hinv h hs
    exact microStep_polledStep hst hat hstep
  · obtain ⟨sel, p, hreq⟩ := hops a (by simp [hhost])
    rw [hreq] at hserve
    exact serve_operation_polledStep (s := { s with host := rest }) hserve
  · exact polledStep_of_trace rfl rfl

end Sys2Proof.Machine
end

section
/-! PROOFS. The busy-waits of the data operations: what the block is after a number of polls, and how a run goes on at a
label that polls, busy or let pass (R194, R195, R196, R198). -/

namespace Sys2Proof.Machine

open Sys2Proof.Safety

/-! The answers to come, after some have been taken (R72) -/

section
variable (s : State) (u : UartIx)

theorem frAnswer_afterFr (n k : Nat) : frAnswer (afterFr s u n) u k = frAnswer s u (n + k) := by
  simp only [frAnswer, afterFr, Fin.getElem_fin, Vector.getElem_set_self, List.getElem?_drop, List.length_drop]
  split
  · rfl
  · next hnone =>
    have hpast := List.getElem?_eq_none_iff.1 hnone
    exact congrArg freeWord (by omega)

theorem afterFr_afterFr (m n : Nat) : afterFr (afterFr s u m) u n = afterFr s u (m + n) := by
  have hdraws (l : Nat) : s.draws + (m - l) + (n - (l - m)) = s.draws + (m + n - l) := by omega
  simp [afterFr, List.drop_drop, hdraws]

/-- Taking no answer changes nothing. -/
theorem afterFr_zero : afterFr s u 0 = s := by
  have hset : s.answers.set u { s.answers[u] with fr := s.answers[u].fr } = s.answers := Vector.set_getElem_self _
  simp only [afterFr, List.drop_zero, Nat.zero_sub, Nat.add_zero, hset]

end

/-! The block after a number of polls -/

/-- The block after `n` polls of UART `u`'s flag register: the answers taken, the reads on the trace (R194). -/
def afterPolls (u : UartIx) (n : Nat) (s : State) : State :=
  { afterFr s u n with trace := s.trace ++ pollEvents s u n }

theorem afterPolls_zero (u : UartIx) (s : State) : afterPolls u 0 s = s := by
  simp [afterPolls, afterFr_zero, pollEvents]

theorem frAnswer_afterPolls (u : UartIx) (n : Nat) (s : State) : frAnswer (afterPolls u n s) u 0 = frAnswer s u n :=
  frAnswer_afterFr s u n 0

/-- One more poll takes the next answer and puts its read on the trace. -/
theorem afterPolls_succ (u : UartIx) (n : Nat) (s : State) :
    afterPolls u (n + 1) s =
      logEvent (.rd (uartBase s.cfg u + frOff) (frAnswer s u n)) (afterFr (afterPolls u n s) u 1) := by
  have hevents : pollEvents s u (n + 1) = pollEvents s u n ++ [.rd (uartBase s.cfg u + frOff) (frAnswer s u n)] := by
    simp [pollEvents, List.range_succ]
  rw [afterPolls, hevents, ← List.append_assoc, ← afterFr_afterFr]
  rfl

/-! Runs at a label that polls -/

/-- At label `k` the operation polls the flag register of `d`'s UART until the flag is clear, then goes on at `onward`. -/
def PollsAt (flag : Config → Word → Bool) (d : Descriptor) (op : Operation) (k onward : Nat) : Prop :=
  ∀ lat s, microStep op k lat s = pollStep flag d op k onward lat s

theorem send_pollsAt (d : Descriptor) (b : Byte) : PollsAt txff d (.send d b) 0 1 := fun _ _ => rfl
theorem recv_pollsAt (d : Descriptor) : PollsAt rxfe d (.recv d) 0 1 := fun _ _ => rfl
theorem sendString_pollsAt_two (d : Descriptor) (bs : List Byte) : PollsAt txff d (.sendString d bs) 2 3 := fun _ _ => rfl
theorem sendString_pollsAt_four (d : Descriptor) (bs : List Byte) : PollsAt txff d (.sendString d bs) 4 5 := fun _ _ => rfl

/-- A poll of a registry entry's UART is answered by the first flag answer to come, which decides where the run goes. -/
theorem pollStep_registry {flag : Config → Word → Bool} {op : Operation} {here onward : Nat} {lat : Latches} {s : State}
    (hst : Standing s.cfg) (u : UartIx) :
    pollStep flag s.cfg.registry[u] op here onward lat s =
      .next (goTo op (if flag s.cfg (frAnswer s u 0) then here else onward) { lat with word := some (frAnswer s u 0) }
        (logEvent (.rd (uartBase s.cfg u + frOff) (frAnswer s u 0)) (afterFr s u 1))) := by
  rw [pollStep, ← uartBase, memRead_fr hst, answerFr_eq, andThen_next]

section
variable {flag : Config → Word → Bool} {op : Operation} {k onward : Nat} {u : UartIx} {lat : Latches} {s : State}
  (hop : PollsAt flag s.cfg.registry[u] op k onward) (hp : Patient s) (hst : Standing s.cfg)
include hop hp hst

/-- The poll after `n` polls. -/
theorem runs_poll (n : Nat) :
    runs 1 (goTo op k lat (afterPolls u n s)) =
      .next (goTo op (if flag s.cfg (frAnswer s u n) then k else onward) { lat with word := some (frAnswer s u n) }
        (afterPolls u (n + 1) s)) := by
  have hanswer : frAnswer (goTo op k lat (afterPolls u n s)) u 0 = frAnswer s u n := frAnswer_afterPolls u n s
  refine runs_of_running 0 hp rfl ((hop ..).trans
    ((pollStep_registry (s := goTo op k lat (afterPolls u n s)) hst u).trans ?_))
  rw [hanswer, afterPolls_succ]
  rfl

/-- While the answers have the flag set, the run stays (R195). -/
theorem runs_busy {n : Nat} (hbusy : ∀ j, j < n → flag s.cfg (frAnswer s u j) = true) :
    ∃ w, runs n (goTo op k lat s) = .next (goTo op k { lat with word := w } (afterPolls u n s)) := by
  induction n with
  | zero => exact ⟨lat.word, by rw [afterPolls_zero]; rfl⟩
  | succ n ih =>
    obtain ⟨w, hw⟩ := ih fun j hj => hbusy j (by omega)
    exact ⟨_, by rw [runs_add n 1 hw, runs_poll hop hp hst, if_pos (hbusy n (by omega))]⟩

/-- The first answer with the flag clear lets it pass (R194, R196, R198). -/
theorem runs_pass {n : Nat} (hbusy : ∀ j, j < n → flag s.cfg (frAnswer s u j) = true)
    (hpass : flag s.cfg (frAnswer s u n) = false) :
    runs (n + 1) (goTo op k lat s) =
      .next (goTo op onward { lat with word := some (frAnswer s u n) } (afterPolls u (n + 1) s)) := by
  obtain ⟨w, hw⟩ := runs_busy (lat := lat) hop hp hst hbusy
  rw [runs_add n 1 hw, runs_poll hop hp hst, hpass, if_neg Bool.false_ne_true]

end

end Sys2Proof.Machine
end

section
/-! PROOFS. The data operations run to their end: issued on a ready block with an enabled UART they start the sequencer,
poll until the UART lets them pass, and access its data register (R192, R194, R196, R198). -/

namespace Sys2Proof.Machine

open Sys2Proof.Safety

/-! Issuing them (R192) -/

/-- On a ready block the check of the driver state is all that can still refuse a data operation. -/
theorem issueEnabled_of_ready {s : State} (hready : Ready s) {u : UartIx} (op : Operation) :
    (whenReady s <| withUart s.cfg.registry[u] s fun u => whenEnabled u s (.next (beginOp op s))) =
      if s.uart[u].drv = .enabled then .next (beginOp op s) else .refused .uartNotEnabled := by
  rw [whenReady_withUart_registry hready, whenEnabled]

/-- A data answer looks at the scripts alone (R72). -/
theorem answerDr_with (u : UartIx) (s : State) (q : Seq) (es : List Event) (o : Option OutcomeCode) (r : Result) :
    answerDr u { s with seq := q, trace := es, outcome := o, result := r } =
      ((answerDr u s).1, { (answerDr u s).2 with seq := q, trace := es, outcome := o, result := r }) := by
  cases h : s.answers[u].dr with
  | nil =>
    rw [answerDr_nil h, answerDr_nil (s := { s with seq := q, trace := es, outcome := o, result := r }) h]
    rfl
  | cons v rest =>
    rw [answerDr_cons h, answerDr_cons (s := { s with seq := q, trace := es, outcome := o, result := r }) h]

/-! `send` and `recv`, from the first label -/

theorem lowByte_zext32 (b : Byte) : lowByte (zext32 b) = b := BitVec.setWidth_setWidth_of_le _ (by decide)

/-- The write of a byte to the data register fills the transmit log by it (R36). -/
theorem memWrite_byte {s : State} (hst : Standing s.cfg) (u : UartIx) (b : Byte) :
    memWrite (s.cfg.registry[u].base + drOff) 4 (zext32 b) s =
      .next (logEvent (.wr (uartBase s.cfg u + drOff) (zext32 b))
        (setUart u { s.uart[u] with txLog := s.uart[u].txLog ++ [b] } s)) := by
  rw [← uartBase, memWrite_dr hst, lowByte_zext32]

theorem sendStep_one {s : State} (hst : Standing s.cfg) (u : UartIx) (b : Byte) (lat : Latches) :
    sendStep s.cfg.registry[u] b 1 lat s =
      .next (finish .ok .none (logEvent (.wr (uartBase s.cfg u + drOff) (zext32 b))
        (setUart u { s.uart[u] with txLog := s.uart[u].txLog ++ [b] } s))) := by
  rw [sendStep, memWrite_byte hst, andThen_next]

theorem recvStep_one {s t : State} {v : Word} (hst : Standing s.cfg) {u : UartIx} (h : answerDr u s = (v, t)) (lat : Latches) :
    recvStep s.cfg.registry[u] 1 lat s =
      .next (finish .ok (.byte (lowByte v)) (logEvent (.rd (uartBase s.cfg u + drOff) v) t)) := by
  rw [recvStep, ← uartBase, memRead_dr hst, andThen_next, h]

/-- The block after `n` polls of the flag register and a read of the data register (R196). -/
def afterRecv (u : UartIx) (n : Nat) (s : State) : State :=
  { (answerDr u (afterFr s u n)).2 with
    trace := s.trace ++ pollEvents s u n ++ [.rd (uartBase s.cfg u + drOff) (answerDr u (afterFr s u n)).1] }

section
variable {u : UartIx} {lat : Latches} {s : State} {n : Nat} (hp : Patient s) (hst : Standing s.cfg)
include hp hst

/-- The run of `send` on any block, by the flag answers to come (R194). -/
theorem runs_send {b : Byte} (hbusy : ∀ k, k < n → txff s.cfg (frAnswer s u k) = true)
    (hpass : txff s.cfg (frAnswer s u n) = false) :
    runs (n + 2) (goTo (.send s.cfg.registry[u] b) 0 lat s) =
      .next (finish .ok .none (logEvent (.wr (uartBase s.cfg u + drOff) (zext32 b))
        (setUart u { s.uart[u] with txLog := s.uart[u].txLog ++ [b] } (afterPolls u (n + 1) s)))) := by
  rw [runs_add (n + 1) 1 (runs_pass (send_pollsAt _ b) hp hst hbusy hpass)]
  exact runs_of_running 0 hp rfl
    (sendStep_one (s := goTo _ 1 _ (afterPolls u (n + 1) s)) hst u b { lat with word := some (frAnswer s u n) })

/-- The run of `recv` on any block (R196). -/
theorem runs_recv (hbusy : ∀ k, k < n → rxfe s.cfg (frAnswer s u k) = true)
    (hpass : rxfe s.cfg (frAnswer s u n) = false) :
    runs (n + 2) (goTo (.recv s.cfg.registry[u]) 0 lat s) =
      .next (finish .ok (.byte (lowByte (answerDr u (afterFr s u (n + 1))).1))
        (afterRecv u (n + 1) s)) := by
  rw [runs_add (n + 1) 1 (runs_pass (recv_pollsAt _) hp hst hbusy hpass)]
  exact runs_of_running 0 hp rfl
    (recvStep_one (s := goTo _ 1 _ (afterPolls u (n + 1) s)) hst (answerDr_with u (afterFr s u (n + 1)) _ _ _ _)
      { lat with word := some (frAnswer s u n) })

end

/-! `send_string`, one byte after the other -/

/-- The block after bytes were sent, each after its own poll from the script, of which `rest` is left (R198). -/
def afterString (u : UartIx) (ps : List Poll) (bs : List Byte) (rest : List Word) (s : State) : State :=
  { s with answers := s.answers.set u { s.answers[u] with fr := rest },
           uart := s.uart.set u { s.uart[u] with txLog := s.uart[u].txLog ++ bs },
           trace := s.trace ++ stringEvents (uartBase s.cfg u) ps bs }

theorem afterString_nil {u : UartIx} {rest : List Word} {s : State} (h : s.answers[u].fr = rest) :
    afterString u [] [] rest s = s := by
  subst h
  have hanswers : s.answers.set u { s.answers[u] with fr := s.answers[u].fr } = s.answers := Vector.set_getElem_self _
  have huart : s.uart.set u { s.uart[u] with txLog := s.uart[u].txLog } = s.uart := Vector.set_getElem_self _
  simp only [afterString, List.append_nil, hanswers, huart, stringEvents, List.zipWith_nil_left, List.flatten_nil]

/-- One byte and then others. -/
theorem afterString_cons (u : UartIx) (p : Poll) (ps : List Poll) (b : Byte) (bs : List Byte) (r rest : List Word)
    (s : State) : afterString u ps bs rest (afterString u [p] [b] r s) = afterString u (p :: ps) (b :: bs) rest s := by
  simp [afterString, stringEvents]

section
variable {u : UartIx} {s : State}

/-- The script's words are the answers to come. -/
theorem frAnswer_of_script {ws rest : List Word} (h : s.answers[u].fr = ws ++ rest) {k : Nat} (hk : k < ws.length) :
    frAnswer s u k = ws[k] := by
  have hget : s.answers[u].fr[k]? = some ws[k] := by rw [h, List.getElem?_append_left hk, List.getElem?_eq_getElem]
  simp only [frAnswer, hget]

/-- Polls answered by the script take those words from it. -/
theorem afterPolls_of_script {ws rest : List Word} {n : Nat} (h : s.answers[u].fr = ws ++ rest) (hn : ws.length = n) :
    afterPolls u n s =
      { s with answers := s.answers.set u { s.answers[u] with fr := rest },
               trace := s.trace ++ ws.map (.rd (uartBase s.cfg u + frOff)) } := by
  subst hn
  have hevents : pollEvents s u ws.length = ws.map (.rd (uartBase s.cfg u + frOff)) :=
    List.ext_getElem (by simp [pollEvents]) fun k _ hk => by
      simp [pollEvents, frAnswer_of_script h (by simpa using hk)]
  have hdraws : ws.length - (ws ++ rest).length = 0 := by simp
  simp only [afterPolls, afterFr, hevents, h, List.drop_left, hdraws, Nat.add_zero]

/-- One poll answered by the script, and then the write of the byte. -/
theorem afterString_single {p : Poll} {b : Byte} {rest : List Word} (h : s.answers[u].fr = p.1 ++ [p.2] ++ rest) :
    logEvent (.wr (uartBase s.cfg u + drOff) (zext32 b))
      (setUart u { s.uart[u] with txLog := s.uart[u].txLog ++ [b] } (afterPolls u (p.1.length + 1) s)) =
    afterString u [p] [b] rest s := by
  rw [afterPolls_of_script h (by simp)]
  simp [logEvent, setUart, afterString, stringEvents, sentEvents]

end

/-! The runs of `send_string`, label by label -/

section
variable {u : UartIx} {lat : Latches} {s : State} (hp : Patient s)
include hp

/-- A polled write inside an operation: from the label that polls, through the one that writes, to the next one (R194). -/
theorem runs_polledWrite {op : Operation} {k onward next : Nat} {lat' : Latches} {p : Poll} {b : Byte} {rest : List Word}
    (hst : Standing s.cfg) (hop : PollsAt txff s.cfg.registry[u] op k onward) (hpoll : TransmitPoll s.cfg p)
    (hscript : s.answers[u].fr = p.1 ++ [p.2] ++ rest)
    (hwrite : ∀ t w : State, t.cfg = s.cfg → memWrite (s.cfg.registry[u].base + drOff) 4 (zext32 b) t = .next w →
      microStep op onward { lat with word := some p.2 } t = .next (goTo op next lat' w)) :
    runs (p.1.length + 2) (goTo op k lat s) = .next (goTo op next lat' (afterString u [p] [b] rest s)) := by
  obtain ⟨hset, hclear⟩ := hpoll
  have hbusy : ∀ j, j < p.1.length → txff s.cfg (frAnswer s u j) = true := fun j hj => by
    rw [frAnswer_of_script (ws := p.1) (rest := [p.2] ++ rest) (by rw [hscript, List.append_assoc]) hj]
    exact hset _ (List.getElem_mem hj)
  have hanswer : frAnswer s u p.1.length = p.2 := by
    rw [frAnswer_of_script hscript (by simp)]
    simp
  rw [runs_add (p.1.length + 1) 1 (runs_pass hop hp hst hbusy (by rw [hanswer]; exact hclear)), hanswer,
    ← afterString_single hscript]
  have hstep := hwrite _ _ (by rfl)
    (memWrite_byte (s := goTo op onward { lat with word := some p.2 } (afterPolls u (p.1.length + 1) s)) hst u b)
  exact runs_of_running 0 hp rfl hstep

/-- S1 looks at the byte that is next: a line feed first needs its carriage return (R198). -/
theorem runs_sendString_one {pre tail : List Byte} {b : Byte} (hi : lat.i = some pre.length) :
    runs 1 (goTo (.sendString s.cfg.registry[u] (pre ++ b :: tail)) 1 lat s) =
      .next (goTo (.sendString s.cfg.registry[u] (pre ++ b :: tail)) (if b = s.cfg.byteLf then 2 else 4) lat s) := by
  refine runs_of_running 0 hp rfl ?_
  have hlt : pre.length ≠ (pre ++ b :: tail).length := by simp
  have hb : (pre ++ b :: tail)[pre.length]? = some b := by simp
  simp only [microStep, sendStringStep, hi, withLatch_some, if_neg hlt, withByte, hb]
  rfl

/-- S2 and S3 send the carriage return before a line feed (R198). -/
theorem runs_sendString_carriageReturn {bs : List Byte} {p : Poll} {rest : List Word} (hst : Standing s.cfg)
    (hpoll : TransmitPoll s.cfg p) (hscript : s.answers[u].fr = p.1 ++ [p.2] ++ rest) :
    runs (p.1.length + 2) (goTo (.sendString s.cfg.registry[u] bs) 2 lat s) =
      .next (goTo (.sendString s.cfg.registry[u] bs) 4 { lat with word := some p.2 }
        (afterString u [p] [s.cfg.byteCr] rest s)) := by
  refine runs_polledWrite hp hst (sendString_pollsAt_two _ bs) hpoll hscript fun t w hcfg hw => ?_
  simp only [microStep, sendStringStep, hcfg, hw, andThen_next]

/-- S4 and S5 send the byte and go on to the one after it (R198). -/
theorem runs_sendString_byte {pre tail : List Byte} {b : Byte} {p : Poll} {rest : List Word} (hst : Standing s.cfg)
    (hpoll : TransmitPoll s.cfg p) (hscript : s.answers[u].fr = p.1 ++ [p.2] ++ rest) (hi : lat.i = some pre.length) :
    runs (p.1.length + 2) (goTo (.sendString s.cfg.registry[u] (pre ++ b :: tail)) 4 lat s) =
      .next (goTo (.sendString s.cfg.registry[u] (pre ++ b :: tail)) 1
        { lat with word := some p.2, i := some (pre.length + 1) } (afterString u [p] [b] rest s)) := by
  refine runs_polledWrite hp hst (sendString_pollsAt_four _ _) hpoll hscript fun t w hcfg hw => ?_
  have hb : (pre ++ b :: tail)[pre.length]? = some b := by simp
  simp only [microStep, sendStringStep, hi, withLatch_some, withByte, hb, hw, andThen_next]

/-- With no byte left S1 ends the operation (R198). -/
theorem runs_sendString_end {d : Descriptor} {bs : List Byte} (hi : lat.i = some bs.length) :
    runs 1 (goTo (.sendString d bs) 1 lat s) = .next (finish .ok .none s) := by
  refine runs_of_running 0 hp rfl ?_
  simp only [microStep, sendStringStep, hi, withLatch_some, if_pos]
  rfl

end

/-- A run that goes on to its end. -/
theorem exists_runs_of_runs {s t : State} {x : Host.Outcome State Fault Refusal} {j : Nat} (h : runs j s = .next t)
    (ht : ∃ k, runs k t = x) : ∃ k, runs k s = x := by
  obtain ⟨k, hk⟩ := ht
  exact ⟨j + k, (runs_add j k h).trans hk⟩

theorem pollScript_cons (p : Poll) (ps : List Poll) (rest : List Word) :
    pollScript (p :: ps) ++ rest = p.1 ++ [p.2] ++ (pollScript ps ++ rest) := by
  simp [pollScript]

/-- What is left of the script after one byte was sent. -/
theorem afterString_fr (u : UartIx) (ps : List Poll) (bs : List Byte) (rest : List Word) (s : State) :
    (afterString u ps bs rest s).answers[u].fr = rest := by
  simp [afterString]

/-- From S1 on, the bytes that are left are sent one after the other (R198). -/
theorem runs_sendString_from {u : UartIx} {rest : List Word} (tail pre : List Byte) (polls : List Poll) (lat : Latches)
    (s : State) (hp : Patient s) (hst : Standing s.cfg) (hi : lat.i = some pre.length)
    (hlen : polls.length = (stringOut s.cfg tail).length) (hpolls : ∀ p ∈ polls, TransmitPoll s.cfg p)
    (hscript : s.answers[u].fr = pollScript polls ++ rest) :
    ∃ k, runs k (goTo (.sendString s.cfg.registry[u] (pre ++ tail)) 1 lat s) =
      .next (finish .ok .none (afterString u polls (stringOut s.cfg tail) rest s)) := by
  induction tail generalizing pre polls lat s with
  | nil =>
    cases List.eq_nil_of_length_eq_zero hlen
    rw [stringOut, afterString_nil (by simpa [pollScript] using hscript)]
    exact ⟨1, runs_sendString_end hp (by simpa using hi)⟩
  | cons b tail ih =>
    -- from S4, where the byte is next: it is sent after its poll, and S1 comes to the bytes after it
    have byte (q : Poll) (qs : List Poll) (lat : Latches) (t : State) (hp : Patient t) (hst : Standing t.cfg)
        (hi : lat.i = some pre.length) (hlen : qs.length = (stringOut t.cfg tail).length)
        (hpolls : ∀ p ∈ q :: qs, TransmitPoll t.cfg p) (hscript : t.answers[u].fr = pollScript (q :: qs) ++ rest) :
        ∃ k, runs k (goTo (.sendString t.cfg.registry[u] (pre ++ b :: tail)) 4 lat t) =
          .next (finish .ok .none (afterString u (q :: qs) (b :: stringOut t.cfg tail) rest t)) := by
      rw [pollScript_cons] at hscript
      refine exists_runs_of_runs (runs_sendString_byte hp hst (hpolls q (by simp)) hscript hi) ?_
      have hgo := ih (pre ++ [b]) qs { lat with word := some q.2, i := some (pre.length + 1) }
        (afterString u [q] [b] (pollScript qs ++ rest) t) hp hst (by simp) hlen
        (fun p hmem => hpolls p (List.mem_cons_of_mem q hmem)) (afterString_fr ..)
      rwa [List.append_assoc, List.singleton_append, afterString_cons] at hgo
    refine exists_runs_of_runs (runs_sendString_one hp hi) ?_
    by_cases hlf : b = s.cfg.byteLf
    · rw [stringOut, if_pos hlf] at hlen ⊢
      obtain _ | ⟨p, _ | ⟨q, qs⟩⟩ := polls
      · cases hlen
      · cases hlen
      rw [if_pos hlf]
      rw [pollScript_cons] at hscript
      refine exists_runs_of_runs (runs_sendString_carriageReturn hp hst (hpolls p (by simp)) hscript) ?_
      have hgo := byte q qs { lat with word := some p.2 }
        (afterString u [p] [s.cfg.byteCr] (pollScript (q :: qs) ++ rest) s) hp hst hi (Nat.succ.inj (Nat.succ.inj hlen))
        (fun p' hmem => hpolls p' (List.mem_cons_of_mem p hmem)) (afterString_fr ..)
      rwa [afterString_cons] at hgo
    · rw [stringOut, if_neg hlf] at hlen ⊢
      obtain _ | ⟨q, qs⟩ := polls
      · cases hlen
      rw [if_neg hlf]
      exact byte q qs lat s hp hst hi (Nat.succ.inj hlen) hpolls hscript

/-- The whole run of `send_string`, from S0 (R198). -/
theorem runs_sendString {u : UartIx} {bs : List Byte} {polls : List Poll} {rest : List Word} {lat : Latches} {s : State}
    (hp : Patient s) (hst : Standing s.cfg) (hlen : polls.length = (stringOut s.cfg bs).length)
    (hpolls : ∀ p ∈ polls, TransmitPoll s.cfg p) (hscript : s.answers[u].fr = pollScript polls ++ rest) :
    ∃ k, runs k (goTo (.sendString s.cfg.registry[u] bs) 0 lat s) =
      .next (finish .ok .none (afterString u polls (stringOut s.cfg bs) rest s)) := by
  have hfirst : runs 1 (goTo (.sendString s.cfg.registry[u] bs) 0 lat s) =
      .next (goTo (.sendString s.cfg.registry[u] bs) 1 { lat with i := some 0 } s) := runs_of_running 0 hp rfl rfl
  exact exists_runs_of_runs hfirst (runs_sendString_from bs [] polls _ s hp hst rfl hlen hpolls hscript)

end Sys2Proof.Machine
end

section
/-! PROOFS. `init` runs to its end: the pin steps in line in the order of `INIT_PIN_ORDER`, then the UART steps with or
without the divisor writes (R190, R191). -/

namespace Sys2Proof.Machine

open Sys2Proof.Safety

/-! The pin steps, S0 to S17 -/

/-- The label at which the `enable_pin` of the TX pin begins (R190). -/
def txEnableStart : PinOrder → Nat
  | .perPin => 3
  | .functionsFirst => 6

theorem initPinBody_of_txEnable {d : Descriptor} {k : Nat} (lat : Latches) (s : State)
    (hlo : txEnableStart s.cfg.initPinOrder ≤ k) (hhi : k < txEnableStart s.cfg.initPinOrder + 6) :
    initPinBody d k lat s = enablePinBody d.tx (k - txEnableStart s.cfg.initPinOrder) lat s := by
  unfold initPinBody
  cases h : s.cfg.initPinOrder with
  | perPin =>
    simp only [h, txEnableStart] at hlo hhi ⊢
    rw [if_neg (by omega), if_pos hhi]
  | functionsFirst =>
    simp only [h, txEnableStart] at hlo hhi ⊢
    rw [if_neg (by omega), if_neg (by omega), if_pos hhi]

/-- The `enable_pin` of the RX pin is the last block in either order. -/
theorem initPinBody_of_rxEnable {d : Descriptor} {k : Nat} (lat : Latches) (s : State) (hk : 12 ≤ k) :
    initPinBody d k lat s = enablePinBody d.rx (k - 12) lat s := by
  unfold initPinBody
  split <;> rw [if_neg (by omega), if_neg (by omega), if_neg (by omega)]

/-- A pin step goes on to the next label. -/
theorem initStep_of_pin {d : Descriptor} {b : Word} {k : Nat} {lat : Latches} {s : State}
    {body : Answer (State × Latches)} (hk : k < 18) (hbody : initPinBody d k lat s = body) :
    microStep (.init d b) k lat s = andThen body fun q => .next (goTo (.init d b) (k + 1) q.2 q.1) := by
  rw [microStep, initStep, if_pos hk, hbody]

/-- The block after the pin steps of `init`, in either order (R190). -/
def afterInitPins (d : Descriptor) (s : State) : State :=
  { s with gpfsel := setFunctionWords s.cfg (setFunctionWords s.cfg s.gpfsel d.tx d.fn) d.rx d.fn,
           gppud := pullOffWord s.cfg,
           gppudclk := (s.gppudclk.set (clkIndex d.tx) 0).set (clkIndex d.rx) 0,
           trace := s.trace ++ initPinEvents s.cfg s.gpfsel d }

theorem afterInitPins_perPin {d : Descriptor} {s : State} (h : s.cfg.initPinOrder = .perPin) :
    afterInitPins d s =
      afterEnablePin d.rx (afterSetFunction d.rx d.fn (afterEnablePin d.tx (afterSetFunction d.tx d.fn s))) := by
  simp [afterInitPins, afterEnablePin, afterSetFunction, initPinEvents, h]

theorem afterInitPins_functionsFirst {d : Descriptor} {s : State} (h : s.cfg.initPinOrder = .functionsFirst) :
    afterInitPins d s =
      afterEnablePin d.rx (afterEnablePin d.tx (afterSetFunction d.rx d.fn (afterSetFunction d.tx d.fn s))) := by
  simp [afterInitPins, afterEnablePin, afterSetFunction, initPinEvents, h]

section
variable {d : Descriptor} {b : Word} {s : State} (lat : Latches) (hp : Patient s) (hst : Standing s.cfg)
include hp hst

/-! The four blocks of pin steps, each at its label -/

theorem runs_initTxFunction :
    ∃ lat', runs 3 (goTo (.init d b) 0 lat s) = .next (goTo (.init d b) 3 lat' (afterSetFunction d.tx d.fn s)) :=
  runs_setFunctionBlock 0 lat hp hst fun j hj lat' t _ => by
    rw [Nat.zero_add]
    exact initStep_of_pin (by omega) (initPinBody_of_tx lat' t hj)

theorem runs_initRxFunction {k : Nat} (hk : k = rxFunctionStart s.cfg.initPinOrder) :
    ∃ lat', runs 3 (goTo (.init d b) k lat s) = .next (goTo (.init d b) (k + 3) lat' (afterSetFunction d.rx d.fn s)) :=
  runs_setFunctionBlock 0 lat hp hst fun j hj lat' t ht => by
    have hlast : rxFunctionStart t.cfg.initPinOrder ≤ 9 := by cases t.cfg.initPinOrder <;> decide
    rw [hk, ← ht]
    refine initStep_of_pin (by omega) ((initPinBody_of_rx lat' t (by omega) (by omega)).trans ?_)
    rw [Nat.add_sub_cancel_left]

theorem runs_initTxEnable {k : Nat} (hk : k = txEnableStart s.cfg.initPinOrder) :
    runs 6 (goTo (.init d b) k lat s) = .next (goTo (.init d b) (k + 6) lat (afterEnablePin d.tx s)) :=
  runs_enablePinBlock 0 lat hp hst fun j hj lat' t ht => by
    have hlast : txEnableStart t.cfg.initPinOrder ≤ 6 := by cases t.cfg.initPinOrder <;> decide
    rw [hk, ← ht]
    refine initStep_of_pin (by omega) ((initPinBody_of_txEnable lat' t (by omega) (by omega)).trans ?_)
    rw [Nat.add_sub_cancel_left]

theorem runs_initRxEnable :
    runs 6 (goTo (.init d b) 12 lat s) = .next (goTo (.init d b) 18 lat (afterEnablePin d.rx s)) :=
  runs_enablePinBlock 0 lat hp hst fun j hj lat' t _ => by
    refine initStep_of_pin (by omega) ((initPinBody_of_rxEnable lat' t (by omega)).trans ?_)
    rw [Nat.add_sub_cancel_left]

/-- The pin steps of `init`, in either order. -/
theorem runs_initPins :
    ∃ lat', runs 18 (goTo (.init d b) 0 lat s) = .next (goTo (.init d b) 18 lat' (afterInitPins d s)) := by
  obtain ⟨lat1, h1⟩ := runs_initTxFunction (d := d) (b := b) lat hp hst
  rw [runs_add 3 15 h1]
  cases horder : s.cfg.initPinOrder with
  | perPin =>
    have h2 := runs_initTxEnable (d := d) (b := b) (s := afterSetFunction d.tx d.fn s) (k := 3) lat1 hp hst
      (congrArg txEnableStart horder).symm
    obtain ⟨lat3, h3⟩ := runs_initRxFunction (d := d) (b := b)
      (s := afterEnablePin d.tx (afterSetFunction d.tx d.fn s)) (k := 9) lat1 hp hst
      (congrArg rxFunctionStart horder).symm
    rw [runs_add 6 9 h2, runs_add 3 6 h3, afterInitPins_perPin horder]
    exact ⟨lat3, runs_initRxEnable lat3 hp hst⟩
  | functionsFirst =>
    obtain ⟨lat2, h2⟩ := runs_initRxFunction (d := d) (b := b) (s := afterSetFunction d.tx d.fn s) (k := 3) lat1 hp hst
      (congrArg rxFunctionStart horder).symm
    have h3 := runs_initTxEnable (d := d) (b := b) (s := afterSetFunction d.rx d.fn (afterSetFunction d.tx d.fn s))
      (k := 6) lat2 hp hst (congrArg txEnableStart horder).symm
    rw [runs_add 3 12 h2, runs_add 6 6 h3, afterInitPins_functionsFirst horder]
    exact ⟨lat2, runs_initRxEnable lat2 hp hst⟩

end

/-! The UART steps, S18 to S23, by the block between two of them -/

/-- The block during the UART steps of `init`: UART `u` as written so far, and the events so far (R190). -/
def duringInit (u : UartIx) (x : Uart) (es : List Event) (s : State) : State :=
  { s with uart := s.uart.set u x, trace := s.trace ++ es }

theorem duringInit_start (u : UartIx) (s : State) : duringInit u s.uart[u] [] s = s := by
  have huart : s.uart.set u s.uart[u] = s.uart := Vector.set_getElem_self _
  simp only [duringInit, huart, List.append_nil]

section
variable {op : Operation} {d : Descriptor} {u : UartIx} {b : Word} {k : Nat} {x : Uart} {es : List Event} {lat : Latches}
  {s : State}

theorem setDriver_duringInit (v : Driver) :
    setDriver u v (goTo op k lat (duringInit u x es s)) = goTo op k lat (duringInit u { x with drv := v } es s) := by
  simp [setDriver, setUart, goTo, duringInit]

variable (hst : Standing s.cfg) (hu : uartIndex s.cfg d = some u)
include hu

/-- Past the pin steps `init` runs its UART steps on the descriptor's UART. -/
theorem initStep_of_uart (hk : 18 ≤ k) :
    microStep (.init d b) k lat (goTo op k lat (duringInit u x es s)) =
      initUartStep u d b k lat (goTo op k lat (duringInit u x es s)) := by
  rw [microStep, initStep, if_neg (Nat.not_lt.2 hk)]
  exact withUart_of_index hu

/-- S19 with a baud rate other than 0 writes the divisors into the latches (R190). -/
theorem initStep_divisors (hb : b ≠ 0) :
    microStep (.init d b) 19 lat (goTo (.init d b) 19 lat (duringInit u x es s)) = .next (goTo (.init d b) 20
      { lat with scaled := some (baudScaled s.cfg.uartClock.val b.toNat),
                 ibrd := some (baudInteger s.cfg.uartClock.val b.toNat),
                 fbrd := some (baudFraction s.cfg.uartClock.val b.toNat), res := some .ok } (duringInit u x es s)) := by
  rw [initStep_of_uart hu (by decide), initUartStep, if_neg hb]
  rfl

/-- S19 with baud rate 0 skips to S22 (R191). -/
theorem initStep_skip :
    microStep (.init d 0) 19 lat (goTo (.init d 0) 19 lat (duringInit u x es s)) = .next (goTo (.init d 0) 22
      { lat with res := some .divisorSkipped } (duringInit u { x with drv := .configured } es s)) := by
  rw [initStep_of_uart hu (by decide), initUartStep, if_pos rfl, setDriver_duringInit]
  rfl

include hst

/-- The write of one of the UART's registers, at its offset; `f` says what the write does to the UART. -/
theorem memWrite_duringInit {r : Reg} {off : Nat} {v : Word} (f : Uart → Uart)
    (hoff : regAddr s.cfg r = uartBase s.cfg u + off)
    (hwrite : ∀ t : State, writeReg r v t = .next (setUart u (f t.uart[u]) t)) :
    memWrite (d.base + off) 4 v (goTo op k lat (duringInit u x es s)) =
      .next (goTo op k lat (duringInit u (f x) (es ++ [.wr (d.base + off) v]) s)) := by
  rw [base_of_uartIndex hu, ← hoff]
  refine (memWrite_regAddr (s := goTo op k lat (duringInit u x es s)) hst.1 hst.2.1 r v).trans ?_
  rw [hwrite, andThen_next]
  simp [logEvent, setUart, goTo, duringInit]

/-- The writes of the control register, at S18 and S23. -/
theorem memWrite_cr_duringInit (v : Word) :
    memWrite (d.base + crOff) 4 v (goTo op k lat (duringInit u x es s)) =
      .next (goTo op k lat (duringInit u { x with cr := v } (es ++ [.wr (d.base + crOff) v]) s)) :=
  memWrite_duringInit hst hu (r := .cr u) (fun x => { x with cr := v }) rfl fun _ => rfl

theorem initStep_off :
    microStep (.init d b) 18 lat (goTo (.init d b) 18 lat (duringInit u x es s)) =
      .next (goTo (.init d b) 19 lat (duringInit u { x with cr := 0 } (es ++ [.wr (d.base + crOff) 0]) s)) := by
  rw [initStep_of_uart hu (by decide), initUartStep, memWrite_cr_duringInit hst hu]
  rfl

theorem initStep_ibrd {i : Nat} (hi : lat.ibrd = some i) :
    microStep (.init d b) 20 lat (goTo (.init d b) 20 lat (duringInit u x es s)) =
      .next (goTo (.init d b) 21 lat (duringInit u { x with ibrd := BitVec.ofNat 32 i }
        (es ++ [.wr (d.base + ibrdOff) (BitVec.ofNat 32 i)]) s)) := by
  rw [initStep_of_uart hu (by decide), initUartStep, hi, withLatch_some,
    memWrite_duringInit hst hu (r := .ibrd u) (fun x => { x with ibrd := BitVec.ofNat 32 i }) rfl fun _ => rfl]
  rfl

theorem initStep_fbrd {f : Nat} (hf : lat.fbrd = some f) :
    microStep (.init d b) 21 lat (goTo (.init d b) 21 lat (duringInit u x es s)) =
      .next (goTo (.init d b) 22 lat (duringInit u { x with fbrd := BitVec.ofNat 32 f, drv := .configured }
        (es ++ [.wr (d.base + fbrdOff) (BitVec.ofNat 32 f)]) s)) := by
  rw [initStep_of_uart hu (by decide), initUartStep, hf, withLatch_some,
    memWrite_duringInit hst hu (r := .fbrd u) (fun x => { x with fbrd := BitVec.ofNat 32 f }) rfl fun _ => rfl,
    andThen_next, setDriver_duringInit]
  rfl

theorem initStep_lcrh :
    microStep (.init d b) 22 lat (goTo (.init d b) 22 lat (duringInit u x es s)) =
      .next (goTo (.init d b) 23 lat (duringInit u { x with lcrh := s.cfg.lcrhWlen8 }
        (es ++ [.wr (d.base + lcrhOff) s.cfg.lcrhWlen8]) s)) := by
  have hcfg : (goTo (.init d b) 22 lat (duringInit u x es s)).cfg = s.cfg := rfl
  rw [initStep_of_uart hu (by decide), initUartStep, hcfg,
    memWrite_duringInit hst hu (r := .lcrh u) (fun x => { x with lcrh := s.cfg.lcrhWlen8 }) rfl fun _ => rfl]
  rfl

theorem initStep_enable {code : OutcomeCode} (hcode : lat.res = some code) :
    microStep (.init d b) 23 lat (goTo (.init d b) 23 lat (duringInit u x es s)) =
      .next (finish code .none (duringInit u { x with cr := s.cfg.crEnable, drv := .enabled }
        (es ++ [.wr (d.base + crOff) s.cfg.crEnable]) s)) := by
  have hcfg : (goTo (.init d b) 23 lat (duringInit u x es s)).cfg = s.cfg := rfl
  rw [initStep_of_uart hu (by decide), initUartStep, hcode, withLatch_some, hcfg, memWrite_cr_duringInit hst hu,
    andThen_next, setDriver_duringInit]
  rfl

end

section
variable {d : Descriptor} {u : UartIx} {b : Word} {lat : Latches} {s : State} (hp : Patient s) (hst : Standing s.cfg)
  (hu : uartIndex s.cfg d = some u)
include hp hst hu

/-- The UART steps of `init` for a baud rate other than 0 (R190). -/
theorem runs_initUart (hb : b ≠ 0) :
    runs 6 (goTo (.init d b) 18 lat s) = .next (finish .ok .none (duringInit u
      { s.uart[u] with ibrd := BitVec.ofNat 32 (baudInteger s.cfg.uartClock.val b.toNat),
                       fbrd := BitVec.ofNat 32 (baudFraction s.cfg.uartClock.val b.toNat),
                       lcrh := s.cfg.lcrhWlen8, cr := s.cfg.crEnable, drv := .enabled }
      (initUartEvents s.cfg d b) s)) := by
  calc runs 6 (goTo (.init d b) 18 lat s)
    _ = runs 6 (goTo (.init d b) 18 lat (duringInit u s.uart[u] [] s)) := by rw [duringInit_start]
    _ = _ := runs_of_running 5 hp rfl (initStep_off hst hu)
    _ = _ := runs_of_running 4 hp rfl (initStep_divisors hu hb)
    _ = _ := runs_of_running 3 hp rfl (initStep_ibrd hst hu rfl)
    _ = _ := runs_of_running 2 hp rfl (initStep_fbrd hst hu rfl)
    _ = _ := runs_of_running 1 hp rfl (initStep_lcrh hst hu)
    _ = _ := runs_of_running 0 hp rfl (initStep_enable hst hu rfl)
    _ = _ := by rw [initUartEvents, if_neg hb]; rfl

/-- The UART steps of `init` for baud rate 0: the divisor step skips the two writes (R191). -/
theorem runs_initUart_zero :
    runs 4 (goTo (.init d 0) 18 lat s) = .next (finish .divisorSkipped .none (duringInit u
      { s.uart[u] with lcrh := s.cfg.lcrhWlen8, cr := s.cfg.crEnable, drv := .enabled } (initUartEvents s.cfg d 0) s)) := by
  calc runs 4 (goTo (.init d 0) 18 lat s)
    _ = runs 4 (goTo (.init d 0) 18 lat (duringInit u s.uart[u] [] s)) := by rw [duringInit_start]
    _ = _ := runs_of_running 3 hp rfl (initStep_off hst hu)
    _ = _ := runs_of_running 2 hp rfl (initStep_skip hu)
    _ = _ := runs_of_running 1 hp rfl (initStep_lcrh hst hu)
    _ = _ := runs_of_running 0 hp rfl (initStep_enable hst hu rfl)
    _ = _ := by rw [initUartEvents, if_pos rfl]; rfl

end

/-- The whole run of `init` on a ready block, given that of its UART steps on the block after its pin steps. -/
theorem runs_beginOp_init {d : Descriptor} {u : UartIx} {b : Word} {s : State} {n : Nat} {code : OutcomeCode} {x : Uart}
    {es : List Event} (hready : Ready s) (hp : Patient s)
    (huart : ∀ lat, runs n (goTo (.init d b) 18 lat (afterInitPins d (beginOp (.init d b) s))) =
      .next (finish code .none (duringInit u x es (afterInitPins d (beginOp (.init d b) s))))) :
    runs (18 + n) (beginOp (.init d b) s) =
      .next { duringInit u x es (afterInitPins d s) with outcome := some code, result := .none } := by
  obtain ⟨lat, hpins⟩ := runs_initPins (d := d) (b := b) (s := beginOp (.init d b) s) .unwritten hp hready.2
  rw [← finish_of_idle (s := duringInit u x es (afterInitPins d s)) code .none hready.1]
  exact (runs_add 18 n hpins).trans (huart lat)

theorem length_initPinEvents (c : Config) (gp : Vector Word 6) (d : Descriptor) :
    (initPinEvents c gp d).length = 16 := by
  unfold initPinEvents
  cases c.initPinOrder <;> rfl

end Sys2Proof.Machine
end

section
/-! PROOFS. The statements of 44_uart_driver.md. -/

namespace Sys2Proof.Machine

open Sys2Proof.Safety

/-- Settles O59: the step appends at most one event, which the rule lets follow the last one, and the host's acts to come
are among those it had. -/
theorem stepKeepsPolledTrace : Obligations.StepKeepsPolledTrace := fun _ _ hinv hpolled hops h =>
  ⟨(step_polledStep hinv hops h).polledTrace hpolled, fun a ha => hops a (step_host_subset h ha)⟩

/-- Settles O23: a pin step writes the words of its pin, a UART step the registers and the driver state of its UART. -/
theorem initMicroStepsFrame : Obligations.InitMicroStepsFrame := by
  intro s t d b k lat u hinv h hs hu
  obtain ⟨hst, hat, hstep⟩ := step_running hinv h hs
  exact initStep_initKeeps hst hat hu hstep

/-- Settles O21: the pin steps, then the UART steps with the divisor writes. -/
theorem initRuns : Obligations.InitRuns := by
  refine ⟨fun _ _ _ => rfl, fun s u b hready hp hb hfits =>
    ⟨_, (exec_init_of_ready hready b u).trans (if_pos hfits), ?_⟩⟩
  exact runs_beginOp_init hready hp fun _ => runs_initUart hp hready.2 (uartIndex_registry hready.2.1 u) hb

/-- Settles O22: the same without the two divisor writes, so 16 events of the pin steps and 3 of the UART steps. -/
theorem initZeroBaudRuns : Obligations.InitZeroBaudRuns := by
  refine fun s u hready hp => ⟨?_, _, (exec_init_of_ready hready 0 u).trans (if_pos rfl), ?_⟩
  · rw [List.length_append, length_initPinEvents]
    rfl
  · exact runs_beginOp_init hready hp fun _ => runs_initUart_zero hp hready.2 (uartIndex_registry hready.2.1 u)

/-- Settles O25: the run of `send`, on the block as the issue leaves it. -/
theorem sendRuns : Obligations.SendRuns := by
  refine ⟨fun _ _ _ => rfl, fun s u b n hready hp henabled hbusy hpass => ?_⟩
  refine ⟨_, (issueEnabled_of_ready hready _).trans (if_pos henabled), ?_⟩
  exact (runs_send (s := { s with outcome := none, result := .none }) hp hready.2 hbusy hpass).trans
    (congrArg Host.Outcome.next (finish_of_idle (s := logEvent _ (setUart u _ (afterPolls u (n + 1) s))) .ok .none hready.1))

/-- Settles O26: the run of `recv`, on the block as the issue leaves it; the data answer does not depend on the port. -/
theorem recvRuns : Obligations.RecvRuns := by
  refine ⟨fun _ _ => rfl, fun s u n hready hp henabled hbusy hpass => ?_⟩
  refine ⟨_, (issueEnabled_of_ready hready _).trans (if_pos henabled), ?_⟩
  have hidle : (answerDr u (afterFr s u (n + 1))).2.seq = .idle := (readReg_seq _ (.dr u)).trans hready.1
  refine (runs_recv (s := { s with outcome := none, result := .none }) hp hready.2 hbusy hpass).trans ?_
  have hanswer : answerDr u (afterFr { s with outcome := none, result := .none } u (n + 1)) = _ :=
    answerDr_with u (afterFr s u (n + 1)) s.seq s.trace none .none
  rw [afterRecv, hanswer]
  exact congrArg Host.Outcome.next (finish_of_idle (s := afterRecv u (n + 1) s) .ok _ hidle)

/-- Settles O27: the run of `send_string`, on the block as the issue leaves it. -/
theorem sendStringRuns : Obligations.SendStringRuns := by
  refine ⟨fun _ _ _ => rfl, fun s u bs polls rest hready hp henabled hlen hpolls hscript => ?_⟩
  obtain ⟨k, hk⟩ := runs_sendString (s := { s with outcome := none, result := .none }) (lat := .unwritten) hp hready.2
    hlen hpolls hscript
  exact ⟨_, k, (issueEnabled_of_ready hready _).trans (if_pos henabled), hk.trans (congrArg Host.Outcome.next
    (finish_of_idle (s := afterString u polls (stringOut s.cfg bs) rest s) .ok .none hready.1))⟩

/-- Settles O28: each of the four labels polls, and a run stays at a label that polls while the flag is set. -/
theorem busyWaitNeverLeaves : Obligations.BusyWaitNeverLeaves := by
  intro s u op k lat n hst hp hs hcase
  have stay {flag : Config → Word → Bool} {onward : Nat} (hop : PollsAt flag s.cfg.registry[u] op k onward)
      (hbusy : ∀ j, j < n → flag s.cfg (frAnswer s u j) = true) :
      ∃ lat', runs n s = .next { afterFr s u n with seq := .running op k lat', trace := s.trace ++ pollEvents s u n } := by
    obtain ⟨w, hw⟩ := runs_busy (lat := lat) hop hp hst hbusy
    have hgoTo : goTo op k lat s = s := by rw [goTo, ← hs]
    exact ⟨_, hgoTo ▸ hw⟩
  rcases hcase with ⟨⟨b, rfl⟩, rfl, hbusy⟩ | ⟨rfl, rfl, hbusy⟩ | ⟨⟨bs, rfl⟩, rfl | rfl, hbusy⟩
  · exact stay (send_pollsAt _ b) hbusy
  · exact stay (recv_pollsAt _) hbusy
  · exact stay (sendString_pollsAt_two _ bs) hbusy
  · exact stay (sendString_pollsAt_four _ bs) hbusy

/-- Settles O30: the check of the driver state is the last one before a data operation starts (R192). -/
theorem notEnabledRefused : Obligations.NotEnabledRefused := fun _ _ _ _ hready hdrv =>
  ⟨(issueEnabled_of_ready hready _).trans (if_neg hdrv), (issueEnabled_of_ready hready _).trans (if_neg hdrv),
    (issueEnabled_of_ready hready _).trans (if_neg hdrv)⟩

end Sys2Proof.Machine
end

section
/-! PROOFS. The device registry: what its table holds at an integer, and the lookup on a ready block. -/

namespace Sys2Proof.Machine

open Sys2Proof.Safety

/-! The table (R220, R221) -/

@[simp] theorem registryEntry_val (c : Config) (u : UartIx) : registryEntry c u.val = some c.registry[u] :=
  match u with
  | 0 => rfl
  | 1 => rfl

theorem registryEntry_of_out (c : Config) {i : Int} (hout : i < 0 ∨ 2 ≤ i) : registryEntry c i = none := by
  obtain ⟨hzero, hone⟩ : i ≠ 0 ∧ i ≠ 1 := by omega
  rw [registryEntry, if_neg hzero, if_neg hone]

/-! The operation on a ready block -/

section
variable {s : State} (hready : Ready s) {i : Int}
include hready

theorem exec_getByIndex_of_entry {d : Descriptor} (hentry : registryEntry s.cfg i = some d) :
    exec (.getByIndex i) s = .next { s with outcome := some .ok, result := .descriptor d } := by
  rw [← finish_of_idle _ _ hready.1]
  exact (whenReady_of_ready hready _).trans (by rw [hentry])

theorem exec_getByIndex_of_none (hentry : registryEntry s.cfg i = none) :
    exec (.getByIndex i) s = .next { s with outcome := some .notFound, result := .absent } := by
  rw [← finish_of_idle _ _ hready.1]
  exact (whenReady_of_ready hready _).trans (by rw [hentry])

end

end Sys2Proof.Machine
end

section
/-! PROOFS. The statement of 45_device_registry.md. -/

namespace Sys2Proof.Machine

open Sys2Proof.Safety

/-- Settles O33: the table has an entry at each UART's index and at no other integer, and the call answers what the
table holds. -/
theorem getByIndexValue : Obligations.GetByIndexValue :=
  ⟨fun _ _ => rfl, fun s hready =>
    ⟨fun u => exec_getByIndex_of_entry hready (registryEntry_val s.cfg u),
      fun _ hout => exec_getByIndex_of_none hready (registryEntry_of_out s.cfg hout)⟩⟩

end Sys2Proof.Machine
end

section
/-! PROOFS. The driver states through a step: only the labels of `init` that end the divisor step and that enable the UART
change one (R242, R37). -/

namespace Sys2Proof.Machine

open Sys2Proof.Safety

theorem act_drv {s w : State} (h : Act s w) (u : UartIx) : w.uart[u].drv = s.uart[u].drv := by
  obtain ⟨_, _, _, _, _, hdrv⟩ := act_frame h
  exact hdrv u

/-- After an act, setting a driver state changes that UART's alone. -/
theorem drv_of_setDriver_act {s w : State} {u u' : UartIx} {v : Driver} (h : Act s w)
    (hne : (setDriver u v w).uart[u'].drv ≠ s.uart[u'].drv) : u' = u ∧ (setDriver u v w).uart[u'].drv = v := by
  rw [setDriver_drv] at hne ⊢
  by_cases hu : u' = u
  · exact ⟨hu, if_pos hu⟩
  · rw [if_neg hu] at hne
    exact absurd (act_drv h u') hne

/-- Only a step of a running `init` changes a driver state. -/
theorem step_drv_running {s t : State} {u : UartIx} (h : step s = .next t) (hne : t.uart[u].drv ≠ s.uart[u].drv) :
    ∃ d b k lat, s.seq = .running (.init d b) k lat := by
  obtain ⟨host, w, x, hact, hx, hblock⟩ := step_effect h
  rcases hx with rfl | ⟨d, b, _, _, k, lat, hs, _⟩
  · rw [sameBlock_uart hblock] at hne
    exact absurd (act_drv (s := { s with host := host }) hact u) hne
  · exact ⟨d, b, k, lat, hs⟩

/-- A UART step of `init` changes at most its own UART's driver state, and only at the labels of R242's table. -/
theorem initUartStep_drv {u u' : UartIx} {d : Descriptor} {b : Word} {k : Nat} {lat : Latches} {s t : State}
    (h : initUartStep u d b k lat s = .next t) (hne : t.uart[u'].drv ≠ s.uart[u'].drv) :
    u' = u ∧ (((k = 19 ∧ b = 0 ∨ k = 21) ∧ t.uart[u'].drv = .configured) ∨ (k = 23 ∧ t.uart[u'].drv = .enabled)) := by
  unfold initUartStep at h
  split at h
  · -- S18: UART off
    obtain ⟨w, hw, e⟩ := andThen_eq_next.1 h
    cases e
    exact absurd (act_drv (act_of_memWrite hw) u') hne
  · -- S19: the divisor step is skipped for baud rate 0
    split at h
    · next hb =>
      cases h
      obtain ⟨hu, hdrv⟩ := drv_of_setDriver_act .nothing hne
      exact ⟨hu, .inl ⟨.inl ⟨rfl, hb⟩, hdrv⟩⟩
    · cases h
      exact absurd rfl hne
  · -- S20: IBRD
    obtain ⟨i, _, h⟩ := withLatch_eq_next.1 h
    obtain ⟨w, hw, e⟩ := andThen_eq_next.1 h
    cases e
    exact absurd (act_drv (act_of_memWrite hw) u') hne
  · -- S21: FBRD, the end of the divisor step
    obtain ⟨f, _, h⟩ := withLatch_eq_next.1 h
    obtain ⟨w, hw, e⟩ := andThen_eq_next.1 h
    cases e
    obtain ⟨hu, hdrv⟩ := drv_of_setDriver_act (act_of_memWrite hw) hne
    exact ⟨hu, .inl ⟨.inr rfl, hdrv⟩⟩
  · -- S22: LCRH
    obtain ⟨w, hw, e⟩ := andThen_eq_next.1 h
    cases e
    exact absurd (act_drv (act_of_memWrite hw) u') hne
  · -- S23: the enabling write
    obtain ⟨code, _, h⟩ := withLatch_eq_next.1 h
    obtain ⟨w, hw, e⟩ := andThen_eq_next.1 h
    cases e
    obtain ⟨hu, hdrv⟩ := drv_of_setDriver_act (act_of_memWrite hw) hne
    exact ⟨hu, .inr ⟨rfl, hdrv⟩⟩
  · cases h

/-- A step of `init` changes at most its own UART's driver state, as the table of R242 says. -/
theorem initStep_drv {u u' : UartIx} {d : Descriptor} {b : Word} {k : Nat} {lat : Latches} {s t : State}
    (hat : InitUartAt s d b k lat u) (h : initStep d b k lat s = .next t) (hne : t.uart[u'].drv ≠ s.uart[u'].drv) :
    u' = u ∧ (((k = 19 ∧ b = 0 ∨ k = 21) ∧ t.uart[u'].drv = .configured) ∨
      (k = 23 ∧ s.uart[u'].drv = .configured ∧ t.uart[u'].drv = .enabled)) := by
  unfold initStep at h
  split at h
  · obtain ⟨x, hx, e⟩ := andThen_eq_next.1 h
    cases e
    exact absurd (act_drv (initPinBody_effect hx) u') hne
  · rw [withUart_of_index hat.index] at h
    obtain ⟨rfl, hconfigured | ⟨rfl, henabled⟩⟩ := initUartStep_drv h hne
    · exact ⟨rfl, .inl hconfigured⟩
    · exact ⟨rfl, .inr ⟨rfl, (hat.driver u').2 ⟨by decide, rfl⟩, henabled⟩⟩

end Sys2Proof.Machine
end

section
/-! PROOFS. From the invariant the sequencer goes on: each micro-step finds its latches written and its registers mapped,
and nothing the host asks of an idle block faults (R146, R233, R236). -/

namespace Sys2Proof.Machine

open Sys2Proof.Safety

/-! Answers that go on -/

theorem isNext_iff {α : Type} {x : Answer α} : isNext x = true ↔ ∃ a, x = .next a := by
  cases x <;> simp [isNext]

theorem isNext_of_eq {α : Type} {x : Answer α} {a : α} (h : x = .next a) : isNext x = true := isNext_iff.2 ⟨a, h⟩

theorem not_fault_of_isNext {α : Type} {x : Answer α} (h : isNext x = true) (r : Fault) : x ≠ .fault r := by
  rintro rfl
  cases h

theorem isNext_andThen {α β : Type} {x : Answer α} {f : α → Answer β} (hx : isNext x = true)
    (hf : ∀ a, isNext (f a) = true) : isNext (andThen x f) = true := by
  obtain ⟨a, rfl⟩ := isNext_iff.1 hx
  exact hf a

/-! The GPIO operations -/

theorem setFunctionBody_isNext {p : Pin} {f : Function} {k : Nat} {lat : Latches} {s : State} (hst : Standing s.cfg)
    (hat : SetFunctionAt s p k lat) : isNext (setFunctionBody p f k lat s) = true := by
  obtain ⟨hk, hlat, hword⟩ := hat
  match k with
  | 0 => rfl
  | 1 => exact isNext_of_eq (setFunctionBody_one hst f (hlat le_rfl).1)
  | 2 =>
    obtain ⟨hidx, hoff⟩ := hlat (by decide)
    exact isNext_of_eq (setFunctionBody_two hst f hidx hoff (hword rfl))

theorem enablePinBody_isNext {p : Pin} {k : Nat} {lat : Latches} {s : State} (hst : Standing s.cfg) (hk : k ≤ 5) :
    isNext (enablePinBody p k lat s) = true := by
  match k with
  | 0 => exact isNext_of_eq (enablePinBody_zero hst p)
  | 1 => rfl
  | 2 => exact isNext_of_eq (enablePinBody_two hst p)
  | 3 => rfl
  | 4 => exact isNext_of_eq (enablePinBody_four hst p)
  | 5 => exact isNext_of_eq (enablePinBody_five hst p)

/-! `init` -/

/-- In either order the pin steps are four blocks. -/
theorem initPin_blocks (o : PinOrder) (k : Nat) :
    k < 3 ∨ (rxFunctionStart o ≤ k ∧ k < rxFunctionStart o + 3) ∨ (txEnableStart o ≤ k ∧ k < txEnableStart o + 6) ∨
      12 ≤ k := by
  cases o <;> simp only [rxFunctionStart, txEnableStart] <;> omega

theorem initPinBody_isNext {d : Descriptor} {k : Nat} {lat : Latches} {s : State} (hst : Standing s.cfg) (hk : k < 18)
    (hat : InitPinAt s d k lat) : isNext (initPinBody d k lat s) = true := by
  obtain ⟨htx, hrx⟩ := initPinAt_iff.1 hat
  obtain hlt | ⟨hlo, hhi⟩ | ⟨hlo, hhi⟩ | hle := initPin_blocks s.cfg.initPinOrder k
  · rw [initPinBody_of_tx lat s hlt]
    exact setFunctionBody_isNext hst (htx hlt)
  · rw [initPinBody_of_rx lat s hlo hhi]
    exact setFunctionBody_isNext hst (hrx hlo hhi)
  · rw [initPinBody_of_txEnable lat s hlo hhi]
    exact enablePinBody_isNext hst (by omega)
  · rw [initPinBody_of_rxEnable lat s hle]
    exact enablePinBody_isNext hst (by omega)

section
variable {d : Descriptor} {u : UartIx} {s : State} (hst : Standing s.cfg) (hu : uartIndex s.cfg d = some u)
include hst hu

theorem initUartStep_isNext {b : Word} {k : Nat} {lat : Latches} (hlo : 18 ≤ k) (hat : OperationAt s (.init d b) k lat) :
    isNext (initUartStep u d b k lat s) = true := by
  obtain ⟨hhi, _, _, _, hdiv, hout⟩ := hat
  have hk : k = 18 ∨ k = 19 ∨ k = 20 ∨ k = 21 ∨ k = 22 ∨ k = 23 := by omega
  unfold initUartStep
  rw [base_of_uartIndex hu]
  obtain rfl | rfl | rfl | rfl | rfl | rfl := hk
  · exact isNext_andThen (isNext_of_eq (memWrite_cr hst u _)) fun _ => rfl
  · show isNext (if b = 0 then _ else _) = true
    split <;> rfl
  · obtain ⟨_, hibrd, _⟩ := hdiv (.inl rfl)
    rw [hibrd]
    exact isNext_andThen (isNext_of_eq (memWrite_ibrd hst u _)) fun _ => rfl
  · obtain ⟨_, _, hfbrd⟩ := hdiv (.inr rfl)
    rw [hfbrd]
    exact isNext_andThen (isNext_of_eq (memWrite_fbrd hst u _)) fun _ => rfl
  · exact isNext_andThen (isNext_of_eq (memWrite_lcrh hst u _)) fun _ => rfl
  · rw [hout (by decide)]
    exact isNext_andThen (isNext_of_eq (memWrite_cr hst u _)) fun _ => rfl

/-! The data operations -/

theorem pollStep_isNext (flag : Config → Word → Bool) (op : Operation) (here onward : Nat) (lat : Latches) :
    isNext (pollStep flag d op here onward lat s) = true := by
  rw [pollStep, base_of_uartIndex hu]
  exact isNext_andThen (isNext_of_eq (memRead_fr hst u)) fun _ => rfl

theorem memWrite_data_isNext (v : Word) : isNext (memWrite (d.base + drOff) 4 v s) = true := by
  rw [base_of_uartIndex hu]
  exact isNext_of_eq (memWrite_dr hst u v)

theorem memRead_data_isNext : isNext (memRead (d.base + drOff) 4 s) = true := by
  rw [base_of_uartIndex hu]
  exact isNext_of_eq (memRead_dr hst u)

end

theorem initStep_isNext {d : Descriptor} {b : Word} {k : Nat} {lat : Latches} {s : State} (hst : Standing s.cfg)
    (hat : OperationAt s (.init d b) k lat) : isNext (initStep d b k lat s) = true := by
  have ⟨_, hpin, _, ⟨u, hu, _⟩, _⟩ := hat
  unfold initStep
  split
  · next hk => exact isNext_andThen (initPinBody_isNext hst hk hpin) fun _ => rfl
  · next hk =>
    rw [withUart_of_index hu]
    exact initUartStep_isNext hst hu (by omega) hat

theorem sendStep_isNext {d : Descriptor} {b : Byte} {k : Nat} {lat : Latches} {s : State} (hst : Standing s.cfg)
    (hat : OperationAt s (.send d b) k lat) : isNext (sendStep d b k lat s) = true := by
  obtain ⟨hk, u, hu, _⟩ := hat
  match k with
  | 0 => exact pollStep_isNext hst hu ..
  | 1 => exact isNext_andThen (memWrite_data_isNext hst hu _) fun _ => rfl

theorem recvStep_isNext {d : Descriptor} {k : Nat} {lat : Latches} {s : State} (hst : Standing s.cfg)
    (hat : OperationAt s (.recv d) k lat) : isNext (recvStep d k lat s) = true := by
  obtain ⟨hk, u, hu, _⟩ := hat
  match k with
  | 0 => exact pollStep_isNext hst hu ..
  | 1 => exact isNext_andThen (memRead_data_isNext hst hu) fun _ => rfl

theorem withByte_of_lt {bytes : List Byte} {i : Nat} {f : Byte → Answer State} (h : i < bytes.length) :
    withByte bytes i f = f bytes[i] := by
  rw [withByte, List.getElem?_eq_getElem h]

theorem sendStringStep_isNext {d : Descriptor} {bs : List Byte} {k : Nat} {lat : Latches} {s : State}
    (hst : Standing s.cfg) (hat : OperationAt s (.sendString d bs) k lat) :
    isNext (sendStringStep d bs k lat s) = true := by
  obtain ⟨hk, u, hu, _, _, hlatch⟩ := hat
  match k with
  | 0 => rfl
  | 1 =>
    obtain ⟨i, hi, hle, _⟩ := hlatch le_rfl
    simp only [sendStringStep, hi, withLatch_some]
    split
    · rfl
    · rw [withByte_of_lt (by omega)]
      rfl
  | 2 => exact pollStep_isNext hst hu ..
  | 3 => exact isNext_andThen (memWrite_data_isNext hst hu _) fun _ => rfl
  | 4 => exact pollStep_isNext hst hu ..
  | 5 =>
    obtain ⟨i, hi, _, hlt, _⟩ := hlatch (by decide)
    simp only [sendStringStep, hi, withLatch_some, withByte_of_lt (hlt (by decide))]
    exact isNext_andThen (memWrite_data_isNext hst hu _) fun _ => rfl

/-- A micro-step of an operation in order goes on (R233). -/
theorem microStep_isNext {op : Operation} {k : Nat} {lat : Latches} {s : State} (hst : Standing s.cfg)
    (hat : OperationAt s op k lat) : isNext (microStep op k lat s) = true := by
  cases op with
  | setFunction p f => exact isNext_andThen (setFunctionBody_isNext hst hat) fun _ => by split <;> rfl
  | enablePin p => exact isNext_andThen (enablePinBody_isNext hst hat) fun _ => by split <;> rfl
  | init d b => exact initStep_isNext hst hat
  | send d b => exact sendStep_isNext hst hat
  | recv d => exact recvStep_isNext hst hat
  | sendString d bs => exact sendStringStep_isNext hst hat

/-! What the host asks for: nothing of it reads a latch or a label, so none of it faults (R236). -/

section
variable {r : Fault} {s : State}

theorem whenReady_not_fault {x : Answer State} (hx : x ≠ .fault r) : whenReady s x ≠ .fault r := by
  unfold whenReady
  split
  · simp
  · split
    · exact hx
    · simp

theorem withUart_not_fault {d : Descriptor} {f : UartIx → Answer State} (hf : ∀ u, f u ≠ .fault r) :
    withUart d s f ≠ .fault r := by
  unfold withUart
  split
  · exact hf _
  · simp

theorem withPin_not_fault {pin : Int} {f : Pin → Answer State} (hf : ∀ p, f p ≠ .fault r) : withPin pin f ≠ .fault r := by
  unfold withPin
  split
  · exact hf _
  · simp

theorem whenEnabled_not_fault {u : UartIx} {x : Answer State} (hx : x ≠ .fault r) : whenEnabled u s x ≠ .fault r := by
  unfold whenEnabled
  split
  · exact hx
  · simp

theorem codecCall_not_fault {o n : Nat} {v : Word} : codecCall o n v s ≠ .fault r := by
  unfold codecCall
  split
  · simp
  · split <;> simp

theorem rawRead_not_fault {a n : Nat} : rawRead a n s ≠ .fault r := by
  simp [rawRead, andThen_eq_fault, memRead_not_fault]

theorem rawWrite_not_fault {a n : Nat} {v : Word} : rawWrite a n v s ≠ .fault r := by
  have hmem : andThen (memWrite a n v s) (fun t => .next (finish .ok .none t)) ≠ .fault r := by
    simp [andThen_eq_fault, memWrite_not_fault]
  intro h
  rcases andThen_eq_fault.1 h with h | ⟨reg, _, h⟩
  · exact access_not_fault h
  · split at h
    · split at h
      · exact hmem h
      · cases h
    · exact hmem h

/-- Issuing an instruction does not fault. -/
theorem exec_not_fault (i : Instr) : exec i s ≠ .fault r := by
  cases i with
  | extractField w o n | mergeField w o n v => exact whenReady_not_fault codecCall_not_fault
  | setFunction p f | enablePin p => exact whenReady_not_fault (withPin_not_fault fun _ => by simp)
  | baudDivisor f b | getByIndex k => exact whenReady_not_fault (by split <;> simp)
  | init d b => exact whenReady_not_fault (withUart_not_fault fun _ => by split <;> simp)
  | send d b | recv d | sendString d bs =>
    exact whenReady_not_fault (withUart_not_fault fun _ => whenEnabled_not_fault (by simp))
  | rdGpfsel n => exact whenReady_not_fault rawRead_not_fault
  | wrGpfsel n v | wrGppud v | wrGppudclk0 v | wrGppudclk1 v => exact whenReady_not_fault rawWrite_not_fault
  | rdDr d | rdFr d => exact whenReady_not_fault (withUart_not_fault fun _ => rawRead_not_fault)
  | wrDr d v | wrIbrd d v | wrFbrd d v | wrLcrh d v | wrCr d v =>
    exact whenReady_not_fault (withUart_not_fault fun _ => rawWrite_not_fault)
  | delay n => exact whenReady_not_fault (by simp)

theorem serve_not_fault (q : Request) : serve q s ≠ .fault r := by
  cases q with
  | issue e =>
    show issue e s ≠ .fault r
    unfold issue
    split
    · exact exec_not_fault _
    · simp
    · simp
  | read a n => exact whenReady_not_fault rawRead_not_fault
  | write a n v => exact whenReady_not_fault rawWrite_not_fault

end

/-- From the invariant no step faults: a running operation goes on unless the host is early, an idle block serves the host
(R236). -/
theorem step_not_fault {s : State} (hst : Standing s.cfg) (hseq : SequencerOk s) (r : Fault) : step s ≠ .fault r := by
  unfold step advance
  split
  · next op k lat hs =>
    split
    · simp
    · exact not_fault_of_isNext (microStep_isNext hst ((sequencerOk_running hs).1 hseq)) r
  · split
    · exact serve_not_fault _
    · simp

end Sys2Proof.Machine
end

section
/-! PROOFS. The statements of 60_exceptions.md. -/

namespace Sys2Proof.Machine

open Sys2Proof.Safety

/-- Settles O56: only a step of a running `init` changes a driver state, and the label says which and how. -/
theorem driverTransitions : Obligations.DriverTransitions := by
  intro s t u hinv h hne
  obtain ⟨d, b, k, lat, hs⟩ := step_drv_running h hne
  obtain ⟨_, hat, hstep⟩ := step_running hinv h hs
  obtain ⟨_, _, hconf, _⟩ := hinv
  obtain ⟨_, hinit⟩ := initUartAt_of_operationAt hs hat hconf
  obtain ⟨rfl, htable⟩ := initStep_drv hinit hstep hne
  exact ⟨d, b, k, lat, hs, hinit.index, htable⟩

/-- Settles O58: a micro-step of an operation in order goes on, and serving the host does not fault. -/
theorem invariantNeverStops : Obligations.InvariantNeverStops := by
  rintro s ⟨hst, hseq, _⟩
  refine ⟨step_not_fault hst hseq, fun hrun hp => ?_⟩
  cases hs : s.seq with
  | idle => exact absurd hs hrun
  | running op k lat =>
    rw [step_of_running hp hs]
    exact isNext_iff.1 (microStep_isNext hst ((sequencerOk_running hs).1 hseq))

/-- Settles O31: each of the eleven instructions checks its descriptor first on a ready block. -/
theorem unknownDescriptorRefused : Obligations.UnknownDescriptorRefused := by
  intro s d b bs v hready hd
  have unknown {f : UartIx → Answer State} : whenReady s (withUart d s f) = .refused .unknownDescriptor :=
    (whenReady_of_ready hready _).trans (withUart_of_none (uartIndex_none hd))
  exact ⟨unknown, unknown, unknown, unknown, unknown, unknown, unknown, unknown, unknown, unknown, unknown⟩

/-- Settles O51: every instruction is issued under the check of the sequencer, which an early act meets too. -/
theorem busyRefused : Obligations.BusyRefused := by
  intro s hbusy
  refine ⟨fun i => ?_, fun hearly => ?_⟩
  · obtain ⟨x, hexec, _⟩ := exec_eq_whenReady i s
    rw [hexec, whenReady_of_busy hbusy]
  · cases hs : s.seq with
    | idle => exact absurd hs hbusy
    | running op k lat => simp only [step, advance, hs, hearly, ↓reduceIte]

end Sys2Proof.Machine
end

section
/-! PROOFS. The statement of 70_reset_and_hazards.md. -/

namespace Sys2Proof.Machine

open Sys2Proof.Safety

/-- The launch state of a standing configuration meets the invariant: the sequencer is idle, no UART is `Configured`, and
the logs and the trace are empty (R40, R260). -/
theorem launch_inv {c : Config} (hst : Standing c) (p : PowerOn) : Inv (State.launch c p) := by
  obtain ⟨hidle, htrace, huart, _⟩ := launchStateIsAsListed c p
  refine ⟨hst, sequencerOk_of_idle hidle, configuredOnlyInInit_of_none fun u => ?_, fun u => ?_⟩
  · rw [(huart u).1]
    decide
  · rw [(huart u).2, htrace, bytesWritten]

/-- At launch nothing is on the trace, so no data register was accessed without its poll (R200). -/
theorem launch_polledTrace (c : Config) (p : PowerOn) : PolledTrace (State.launch c p) := by
  obtain ⟨_, htrace, _⟩ := launchStateIsAsListed c p
  rw [PolledTrace, htrace]
  trivial

/-- At launch the host has no act to come. -/
theorem launch_operationsOnly (c : Config) (p : PowerOn) : OperationsOnly (State.launch c p) :=
  List.forall_mem_nil _

/-- Settles O2: the launch state is idle, unconfigured and without history, whatever the unspecified words; `State.reset`
is the one of the default parameters, which stand. -/
theorem launchStateMeetsInvariants : Obligations.LaunchStateMeetsInvariants := by
  have launch {c : Config} (hst : Standing c) (p : PowerOn) :
      Inv (State.launch c p) ∧ PolledTrace (State.launch c p) ∧ OperationsOnly (State.launch c p) :=
    ⟨launch_inv hst p, launch_polledTrace c p, launch_operationsOnly c p⟩
  have default_standing : Standing (defaultConfig .first) := by decide
  exact ⟨fun _ p hst => launch hst p, launch default_standing familyPowerOn⟩

end Sys2Proof.Machine
end
